-- ==== Sys2Proof/Word.lean ====
section
/-! DEFINITION. The CORE's byte and register words, and the one conversion between a bit and a number. -/

namespace Sys2Proof

/-- One byte of IN, WIN, PIX or a row buffer. -/
abbrev Byte := BitVec 8

/-- A host register as the bus sees it: 32 bits (10_state.md, before R31). -/
abbrev Reg32 := BitVec 32

end Sys2Proof
end

