-- ==== Sys2Proof/Config.lean ====
section
/-! DEFINITION. What an implementation fixes: the parameters of 00_scope.md R6. -/

namespace Sys2Proof

/-- `WSIZE`: bytes of sliding window (R6). -/
def wsize : Nat := 32768

/-- `N_LL`: literal/length symbol positions (R6). -/
def nLL : Nat := 288

/-- `N_D`: distance symbol positions (R6). -/
def nD : Nat := 32

/-- `N_CL`: code-length symbols (R6). -/
def nCL : Nat := 19

/-- The offsets of the register interface from `CORE_BASE`, one for each register of 10_state.md R31 to R39. -/
structure RegOffsets where
  cfgWidth : Nat
  cfgHeight : Nat
  cfgBpp : Nat
  ctrl : Nat
  status : Nat
  errCode : Nat
  errByte : Nat
  errBit : Nat
  producedR : Nat
  rowsR : Nat
  deriving DecidableEq, Repr

/-- The parameters R6 leaves OPEN, which are arguments of the model (93_implementation_defined.md U9).
They stand in State, where no step changes them, so a claim over every state holds for every value. -/
structure Params where
  /-- `PIX_CAP`: pixel memory capacity in bytes; `none` is unbounded (45_controller.md R321). -/
  pixCap : Option Nat
  /-- `CNT_W`: bus width of the count registers (10_state.md R39), at least 1. -/
  cntW : Nat
  /-- `CORE_BASE`: where the register interface lies on the bus (20_memory.md R82). -/
  coreBase : Nat
  /-- The registers' offsets from `CORE_BASE`; the spec puts no constraint on them (R6). -/
  offsets : RegOffsets
  deriving DecidableEq, Repr

end Sys2Proof
end

