-- ==== Sys2Proof/Syntax.lean ====
section
/-! DEFINITION. The instructions: one constructor per row of spec/opcode_table.json. An operand is the field the row's rule
reads from the stream, at its own width (30_encoding.md R101 to R112); a row without operand bits has none. -/

namespace Sys2Proof

/-- A token of the stream, or a filter-type byte of the inflated stream (30_encoding.md R113). -/
inductive Instr where
  /-- `BLOCK_HEADER`: BFINAL and BTYPE (R160). -/
  | blockHeader (f : BitVec 1) (t : BitVec 2)
  /-- `BTYPE_STORED` (R161). -/
  | btypeStored
  /-- `BTYPE_FIXED` (R162). -/
  | btypeFixed
  /-- `BTYPE_DYNAMIC` (R163). -/
  | btypeDynamic
  /-- `BTYPE_RESERVED` (R164). -/
  | btypeReserved
  /-- `STORED_HEADER`: LEN and NLEN (R165). -/
  | storedHeader (len nlen : BitVec 16)
  /-- `DYNAMIC_HEADER`: the HLIT, HDIST and HCLEN fields, before their biases (R167). -/
  | dynamicHeader (hlit hdist : BitVec 5) (hclen : BitVec 4)
  /-- `CL_CODE_LENGTHS`: the HCLEN values in the order they are read (R168). -/
  | clCodeLengths (vals : List (BitVec 3))
  /-- `CL_LIT`: the code length n (R170). -/
  | clLit (n : BitVec 4)
  /-- `CL_REP`: 2 extra bits (R171). -/
  | clRep (x : BitVec 2)
  /-- `CL_Z3`: 3 extra bits (R172). -/
  | clZ3 (x : BitVec 3)
  /-- `CL_Z11`: 7 extra bits (R173). -/
  | clZ11 (x : BitVec 7)
  /-- `LIT`: the literal byte (R201). -/
  | lit (v : BitVec 8)
  /-- `EOB` (R202). -/
  | eob
  /-- `LEN257` (R204). -/
  | len257
  /-- `LEN258` (R205). -/
  | len258
  /-- `LEN259` (R206). -/
  | len259
  /-- `LEN260` (R207). -/
  | len260
  /-- `LEN261` (R208). -/
  | len261
  /-- `LEN262` (R209). -/
  | len262
  /-- `LEN263` (R210). -/
  | len263
  /-- `LEN264` (R211). -/
  | len264
  /-- `LEN265` (R212). -/
  | len265 (x : BitVec 1)
  /-- `LEN266` (R213). -/
  | len266 (x : BitVec 1)
  /-- `LEN267` (R214). -/
  | len267 (x : BitVec 1)
  /-- `LEN268` (R215). -/
  | len268 (x : BitVec 1)
  /-- `LEN269` (R216). -/
  | len269 (x : BitVec 2)
  /-- `LEN270` (R217). -/
  | len270 (x : BitVec 2)
  /-- `LEN271` (R218). -/
  | len271 (x : BitVec 2)
  /-- `LEN272` (R219). -/
  | len272 (x : BitVec 2)
  /-- `LEN273` (R220). -/
  | len273 (x : BitVec 3)
  /-- `LEN274` (R221). -/
  | len274 (x : BitVec 3)
  /-- `LEN275` (R222). -/
  | len275 (x : BitVec 3)
  /-- `LEN276` (R223). -/
  | len276 (x : BitVec 3)
  /-- `LEN277` (R224). -/
  | len277 (x : BitVec 4)
  /-- `LEN278` (R225). -/
  | len278 (x : BitVec 4)
  /-- `LEN279` (R226). -/
  | len279 (x : BitVec 4)
  /-- `LEN280` (R227). -/
  | len280 (x : BitVec 4)
  /-- `LEN281` (R228). -/
  | len281 (x : BitVec 5)
  /-- `LEN282` (R229). -/
  | len282 (x : BitVec 5)
  /-- `LEN283` (R230). -/
  | len283 (x : BitVec 5)
  /-- `LEN284` (R231). -/
  | len284 (x : BitVec 5)
  /-- `LEN285` (R232). -/
  | len285
  /-- `LL286_INVALID` (R233). -/
  | ll286Invalid
  /-- `LL287_INVALID` (R234). -/
  | ll287Invalid
  /-- `DIST0` (R236). -/
  | dist0
  /-- `DIST1` (R237). -/
  | dist1
  /-- `DIST2` (R238). -/
  | dist2
  /-- `DIST3` (R239). -/
  | dist3
  /-- `DIST4` (R240). -/
  | dist4 (x : BitVec 1)
  /-- `DIST5` (R241). -/
  | dist5 (x : BitVec 1)
  /-- `DIST6` (R242). -/
  | dist6 (x : BitVec 2)
  /-- `DIST7` (R243). -/
  | dist7 (x : BitVec 2)
  /-- `DIST8` (R244). -/
  | dist8 (x : BitVec 3)
  /-- `DIST9` (R245). -/
  | dist9 (x : BitVec 3)
  /-- `DIST10` (R246). -/
  | dist10 (x : BitVec 4)
  /-- `DIST11` (R247). -/
  | dist11 (x : BitVec 4)
  /-- `DIST12` (R248). -/
  | dist12 (x : BitVec 5)
  /-- `DIST13` (R249). -/
  | dist13 (x : BitVec 5)
  /-- `DIST14` (R250). -/
  | dist14 (x : BitVec 6)
  /-- `DIST15` (R251). -/
  | dist15 (x : BitVec 6)
  /-- `DIST16` (R252). -/
  | dist16 (x : BitVec 7)
  /-- `DIST17` (R253). -/
  | dist17 (x : BitVec 7)
  /-- `DIST18` (R254). -/
  | dist18 (x : BitVec 8)
  /-- `DIST19` (R255). -/
  | dist19 (x : BitVec 8)
  /-- `DIST20` (R256). -/
  | dist20 (x : BitVec 9)
  /-- `DIST21` (R257). -/
  | dist21 (x : BitVec 9)
  /-- `DIST22` (R258). -/
  | dist22 (x : BitVec 10)
  /-- `DIST23` (R259). -/
  | dist23 (x : BitVec 10)
  /-- `DIST24` (R260). -/
  | dist24 (x : BitVec 11)
  /-- `DIST25` (R261). -/
  | dist25 (x : BitVec 11)
  /-- `DIST26` (R262). -/
  | dist26 (x : BitVec 12)
  /-- `DIST27` (R263). -/
  | dist27 (x : BitVec 12)
  /-- `DIST28` (R264). -/
  | dist28 (x : BitVec 13)
  /-- `DIST29` (R265). -/
  | dist29 (x : BitVec 13)
  /-- `DIST30_INVALID` (R266). -/
  | dist30Invalid
  /-- `DIST31_INVALID` (R267). -/
  | dist31Invalid
  /-- `FILTER_NONE` (R301). -/
  | filterNone
  /-- `FILTER_SUB` (R302). -/
  | filterSub
  /-- `FILTER_UP` (R303). -/
  | filterUp
  /-- `FILTER_AVERAGE` (R304). -/
  | filterAverage
  /-- `FILTER_PAETH` (R305). -/
  | filterPaeth
  /-- `FILTER_INVALID`, the row of bytes 0x05 (R306). -/
  | filterInvalid05
  /-- `FILTER_INVALID`, the row of bytes 0x06 to 0x07: the low 1 bits (R306). -/
  | filterInvalid06 (x : BitVec 1)
  /-- `FILTER_INVALID`, the row of bytes 0x08 to 0x0F: the low 3 bits (R306). -/
  | filterInvalid08 (x : BitVec 3)
  /-- `FILTER_INVALID`, the row of bytes 0x10 to 0x1F: the low 4 bits (R306). -/
  | filterInvalid10 (x : BitVec 4)
  /-- `FILTER_INVALID`, the row of bytes 0x20 to 0x3F: the low 5 bits (R306). -/
  | filterInvalid20 (x : BitVec 5)
  /-- `FILTER_INVALID`, the row of bytes 0x40 to 0x7F: the low 6 bits (R306). -/
  | filterInvalid40 (x : BitVec 6)
  /-- `FILTER_INVALID`, the row of bytes 0x80 to 0xFF: the low 7 bits (R306). -/
  | filterInvalid80 (x : BitVec 7)
  deriving DecidableEq, Repr

end Sys2Proof
end

