-- ==== Sys2Proof/WellFormed.lean ====
section
/-! DEFINITION. Which instruction terms the encoding admits. Operand widths are in the types of Syntax; what is left to check
is the number of values of a CL_CODE_LENGTHS token: HCLEN is 4 to 19 (30_encoding.md R104, R108). -/

namespace Sys2Proof

/-- The encoding admits this instruction. -/
def Instr.wellFormed : Instr → Bool
  | .clCodeLengths vals => decide (4 ≤ vals.length) && decide (vals.length ≤ 19)
  | .blockHeader _ _ | .btypeStored | .btypeFixed | .btypeDynamic | .btypeReserved | .storedHeader _ _
  | .dynamicHeader _ _ _ | .clLit _ | .clRep _ | .clZ3 _ | .clZ11 _ | .lit _ | .eob | .len257 | .len258 | .len259 | .len260
  | .len261 | .len262 | .len263 | .len264 | .len265 _ | .len266 _ | .len267 _ | .len268 _ | .len269 _ | .len270 _
  | .len271 _ | .len272 _ | .len273 _ | .len274 _ | .len275 _ | .len276 _ | .len277 _ | .len278 _ | .len279 _ | .len280 _
  | .len281 _ | .len282 _ | .len283 _ | .len284 _ | .len285 | .ll286Invalid | .ll287Invalid | .dist0 | .dist1 | .dist2
  | .dist3 | .dist4 _ | .dist5 _ | .dist6 _ | .dist7 _ | .dist8 _ | .dist9 _ | .dist10 _ | .dist11 _ | .dist12 _ | .dist13 _
  | .dist14 _ | .dist15 _ | .dist16 _ | .dist17 _ | .dist18 _ | .dist19 _ | .dist20 _ | .dist21 _ | .dist22 _ | .dist23 _
  | .dist24 _ | .dist25 _ | .dist26 _ | .dist27 _ | .dist28 _ | .dist29 _ | .dist30Invalid | .dist31Invalid | .filterNone
  | .filterSub | .filterUp | .filterAverage | .filterPaeth | .filterInvalid05 | .filterInvalid06 _ | .filterInvalid08 _
  | .filterInvalid10 _ | .filterInvalid20 _ | .filterInvalid40 _ | .filterInvalid80 _ => true

end Sys2Proof
end

