-- ==== Sys2Proof/Decode.lean ====
section
/-! DEFINITION. Canonical Huffman tables, the bit-by-bit decoder of every token, and the encoder written from the same tables.
The decoder is total: it answers an instruction or one of the named rejections. It reads any source of bits, so the machine
(whose source is its own bit reader) and a plain list of bits run the same text. -/

namespace Sys2Proof

/-! ## Huffman tables (41_huffman.md) -/

/-- One assigned code: the pair (length, value) and its symbol (R140). -/
structure CodeEntry where
  len : Nat
  val : Nat
  sym : Nat
  deriving DecidableEq, Repr

/-- A table: its largest code length and its partial map CODE (R140). -/
structure Table where
  maxL : Nat
  code : List CodeEntry
  deriving DecidableEq, Repr

/-- `max(lens)`, 0 for an array of zeros (R140). -/
def maxLen (lens : List Nat) : Nat := lens.foldr max 0

/-- `COUNT[l]` (R141). -/
def codeCount (lens : List Nat) (l : Nat) : Nat := lens.countP (· == l)

/-- `FIRST[l]`, from `FIRST[1] = 0` and the recurrence of R142. -/
def firstCode (lens : List Nat) : Nat → Nat
  | 0 => 0
  | 1 => 0
  | l + 2 => (firstCode lens (l + 1) + codeCount lens (l + 1)) * 2

/-- `FIRST` as an array indexed by length, entry 0 unused (R142). -/
def firstCodes (lens : List Nat) : List Nat := (List.range (maxLen lens + 1)).map (firstCode lens)

/-- The loop of R143 from symbol `s` on, with the array `NEXT`. -/
def assignCodes : List Nat → Nat → List Nat → List CodeEntry
  | [], _, _ => []
  | l :: lens, s, next =>
    if l = 0 then assignCodes lens (s + 1) next
    else { len := l, val := next.getD l 0, sym := s } :: assignCodes lens (s + 1) (next.set l (next.getD l 0 + 1))

/-- `Build(lens)`: R141 to R143. It never fails and checks nothing (R144). -/
def build (lens : List Nat) : Table :=
  { maxL := maxLen lens, code := assignCodes lens 0 (firstCodes lens) }

/-- `CODE[(l, v)]`, where it is defined (R140). -/
def Table.lookup (T : Table) (l v : Nat) : Option Nat :=
  (T.code.find? fun e => e.len == l && e.val == v).map CodeEntry.sym

/-- The code lengths of `FIXED_LL` (10_state.md R45). -/
def fixedLLLens : List Nat :=
  List.replicate 144 8 ++ List.replicate 112 9 ++ List.replicate 24 7 ++ List.replicate 8 8

/-- `FIXED_LL` (10_state.md R45). -/
def fixedLL : Table := build fixedLLLens

/-- `FIXED_D`: 32 symbols of length 5 (10_state.md R45, 90_conflicts.md C2). -/
def fixedD : Table := build (List.replicate 32 5)

/-! ## A source of bits -/

/-- Why the decoder stops without an instruction. -/
inductive Reject where
  /-- A bit is needed and none is left (40_bitreader.md R130). -/
  | endOfInput
  /-- No code of the table matches within its largest length (41_huffman.md R146). -/
  | noCode
  /-- A byte of IN below IN_LEN that the host never wrote. -/
  | inUnwritten
  /-- A table that maps a code to a symbol outside its alphabet; no table built from an alphabet's array does. -/
  | badSymbol
  deriving DecidableEq, Repr

/-- A read: a value with the source after it, or a rejection with the source at the failing check. -/
inductive Rd (σ α : Type) where
  | ok (a : α) (s : σ)
  | err (e : Reject) (s : σ)
  deriving DecidableEq, Repr

/-- Go on with the value read; a rejection ends the rule at once. -/
def Rd.bind {σ α β : Type} (r : Rd σ α) (k : α → σ → Rd σ β) : Rd σ β :=
  match r with
  | .ok a s => k a s
  | .err e s => .err e s

/-- A register that a header rule writes as soon as its field is read, before the next field (42_blocks.md R167, R168). -/
inductive Latch where
  | hlit (n : Nat)
  | hdist (n : Nat)
  | hclen (n : Nat)
  /-- `CL_LENS[0..18] <- 0` (R168). -/
  | clClear
  /-- `CL_LENS[PERM[k]] <- v` (R168). -/
  | clLen (k v : Nat)
  deriving DecidableEq, Repr

/-- Where bits come from: `ReadBit`, `ByteAlign`, and the registers that header fields are latched in. -/
structure Source (σ : Type) where
  bit : σ → Rd σ Bool
  align : σ → σ
  latch : Latch → σ → σ

/-- A plain list of bits in read order. It begins at a byte boundary where alignment matters, and latches nothing. -/
def listSource : Source (List Bool) where
  bit := fun bits => match bits with
    | [] => .err .endOfInput []
    | b :: rest => .ok b rest
  align := fun bits => bits
  latch := fun _ bits => bits

/-- `ReadBits(n)`: the first bit read is bit 0 of the result (40_bitreader.md R131, 20_memory.md R75). -/
def readBits {σ : Type} (src : Source σ) : Nat → σ → Rd σ Nat
  | 0, s => .ok 0 s
  | n + 1, s => (src.bit s).bind fun b s => (readBits src n s).bind fun v s => .ok (b.toNat + 2 * v) s

/-- The loop of `HuffDecode` with `n` lengths left, from length `l` and candidate `v` (41_huffman.md R145). -/
def huffLoop {σ : Type} (src : Source σ) (T : Table) : Nat → Nat → Nat → σ → Rd σ Nat
  | 0, _, _, s => .err .noCode s
  | n + 1, l, v, s => (src.bit s).bind fun b s =>
      match T.lookup l (2 * v + b.toNat) with
      | some sym => .ok sym s
      | none => huffLoop src T n (l + 1) (2 * v + b.toNat) s

/-- `HuffDecode(T)`: the first bit read is the code's most significant bit (R145, 20_memory.md R76). An empty table rejects
at once, with no bit read (R146). -/
def huffDecode {σ : Type} (src : Source σ) (T : Table) (s : σ) : Rd σ Nat := huffLoop src T T.maxL 1 0 s

/-! ## Operand widths and the opcode map (30_encoding.md) -/

/-- `PERM`, the order of the code-length code lengths (R104). -/
def clPerm : List Nat := [16, 17, 18, 0, 8, 7, 9, 6, 10, 5, 11, 4, 12, 3, 13, 2, 14, 1, 15]

/-- Extra bits of a code-length symbol (R106). -/
def clExtra : Nat → Nat
  | 16 => 2
  | 17 => 3
  | 18 => 7
  | _ => 0

/-- `LEXT(s)` (R110). -/
def lenExtra : Nat → Nat
  | 265 | 266 | 267 | 268 => 1
  | 269 | 270 | 271 | 272 => 2
  | 273 | 274 | 275 | 276 => 3
  | 277 | 278 | 279 | 280 => 4
  | 281 | 282 | 283 | 284 => 5
  | _ => 0

/-- `DEXT(ds)` (R111). -/
def distExtra : Nat → Nat
  | 4 | 5 => 1
  | 6 | 7 => 2
  | 8 | 9 => 3
  | 10 | 11 => 4
  | 12 | 13 => 5
  | 14 | 15 => 6
  | 16 | 17 => 7
  | 18 | 19 => 8
  | 20 | 21 => 9
  | 22 | 23 => 10
  | 24 | 25 => 11
  | 26 | 27 => 12
  | 28 | 29 => 13
  | _ => 0

/-- The instruction of a block type (R113). -/
def btypeInstr (t : BitVec 2) : Instr :=
  match t.toNat with
  | 0 => .btypeStored
  | 1 => .btypeFixed
  | 2 => .btypeDynamic
  | _ => .btypeReserved

/-- The instruction of a code-length symbol and its extra value (R113). -/
def clInstr (s x : Nat) : Option Instr :=
  if s < 16 then some (.clLit (BitVec.ofNat 4 s))
  else match s with
    | 16 => some (.clRep (BitVec.ofNat 2 x))
    | 17 => some (.clZ3 (BitVec.ofNat 3 x))
    | 18 => some (.clZ11 (BitVec.ofNat 7 x))
    | _ => none

/-- The instruction of a literal/length symbol and its extra value (R113). -/
def llInstr (s x : Nat) : Option Instr :=
  if s < 256 then some (.lit (BitVec.ofNat 8 s))
  else match s with
    | 256 => some .eob
    | 257 => some .len257
    | 258 => some .len258
    | 259 => some .len259
    | 260 => some .len260
    | 261 => some .len261
    | 262 => some .len262
    | 263 => some .len263
    | 264 => some .len264
    | 265 => some (.len265 (BitVec.ofNat 1 x))
    | 266 => some (.len266 (BitVec.ofNat 1 x))
    | 267 => some (.len267 (BitVec.ofNat 1 x))
    | 268 => some (.len268 (BitVec.ofNat 1 x))
    | 269 => some (.len269 (BitVec.ofNat 2 x))
    | 270 => some (.len270 (BitVec.ofNat 2 x))
    | 271 => some (.len271 (BitVec.ofNat 2 x))
    | 272 => some (.len272 (BitVec.ofNat 2 x))
    | 273 => some (.len273 (BitVec.ofNat 3 x))
    | 274 => some (.len274 (BitVec.ofNat 3 x))
    | 275 => some (.len275 (BitVec.ofNat 3 x))
    | 276 => some (.len276 (BitVec.ofNat 3 x))
    | 277 => some (.len277 (BitVec.ofNat 4 x))
    | 278 => some (.len278 (BitVec.ofNat 4 x))
    | 279 => some (.len279 (BitVec.ofNat 4 x))
    | 280 => some (.len280 (BitVec.ofNat 4 x))
    | 281 => some (.len281 (BitVec.ofNat 5 x))
    | 282 => some (.len282 (BitVec.ofNat 5 x))
    | 283 => some (.len283 (BitVec.ofNat 5 x))
    | 284 => some (.len284 (BitVec.ofNat 5 x))
    | 285 => some .len285
    | 286 => some .ll286Invalid
    | 287 => some .ll287Invalid
    | _ => none

/-- The instruction of a distance symbol and its extra value (R113). -/
def distInstr (s x : Nat) : Option Instr :=
  match s with
  | 0 => some .dist0
  | 1 => some .dist1
  | 2 => some .dist2
  | 3 => some .dist3
  | 4 => some (.dist4 (BitVec.ofNat 1 x))
  | 5 => some (.dist5 (BitVec.ofNat 1 x))
  | 6 => some (.dist6 (BitVec.ofNat 2 x))
  | 7 => some (.dist7 (BitVec.ofNat 2 x))
  | 8 => some (.dist8 (BitVec.ofNat 3 x))
  | 9 => some (.dist9 (BitVec.ofNat 3 x))
  | 10 => some (.dist10 (BitVec.ofNat 4 x))
  | 11 => some (.dist11 (BitVec.ofNat 4 x))
  | 12 => some (.dist12 (BitVec.ofNat 5 x))
  | 13 => some (.dist13 (BitVec.ofNat 5 x))
  | 14 => some (.dist14 (BitVec.ofNat 6 x))
  | 15 => some (.dist15 (BitVec.ofNat 6 x))
  | 16 => some (.dist16 (BitVec.ofNat 7 x))
  | 17 => some (.dist17 (BitVec.ofNat 7 x))
  | 18 => some (.dist18 (BitVec.ofNat 8 x))
  | 19 => some (.dist19 (BitVec.ofNat 8 x))
  | 20 => some (.dist20 (BitVec.ofNat 9 x))
  | 21 => some (.dist21 (BitVec.ofNat 9 x))
  | 22 => some (.dist22 (BitVec.ofNat 10 x))
  | 23 => some (.dist23 (BitVec.ofNat 10 x))
  | 24 => some (.dist24 (BitVec.ofNat 11 x))
  | 25 => some (.dist25 (BitVec.ofNat 11 x))
  | 26 => some (.dist26 (BitVec.ofNat 12 x))
  | 27 => some (.dist27 (BitVec.ofNat 12 x))
  | 28 => some (.dist28 (BitVec.ofNat 13 x))
  | 29 => some (.dist29 (BitVec.ofNat 13 x))
  | 30 => some .dist30Invalid
  | 31 => some .dist31Invalid
  | _ => none

/-- The instruction of a filter-type byte; every byte selects exactly one row (R113, 44_defilter.md R306). -/
def filterInstr (b : Byte) : Instr :=
  match b.toNat with
  | 0 => .filterNone
  | 1 => .filterSub
  | 2 => .filterUp
  | 3 => .filterAverage
  | 4 => .filterPaeth
  | 5 => .filterInvalid05
  | n =>
    if n < 0x08 then .filterInvalid06 (b.setWidth 1)
    else if n < 0x10 then .filterInvalid08 (b.setWidth 3)
    else if n < 0x20 then .filterInvalid10 (b.setWidth 4)
    else if n < 0x40 then .filterInvalid20 (b.setWidth 5)
    else if n < 0x80 then .filterInvalid40 (b.setWidth 6)
    else .filterInvalid80 (b.setWidth 7)

/-! ## The decoder -/

/-- Which token the machine's phase calls for, with the table it is coded in. -/
inductive Ctx where
  | blockHeader
  /-- The BTYPE field alone: its row is selected after the header is latched (42_blocks.md R160). -/
  | btype
  | stored
  | dynamic
  /-- HCLEN values of 3 bits. -/
  | clLengths (n : Nat)
  /-- A code-length token; `hasPrev` says that a previous length exists (42_blocks.md R171). -/
  | cl (T : Table) (hasPrev : Bool)
  | ll (T : Table)
  | dist (T : Table)
  /-- The filter-type byte, from the inflated stream. -/
  | filter
  deriving DecidableEq, Repr

/-- The `n` values of a CL_CODE_LENGTHS token from index `k` on, each latched as it is read (42_blocks.md R168). -/
def readClLengths {σ : Type} (src : Source σ) : Nat → Nat → σ → Rd σ (List (BitVec 3))
  | 0, _, s => .ok [] s
  | n + 1, k, s => (readBits src 3 s).bind fun v s =>
      (readClLengths src n (k + 1) (src.latch (.clLen k v) s)).bind fun vs s => .ok (BitVec.ofNat 3 v :: vs) s

/-- A symbol with its extra value as an instruction; a symbol outside the alphabet is rejected. -/
def symbolInstr {σ : Type} (i : Option Instr) (s : σ) : Rd σ Instr :=
  match i with
  | some i => .ok i s
  | none => .err .badSymbol s

/-- One token: its fields in the order the spec reads them (30_encoding.md R101 to R106). -/
def decode {σ : Type} (src : Source σ) (c : Ctx) (s : σ) : Rd σ Instr :=
  match c with
  | .blockHeader =>
    (readBits src 1 s).bind fun f s => (readBits src 2 s).bind fun t s =>
      .ok (.blockHeader (BitVec.ofNat 1 f) (BitVec.ofNat 2 t)) s
  | .btype => (readBits src 2 s).bind fun t s => .ok (btypeInstr (BitVec.ofNat 2 t)) s
  | .stored =>
    (readBits src 16 (src.align s)).bind fun len s => (readBits src 16 s).bind fun nlen s =>
      .ok (.storedHeader (BitVec.ofNat 16 len) (BitVec.ofNat 16 nlen)) s
  | .dynamic =>
    (readBits src 5 s).bind fun h s => (readBits src 5 (src.latch (.hlit (h + 257)) s)).bind fun d s =>
      (readBits src 4 (src.latch (.hdist (d + 1)) s)).bind fun n s =>
        .ok (.dynamicHeader (BitVec.ofNat 5 h) (BitVec.ofNat 5 d) (BitVec.ofNat 4 n)) (src.latch (.hclen (n + 4)) s)
  | .clLengths n =>
    (readClLengths src n 0 (src.latch .clClear s)).bind fun vs s => .ok (.clCodeLengths vs) s
  | .cl T hasPrev =>
    (huffDecode src T s).bind fun sym s =>
      -- symbol 16 with no previous length is reported before its extra bits are read (42_blocks.md R171)
      if sym = 16 ∧ hasPrev = false then .ok (.clRep 0) s
      else (readBits src (clExtra sym) s).bind fun x s => symbolInstr (clInstr sym x) s
  | .ll T =>
    (huffDecode src T s).bind fun sym s => (readBits src (lenExtra sym) s).bind fun x s => symbolInstr (llInstr sym x) s
  | .dist T =>
    (huffDecode src T s).bind fun sym s => (readBits src (distExtra sym) s).bind fun x s => symbolInstr (distInstr sym x) s
  | .filter => (readBits src 8 s).bind fun b s => .ok (filterInstr (BitVec.ofNat 8 b)) s

/-! ## The encoder -/

/-- The low `n` bits of `v`, least significant first: a field in read order (20_memory.md R75). -/
def bitsLsb : Nat → Nat → List Bool
  | 0, _ => []
  | n + 1, v => (v % 2 == 1) :: bitsLsb n (v / 2)

/-- A code of length `n` in read order, most significant bit first (20_memory.md R76). -/
def bitsMsb (n v : Nat) : List Bool := (bitsLsb n v).reverse

/-- Bytes as bits in read order (20_memory.md R74). -/
def bitsOfBytes (bytes : List Byte) : List Bool := bytes.flatMap fun b => bitsLsb 8 b.toNat

/-- The code bits of a symbol, where the table gives it a code. -/
def Table.codeBits (T : Table) (sym : Nat) : Option (List Bool) :=
  (T.code.find? fun e => e.sym == sym).map fun e => bitsMsb e.len e.val

/-- The tables a stream's tokens are coded in. -/
structure Codes where
  ll : Table
  dist : Table
  cl : Table
  deriving DecidableEq, Repr

/-- A symbol's code and `n` extra bits of value `x`. -/
def symbolBits (T : Table) (sym n x : Nat) : Option (List Bool) := (T.codeBits sym).map (· ++ bitsLsb n x)

/-- The words of an instruction: its bits in read order. `none` where its symbol has no code in the table. -/
def encode (k : Codes) : Instr → Option (List Bool)
  | .blockHeader f t => some (bitsLsb 1 f.toNat ++ bitsLsb 2 t.toNat)
  | .btypeStored => some (bitsLsb 2 0)
  | .btypeFixed => some (bitsLsb 2 1)
  | .btypeDynamic => some (bitsLsb 2 2)
  | .btypeReserved => some (bitsLsb 2 3)
  | .storedHeader len nlen => some (bitsLsb 16 len.toNat ++ bitsLsb 16 nlen.toNat)
  | .dynamicHeader hlit hdist hclen => some (bitsLsb 5 hlit.toNat ++ bitsLsb 5 hdist.toNat ++ bitsLsb 4 hclen.toNat)
  | .clCodeLengths vals => some (vals.flatMap fun v => bitsLsb 3 v.toNat)
  | .clLit n => symbolBits k.cl n.toNat 0 0
  | .clRep x => symbolBits k.cl 16 2 x.toNat
  | .clZ3 x => symbolBits k.cl 17 3 x.toNat
  | .clZ11 x => symbolBits k.cl 18 7 x.toNat
  | .lit v => symbolBits k.ll v.toNat 0 0
  | .eob => symbolBits k.ll 256 0 0
  | .len257 => symbolBits k.ll 257 0 0
  | .len258 => symbolBits k.ll 258 0 0
  | .len259 => symbolBits k.ll 259 0 0
  | .len260 => symbolBits k.ll 260 0 0
  | .len261 => symbolBits k.ll 261 0 0
  | .len262 => symbolBits k.ll 262 0 0
  | .len263 => symbolBits k.ll 263 0 0
  | .len264 => symbolBits k.ll 264 0 0
  | .len265 x => symbolBits k.ll 265 1 x.toNat
  | .len266 x => symbolBits k.ll 266 1 x.toNat
  | .len267 x => symbolBits k.ll 267 1 x.toNat
  | .len268 x => symbolBits k.ll 268 1 x.toNat
  | .len269 x => symbolBits k.ll 269 2 x.toNat
  | .len270 x => symbolBits k.ll 270 2 x.toNat
  | .len271 x => symbolBits k.ll 271 2 x.toNat
  | .len272 x => symbolBits k.ll 272 2 x.toNat
  | .len273 x => symbolBits k.ll 273 3 x.toNat
  | .len274 x => symbolBits k.ll 274 3 x.toNat
  | .len275 x => symbolBits k.ll 275 3 x.toNat
  | .len276 x => symbolBits k.ll 276 3 x.toNat
  | .len277 x => symbolBits k.ll 277 4 x.toNat
  | .len278 x => symbolBits k.ll 278 4 x.toNat
  | .len279 x => symbolBits k.ll 279 4 x.toNat
  | .len280 x => symbolBits k.ll 280 4 x.toNat
  | .len281 x => symbolBits k.ll 281 5 x.toNat
  | .len282 x => symbolBits k.ll 282 5 x.toNat
  | .len283 x => symbolBits k.ll 283 5 x.toNat
  | .len284 x => symbolBits k.ll 284 5 x.toNat
  | .len285 => symbolBits k.ll 285 0 0
  | .ll286Invalid => symbolBits k.ll 286 0 0
  | .ll287Invalid => symbolBits k.ll 287 0 0
  | .dist0 => symbolBits k.dist 0 0 0
  | .dist1 => symbolBits k.dist 1 0 0
  | .dist2 => symbolBits k.dist 2 0 0
  | .dist3 => symbolBits k.dist 3 0 0
  | .dist4 x => symbolBits k.dist 4 1 x.toNat
  | .dist5 x => symbolBits k.dist 5 1 x.toNat
  | .dist6 x => symbolBits k.dist 6 2 x.toNat
  | .dist7 x => symbolBits k.dist 7 2 x.toNat
  | .dist8 x => symbolBits k.dist 8 3 x.toNat
  | .dist9 x => symbolBits k.dist 9 3 x.toNat
  | .dist10 x => symbolBits k.dist 10 4 x.toNat
  | .dist11 x => symbolBits k.dist 11 4 x.toNat
  | .dist12 x => symbolBits k.dist 12 5 x.toNat
  | .dist13 x => symbolBits k.dist 13 5 x.toNat
  | .dist14 x => symbolBits k.dist 14 6 x.toNat
  | .dist15 x => symbolBits k.dist 15 6 x.toNat
  | .dist16 x => symbolBits k.dist 16 7 x.toNat
  | .dist17 x => symbolBits k.dist 17 7 x.toNat
  | .dist18 x => symbolBits k.dist 18 8 x.toNat
  | .dist19 x => symbolBits k.dist 19 8 x.toNat
  | .dist20 x => symbolBits k.dist 20 9 x.toNat
  | .dist21 x => symbolBits k.dist 21 9 x.toNat
  | .dist22 x => symbolBits k.dist 22 10 x.toNat
  | .dist23 x => symbolBits k.dist 23 10 x.toNat
  | .dist24 x => symbolBits k.dist 24 11 x.toNat
  | .dist25 x => symbolBits k.dist 25 11 x.toNat
  | .dist26 x => symbolBits k.dist 26 12 x.toNat
  | .dist27 x => symbolBits k.dist 27 12 x.toNat
  | .dist28 x => symbolBits k.dist 28 13 x.toNat
  | .dist29 x => symbolBits k.dist 29 13 x.toNat
  | .dist30Invalid => symbolBits k.dist 30 0 0
  | .dist31Invalid => symbolBits k.dist 31 0 0
  | .filterNone => some (bitsLsb 8 0)
  | .filterSub => some (bitsLsb 8 1)
  | .filterUp => some (bitsLsb 8 2)
  | .filterAverage => some (bitsLsb 8 3)
  | .filterPaeth => some (bitsLsb 8 4)
  | .filterInvalid05 => some (bitsLsb 8 0x05)
  | .filterInvalid06 x => some (bitsLsb 8 (0x06 + x.toNat))
  | .filterInvalid08 x => some (bitsLsb 8 (0x08 + x.toNat))
  | .filterInvalid10 x => some (bitsLsb 8 (0x10 + x.toNat))
  | .filterInvalid20 x => some (bitsLsb 8 (0x20 + x.toNat))
  | .filterInvalid40 x => some (bitsLsb 8 (0x40 + x.toNat))
  | .filterInvalid80 x => some (bitsLsb 8 (0x80 + x.toNat))

/-- The token kind that reads this instruction, with the table it is coded in. -/
def Instr.ctx (k : Codes) : Instr → Ctx
  | .blockHeader _ _ => .blockHeader
  | .storedHeader _ _ => .stored
  | .dynamicHeader _ _ _ => .dynamic
  | .clCodeLengths vals => .clLengths vals.length
  | .btypeStored | .btypeFixed | .btypeDynamic | .btypeReserved => .btype
  | .clLit _ | .clRep _ | .clZ3 _ | .clZ11 _ => .cl k.cl true
  | .lit _ | .eob | .len257 | .len258 | .len259 | .len260 | .len261 | .len262 | .len263 | .len264 | .len265 _ | .len266 _
  | .len267 _ | .len268 _ | .len269 _ | .len270 _ | .len271 _ | .len272 _ | .len273 _ | .len274 _ | .len275 _ | .len276 _
  | .len277 _ | .len278 _ | .len279 _ | .len280 _ | .len281 _ | .len282 _ | .len283 _ | .len284 _ | .len285 | .ll286Invalid
  | .ll287Invalid => .ll k.ll
  | .dist0 | .dist1 | .dist2 | .dist3 | .dist4 _ | .dist5 _ | .dist6 _ | .dist7 _ | .dist8 _ | .dist9 _ | .dist10 _
  | .dist11 _ | .dist12 _ | .dist13 _ | .dist14 _ | .dist15 _ | .dist16 _ | .dist17 _ | .dist18 _ | .dist19 _ | .dist20 _
  | .dist21 _ | .dist22 _ | .dist23 _ | .dist24 _ | .dist25 _ | .dist26 _ | .dist27 _ | .dist28 _ | .dist29 _
  | .dist30Invalid | .dist31Invalid => .dist k.dist
  | .filterNone | .filterSub | .filterUp | .filterAverage | .filterPaeth | .filterInvalid05 | .filterInvalid06 _
  | .filterInvalid08 _ | .filterInvalid10 _ | .filterInvalid20 _ | .filterInvalid40 _ | .filterInvalid80 _ => .filter

/-! ## Words of the opcode table -/

/-- A complete set of codes to place one token with: the fixed tables, and for the code-length alphabet 19 codes of 5 bits
whose value is the symbol. -/
def tableCodes : Codes := { ll := fixedLL, dist := fixedD, cl := build (List.replicate nCL 5) }

/-- The token of a word of the opcode table, as a token kind and its bits with every operand bit 0. The table's words are
symbol values, and they name their alphabet by the row's format, which a word alone does not tell: 9-bit words are
literal/length symbols, words below 32 are read as distance symbols and the other 8-bit words as filter-type bytes (Log 7). -/
def tableToken (nbits w : Nat) : Option (Ctx × List Bool) :=
  if 8 < nbits then (symbolBits fixedLL w (lenExtra w) 0).map fun bits => (.ll fixedLL, bits)
  else if w < 32 then (symbolBits fixedD w (distExtra w) 0).map fun bits => (.dist fixedD, bits)
  else if w < 256 then some (.filter, bitsLsb 8 w)
  else none

/-- The instruction the decoder reads from a word of the opcode table. -/
def decodeTableWord (nbits w : Nat) : Option Instr :=
  match tableToken nbits w with
  | none => none
  | some (c, bits) =>
    match decode listSource c bits with
    | .ok i _ => some i
    | .err _ _ => none

end Sys2Proof
end

