-- ==== Sys2Proof/Machine/State.lean ====
section
/-! DEFINITION. Everything the spec gives the machine (10_state.md R30), as plain data, with its reset value (R53), and the
reasons a step can stop. -/

namespace Sys2Proof.Machine

/-- A byte memory: (address, byte) pairs, addresses strictly rising. An unlisted address holds no value (10_state.md R53). -/
abbrev Memory := List Host.Cell

/-- `PHASE` (10_state.md R36): exactly the nine values; 9 to 15 cannot be built (93_implementation_defined.md U5). -/
inductive Phase where
  | idle
  | blockHeader
  | stored
  | fixed
  | dynamic
  | symbols
  | finish
  | complete
  | error
  deriving DecidableEq, Repr

/-- The error codes (60_exceptions.md R400); 11 to 15 cannot be built (93_implementation_defined.md U7). The last two are the
container's and no rule raises them (R409). -/
inductive ErrCode where
  | none
  | endOfInput
  | truncatedInput
  | invalidBlockType
  | invalidStoredBlock
  | invalidHuffmanCode
  | invalidBackReference
  | invalidFilterType
  | unsupportedFeature
  | notAPng
  | chunkLengthMismatch
  deriving DecidableEq, Repr

/-- The five filter types, the values of `CURF` (10_state.md R49). -/
inductive FilterType where
  | none
  | sub
  | up
  | average
  | paeth
  deriving DecidableEq, Repr

/-- Which part of the current phase's rule comes next, with what the rule carries between its steps (10_state.md R30; Log 5). -/
inductive Stage where
  /-- The phase's rule from its first line. -/
  | start
  /-- BLOCK_HEADER: the header is latched, its block type's row is next (42_blocks.md R160). -/
  | dispatch
  /-- STORED: a data byte is next (42_blocks.md R165). -/
  | raw
  /-- STORED: a data byte is emitted, STOREDREM is to be counted down (42_blocks.md R165). -/
  | rawNext
  /-- DYNAMIC: the code-length code lengths are next (42_blocks.md R168). -/
  | clLengths
  /-- DYNAMIC: `T_CL` is to be built (42_blocks.md R169). -/
  | clBuild
  /-- DYNAMIC: the code-length token loop (42_blocks.md R169). -/
  | clTokens
  /-- SYMBOLS: a length symbol gave the length `l`, its distance token is next (43_symbols_lz77.md R203). -/
  | dist (l : Nat)
  /-- SYMBOLS: `left` bytes of a copy at distance `d` are still to be emitted (43_symbols_lz77.md R269). -/
  | copy (left d : Nat)
  deriving DecidableEq, Repr

/-- What `RowAccept` still has to do before anything else happens (45_controller.md R323; Log 5). -/
inductive RowDue where
  | clear
  /-- The byte `b` was emitted at a filter position: its filter-type row is next. -/
  | filterByte (b : Byte)
  /-- The row's last byte has arrived: `FinishRow` with the filter of `CURF` is next (R324). -/
  | finishRow
  deriving DecidableEq, Repr

/-- The host registers by name (10_state.md R31 to R39). Their bus addresses are parameters (00_scope.md R6). -/
inductive Reg where
  | cfgWidth
  | cfgHeight
  | cfgBpp
  | ctrl
  | status
  | errCode
  | errByte
  | errBit
  | producedR
  | rowsR
  deriving DecidableEq, Repr

/-- The host's moves (45_controller.md R333). A register is accessed by its name or at a bus address. -/
inductive HostMove where
  | writeReg (r : Reg) (v : Reg32)
  | readReg (r : Reg)
  | busWrite (a : Nat) (v : Reg32)
  | busRead (a : Nat)
  | writeIn (a : Nat) (b : Byte)
  | setInLen (n : Nat)
  | readPix (a : Nat)
  deriving DecidableEq, Repr

/-- A coming host move and the number of CORE steps that go before it (Log 1). -/
structure HostEvent where
  wait : Nat
  move : HostMove
  deriving DecidableEq, Repr

/-- The machine's state. -/
structure State where
  /-- The OPEN parameters (00_scope.md R6); no step changes them. -/
  prm : Params
  /-- `CFG_WIDTH` (R31). -/
  cfgWidth : Reg32
  /-- `CFG_HEIGHT` (R32). -/
  cfgHeight : Reg32
  /-- `CFG_BPP` bits [2:0] (R33). -/
  cfgBpp : BitVec 3
  /-- `ERRCODE` (R37). -/
  errCode : ErrCode
  /-- `ERRBYTE` (R38), unbounded; a host read takes it mod 2^CNT_W (R39). -/
  errByte : Nat
  /-- `ERRBIT` (R38), 0 to 8. -/
  errBit : Nat
  /-- `BYTEPOS` (R40). -/
  bytePos : Nat
  /-- `CURBYTE` (R40). -/
  curByte : Byte
  /-- `BITCNT` (R40), 0 to 8. -/
  bitCnt : Nat
  /-- `PHASE` (R42). -/
  phase : Phase
  /-- The model's own: the part of the phase's rule that is next. -/
  stage : Stage
  /-- The model's own: what the row assembler has to do first. -/
  row : RowDue
  /-- `BFINAL` (R43). -/
  bfinal : BitVec 1
  /-- `BTYPE` (R43). -/
  btype : BitVec 2
  /-- `LL_LENS` (R44), 288 lengths. -/
  llLens : List Nat
  /-- `D_LENS` (R44), 32 lengths. -/
  dLens : List Nat
  /-- `CL_LENS` (R44), 19 lengths. -/
  clLens : List Nat
  /-- `T_LL` (R44). -/
  tLL : Table
  /-- `T_D` (R44). -/
  tD : Table
  /-- `T_CL` (R44). -/
  tCL : Table
  /-- `HLIT` (R46). -/
  hlit : Nat
  /-- `HDIST` (R46). -/
  hdist : Nat
  /-- `HCLEN` (R46). -/
  hclen : Nat
  /-- `LENSEQ` (R46), 320 lengths. -/
  lenSeq : List Nat
  /-- `NLENS` (R46). -/
  nlens : Nat
  /-- `STOREDREM` (R47). -/
  storedRem : Nat
  /-- `WIN` (R48, 20_memory.md R73). -/
  win : Memory
  /-- `WPOS` (R48). -/
  wpos : BitVec 15
  /-- `PRODUCED` (R48). -/
  produced : Nat
  /-- W as latched at START (R51, R52). -/
  latW : Reg32
  /-- H as latched at START (R51, R52). -/
  latH : Reg32
  /-- B as latched at START (R51, R52). -/
  latB : BitVec 3
  /-- `Y` (R49). -/
  y : Nat
  /-- `ROWPOS` (R49). -/
  rowPos : Nat
  /-- `CURF` (R49). -/
  curF : FilterType
  /-- `CUR` (R49), ROWLEN bytes. -/
  cur : List Byte
  /-- `PREV` (R49), ROWLEN bytes. -/
  prev : List Byte
  /-- `IN` (20_memory.md R71). -/
  inMem : Memory
  /-- `IN_LEN` (20_memory.md R71). -/
  inLen : Nat
  /-- `PIX` (20_memory.md R72). -/
  pix : Memory
  /-- The model's own: the host's coming moves, the next one first. -/
  host : List HostEvent
  /-- The model's own: what the host's last read returned. -/
  rdata : Nat
  deriving DecidableEq, Repr

/-- Why the model stops where the spec gives no next state. No instruction stops on every path; each stop is safe: the model
stops where it would otherwise have to choose a value. -/
inductive Fault where
  /-- Raised by a bit read at a byte of IN below IN_LEN that the host never wrote. Safe (Log 2). -/
  | inUnwritten
  /-- Raised by a copy that reads a window cell with no value (10_state.md R54). Safe; no reachable state raises it. -/
  | winUnwritten
  /-- Raised by FinishRow for a row at or beyond H, whose PIX bytes do not exist (20_memory.md R72). Safe; not reachable. -/
  | pixOutOfRange
  /-- Raised by a host read of PIX outside COMPLETE or of a byte with no value (93_implementation_defined.md U4, U11). Safe. -/
  | pixNotReadable
  /-- Raised by a table that maps a code to a symbol outside its alphabet (43_symbols_lz77.md R200). Safe; not reachable. -/
  | badSymbol
  deriving DecidableEq, Repr

/-- Moves the model does not give. -/
inductive Refusal where
  /-- Raised by an arm of exec for an instruction with no meaning yet. Safe. -/
  | notModelled (mnemonic : String)
  /-- Raised by a host move that writes IN or IN_LEN while BUSY (20_memory.md R86, 93_implementation_defined.md U6). Unsafe for
  a host that breaks its duty: the model lacks those runs. -/
  | hostWriteWhileBusy
  /-- Raised by a host access at a bus address where this CORE has no register (00_scope.md R6 leaves the placement OPEN). Safe
  (Log 11). -/
  | noRegister
  deriving DecidableEq, Repr

/-- The empty table, `Build` of an array of zeros (R53). -/
def emptyTable : Table := { maxL := 0, code := [] }

/-- The machine right after power-on: the "after reset" column of R53. IN, IN_LEN, the parameters and the host's moves are not
the CORE's; their values here are the model's choice (Log 1, 2, 3), as are the latched W, H, B (Log 4). -/
def State.reset : State where
  prm :=
    { pixCap := none
      cntW := 32
      coreBase := 0
      offsets := { cfgWidth := 0, cfgHeight := 4, cfgBpp := 8, ctrl := 12, status := 16, errCode := 20, errByte := 24,
                   errBit := 28, producedR := 32, rowsR := 36 } }
  cfgWidth := 0
  cfgHeight := 0
  cfgBpp := 0
  errCode := .none
  errByte := 0
  errBit := 0
  bytePos := 0
  curByte := 0
  bitCnt := 0
  phase := .idle
  stage := .start
  row := .clear
  bfinal := 0
  btype := 0
  llLens := List.replicate 288 0
  dLens := List.replicate 32 0
  clLens := List.replicate 19 0
  tLL := emptyTable
  tD := emptyTable
  tCL := emptyTable
  hlit := 0
  hdist := 0
  hclen := 0
  lenSeq := List.replicate 320 0
  nlens := 0
  storedRem := 0
  win := []
  wpos := 0
  produced := 0
  latW := 0
  latH := 0
  latB := 0
  y := 0
  rowPos := 0
  curF := .none
  cur := []
  prev := []
  inMem := []
  inLen := 0
  pix := []
  host := []
  rdata := 0

end Sys2Proof.Machine
end

