-- ==== Sys2Proof/Machine/Flags.lean ====
section
/-! DEFINITION. STATUS and the host's view of every register (10_state.md R31 to R39). The CORE has no arithmetic flags and no
condition codes (R43). -/

namespace Sys2Proof.Machine

/-- The 4-bit code of a phase (R36). -/
def Phase.code : Phase → Nat
  | .idle => 0
  | .blockHeader => 1
  | .stored => 2
  | .fixed => 3
  | .dynamic => 4
  | .symbols => 5
  | .finish => 6
  | .complete => 7
  | .error => 8

/-- `BUSY`: PHASE is 1 to 6 (R35). -/
def Phase.busy : Phase → Bool
  | .blockHeader | .stored | .fixed | .dynamic | .symbols | .finish => true
  | .idle | .complete | .error => false

/-- The number of an error code (60_exceptions.md R400). -/
def ErrCode.code : ErrCode → Nat
  | .none => 0
  | .endOfInput => 1
  | .truncatedInput => 2
  | .invalidBlockType => 3
  | .invalidStoredBlock => 4
  | .invalidHuffmanCode => 5
  | .invalidBackReference => 6
  | .invalidFilterType => 7
  | .unsupportedFeature => 8
  | .notAPng => 9
  | .chunkLengthMismatch => 10

/-- `STATUS`: PHASE in bits [3:0], BUSY bit 4, DONE bit 5, ERR bit 6, bits [31:7] zero (R35). -/
def statusWord (s : State) : Nat :=
  s.phase.code + (if s.phase.busy then 16 else 0) + (if s.phase = .complete then 32 else 0)
    + (if s.phase = .error then 64 else 0)

/-- A count register as the bus reads it: mod 2^CNT_W (R39). -/
def countRead (s : State) (n : Nat) : Nat := n % 2 ^ s.prm.cntW

/-- What a host read of a register returns (45_controller.md R331). It changes nothing. -/
def readReg (r : Reg) (s : State) : Nat :=
  match r with
  | .cfgWidth => s.cfgWidth.toNat
  | .cfgHeight => s.cfgHeight.toNat
  | .cfgBpp => s.cfgBpp.toNat
  | .ctrl => 0
  | .status => statusWord s
  | .errCode => s.errCode.code
  | .errByte => countRead s s.errByte
  | .errBit => s.errBit
  | .producedR => countRead s s.produced
  | .rowsR => countRead s s.y

end Sys2Proof.Machine
end

