-- ==== Sys2Proof/Machine/Operands.lean ====
section
/-! DEFINITION. How operands become values: biases, bases, the PERM scatter, the derived configuration values and the register a
bus address names. -/

namespace Sys2Proof.Machine

/-- `HLIT = field + 257`, without truncation (30_encoding.md R108). -/
def hlitValue (f : BitVec 5) : Nat := f.toNat + 257

/-- `HDIST = field + 1` (R108). -/
def hdistValue (f : BitVec 5) : Nat := f.toNat + 1

/-- `HCLEN = field + 4` (R108). -/
def hclenValue (f : BitVec 4) : Nat := f.toNat + 4

/-- A base plus an extra value: the length L (R110), the distance D (R111) or a repeat count (R112). -/
def baseExtra {w : Nat} (base : Nat) (x : BitVec w) : Nat := base + x.toNat

/-- `~LEN` as a 16-bit value (R108, 00_scope.md R8). -/
def complement16 (len : BitVec 16) : BitVec 16 := 0xFFFF - len

/-- `CL_LENS` with `CL_LENS[PERM[k]] <- v` (42_blocks.md R168). -/
def setClLen (lens : List Nat) (k v : Nat) : List Nat := lens.set (clPerm.getD k 0) v

/-- `CL_LENS` from the values read, index `k` on, over what it held (R168). -/
def scatterFrom (lens : List Nat) : Nat → List (BitVec 3) → List Nat
  | _, [] => lens
  | k, v :: vs => scatterFrom (setClLen lens k v.toNat) (k + 1) vs

/-- `CL_LENS` from all the values read: positions not read keep 0 (R168). -/
def scatterClLens (vals : List (BitVec 3)) : List Nat := scatterFrom (List.replicate nCL 0) 0 vals

/-- `ROWLEN = W * B`, of the latched configuration (10_state.md R51). -/
def rowLen (s : State) : Nat := s.latW.toNat * s.latB.toNat

/-- `EXPECTED = H * (1 + ROWLEN)` (R51). -/
def expected (s : State) : Nat := s.latH.toNat * (1 + rowLen s)

/-- A register's offset from `CORE_BASE` (00_scope.md R6). -/
def regOffset (o : RegOffsets) : Reg → Nat
  | .cfgWidth => o.cfgWidth
  | .cfgHeight => o.cfgHeight
  | .cfgBpp => o.cfgBpp
  | .ctrl => o.ctrl
  | .status => o.status
  | .errCode => o.errCode
  | .errByte => o.errByte
  | .errBit => o.errBit
  | .producedR => o.producedR
  | .rowsR => o.rowsR

/-- A register's bus address: `CORE_BASE` plus its offset (10_state.md, before R31). -/
def regAddr (p : Params) (r : Reg) : Nat := p.coreBase + regOffset p.offsets r

/-- The registers in the order of 10_state.md R31 to R39. -/
def allRegs : List Reg :=
  [.cfgWidth, .cfgHeight, .cfgBpp, .ctrl, .status, .errCode, .errByte, .errBit, .producedR, .rowsR]

/-- The register at a bus address, if one is there; the first in the order of R31 to R39 if several are (Log 11). -/
def regAt (p : Params) (a : Nat) : Option Reg := allRegs.find? fun r => regAddr p r == a

/-- The filter type as its filter-type byte (44_defilter.md R301 to R305). -/
def FilterType.byte : FilterType → Byte
  | .none => 0
  | .sub => 1
  | .up => 2
  | .average => 3
  | .paeth => 4

end Sys2Proof.Machine
end

