-- ==== Sys2Proof/Machine/Ops.lean ====
section
/-! DEFINITION. The named operations over memory and registers: byte memories, the bit reader, raising an error, the end of a
block, emitting a byte and reading the window. -/

namespace Sys2Proof.Machine

/-! ## Byte memories -/

/-- The canonical form: addresses strictly rising. An unlisted address holds no value, so no entry can equal one. -/
abbrev Memory.wf (m : Memory) : Prop := List.Pairwise (fun p q => p.1 < q.1) m

/-- The byte at an address, `none` where nothing was written (10_state.md R53). -/
def Memory.read : Memory → Nat → Option Byte
  | [], _ => none
  | (k, v) :: rest, a => if k = a then some v else Memory.read rest a

/-- Write one byte, keeping the addresses rising. -/
def Memory.write : Memory → Nat → Byte → Memory
  | [], a, b => [(a, b)]
  | (k, v) :: rest, a, b =>
    if a < k then (a, b) :: (k, v) :: rest
    else if a = k then (a, b) :: rest
    else (k, v) :: Memory.write rest a b

/-- Write the bytes of a list at consecutive addresses. -/
def Memory.writeList (m : Memory) (a : Nat) : List Byte → Memory
  | [] => m
  | b :: bytes => Memory.writeList (m.write a b) (a + 1) bytes

/-! ## The bit reader (40_bitreader.md) -/

/-- The last lines of `ReadBit`: hand out `CURBYTE[0]` and shift (R130). -/
def takeBit (s : State) : Rd State Bool :=
  .ok (s.curByte.getLsbD 0) { s with curByte := s.curByte >>> 1, bitCnt := s.bitCnt - 1 }

/-- `ReadBit()` (R130): a byte is pulled only when a bit of it is needed; a failing read changes nothing. -/
def readBit (s : State) : Rd State Bool :=
  if s.bitCnt = 0 then
    if s.inLen ≤ s.bytePos then .err .endOfInput s
    else match s.inMem.read s.bytePos with
      | none => .err .inUnwritten s
      | some b => takeBit { s with curByte := b, bytePos := s.bytePos + 1, bitCnt := 8 }
  else takeBit s

/-- `ByteAlign()` (R132). -/
def byteAlign (s : State) : State := { s with curByte := 0, bitCnt := 0 }

/-- A header field goes into its register as soon as it is read (42_blocks.md R167, R168). -/
def latchField (l : Latch) (s : State) : State :=
  match l with
  | .hlit n => { s with hlit := n }
  | .hdist n => { s with hdist := n }
  | .hclen n => { s with hclen := n }
  | .clClear => { s with clLens := List.replicate nCL 0 }
  | .clLen k v => { s with clLens := setClLen s.clLens k v }

/-- The machine as the decoder's source of bits. -/
def stateSource : Source State where
  bit := readBit
  align := byteAlign
  latch := latchField

/-- `BITPOS = 8*BYTEPOS - BITCNT`, the bit cursor (10_state.md R41). -/
def bitPos (s : State) : Nat := 8 * s.bytePos - s.bitCnt

/-! ## Errors (60_exceptions.md) -/

/-- `raise E(byte, bit)` (R411): the error registers and PHASE; everything else keeps its value. What the failed rule carried
is discarded. There is no return from an error (R412): only START and RESET leave ERROR. -/
def raiseAt (e : ErrCode) (byte bit : Nat) (s : State) : State :=
  { s with errCode := e, errByte := byte, errBit := bit, phase := .error, stage := .start, row := .clear }

/-- `raise E(BYTEPOS, BITCNT)`, with the cursor at the check (R411). -/
def raise (e : ErrCode) (s : State) : State := raiseAt e s.bytePos s.bitCnt s

/-- What a rejected read does: the error it raises, or the model's fault. -/
def reject (e : Reject) (s : State) : Host.Outcome State Fault Refusal :=
  match e with
  | .endOfInput => .next (raise .endOfInput s)
  | .noCode => .next (raise .invalidHuffmanCode s)
  | .inUnwritten => .fault .inUnwritten
  | .badSymbol => .fault .badSymbol

/-! ## Blocks, rows and the window -/

/-- `EndOfBlock()` (42_blocks.md R175). -/
def endOfBlock (s : State) : State :=
  { s with phase := if s.bfinal = 1 then .finish else .blockHeader, stage := .start }

/-- `RowAccept(b)` (45_controller.md R323), PRODUCED already counting b. A byte at a filter position, or the last byte of a
row, leaves its filter-type row due as the next step. -/
def rowAccept (b : Byte) (s : State) : State :=
  if expected s < s.produced then s
  else if s.rowPos = 0 then { s with row := .filterByte b }
  else
    { s with
      cur := s.cur.set (s.rowPos - 1) b
      rowPos := s.rowPos + 1
      row := if s.rowPos = rowLen s then .finishRow else .clear }

/-- `Emit(b)` up to its call of `RowAccept` (20_memory.md R88). -/
def pushWindow (b : Byte) (s : State) : State :=
  { s with win := s.win.write s.wpos.toNat b, wpos := s.wpos + 1, produced := s.produced + 1 }

/-- `Emit(b)` (20_memory.md R88). -/
def emit (b : Byte) (s : State) : State := rowAccept b (pushWindow b s)

/-- The window cell `WinRead(d)` reads (20_memory.md R89). -/
def winIndex (d : Nat) (s : State) : Nat := (s.wpos - BitVec.ofNat 15 d).toNat

/-- `WinRead(d)` (R89); `none` for a cell with no value (10_state.md R54). -/
def winRead (d : Nat) (s : State) : Option Byte := s.win.read (winIndex d s)

end Sys2Proof.Machine
end

