-- ==== Sys2Proof/Machine/Blocks.lean ====
section
/-! DEFINITION. Block headers, block types, the stored and dynamic headers and the code-length tokens (42_blocks.md). -/

namespace Sys2Proof.Machine

/-- BLOCK_HEADER (R160): latch BFINAL and BTYPE; the block type's own row is next. -/
def execBlockHeader (f : BitVec 1) (t : BitVec 2) (s : State) : Host.Outcome State Fault Refusal :=
  .next { s with bfinal := f, btype := t, stage := .dispatch }

/-- BTYPE_STORED (R161). -/
def execBtypeStored (s : State) : Host.Outcome State Fault Refusal :=
  .next { s with phase := .stored, stage := .start }

/-- BTYPE_FIXED (R162). -/
def execBtypeFixed (s : State) : Host.Outcome State Fault Refusal :=
  .next { s with phase := .fixed, stage := .start }

/-- BTYPE_DYNAMIC (R163). -/
def execBtypeDynamic (s : State) : Host.Outcome State Fault Refusal :=
  .next { s with phase := .dynamic, stage := .start }

/-- BTYPE_RESERVED (R164). -/
def execBtypeReserved (s : State) : Host.Outcome State Fault Refusal :=
  .next (raise .invalidBlockType s)

/-- STORED_HEADER (R165): NLEN is checked after both fields and before any data byte. LEN = 0 ends the block at once; else
the data bytes follow, one a step. -/
def execStoredHeader (len nlen : BitVec 16) (s : State) : Host.Outcome State Fault Refusal :=
  if nlen = complement16 len then
    if len = 0 then .next (endOfBlock { s with storedRem := 0 })
    else .next { s with storedRem := len.toNat, stage := .raw }
  else .next (raise .invalidStoredBlock s)

/-- DYNAMIC_HEADER (R167). -/
def execDynamicHeader (hlit hdist : BitVec 5) (hclen : BitVec 4) (s : State) : Host.Outcome State Fault Refusal :=
  .next { s with hlit := hlitValue hlit, hdist := hdistValue hdist, hclen := hclenValue hclen, stage := .clLengths }

/-- CL_CODE_LENGTHS (R168). -/
def execClCodeLengths (vals : List (BitVec 3)) (s : State) : Host.Outcome State Fault Refusal :=
  .next { s with clLens := scatterClLens vals, stage := .clBuild }

/-- `LENSEQ[NLENS] <- v; NLENS <- NLENS + 1` (R170). -/
def pushLen (v : Nat) (s : State) : State := { s with lenSeq := s.lenSeq.set s.nlens v, nlens := s.nlens + 1 }

/-- The same, `n` times (R171). -/
def pushLens : Nat → Nat → State → State
  | 0, _, s => s
  | n + 1, v, s => pushLens n v (pushLen v s)

/-- A run of `r` lengths `v`: refused as corrupt data when it would pass HLIT + HDIST entries (R171 to R173). -/
def runLens (r v : Nat) (s : State) : Host.Outcome State Fault Refusal :=
  if s.hlit + s.hdist < s.nlens + r then .next (raise .invalidHuffmanCode s)
  else .next (pushLens r v s)

/-- `LENSEQ[NLENS - 1]`, the previous length (R171). -/
def prevLen (s : State) : Nat := s.lenSeq.getD (s.nlens - 1) 0

/-- CL_LIT (R170). -/
def execClLit (n : BitVec 4) (s : State) : Host.Outcome State Fault Refusal :=
  .next (pushLen n.toNat s)

/-- CL_REP (R171): with no previous length it raises before anything else. -/
def execClRep (x : BitVec 2) (s : State) : Host.Outcome State Fault Refusal :=
  if s.nlens = 0 then .next (raise .invalidHuffmanCode s)
  else runLens (baseExtra 3 x) (prevLen s) s

/-- CL_Z3 (R172). -/
def execClZ3 (x : BitVec 3) (s : State) : Host.Outcome State Fault Refusal :=
  runLens (baseExtra 3 x) 0 s

/-- CL_Z11 (R173). -/
def execClZ11 (x : BitVec 7) (s : State) : Host.Outcome State Fault Refusal :=
  runLens (baseExtra 11 x) 0 s

end Sys2Proof.Machine
end

