-- ==== Sys2Proof/Machine/Filters.lean ====
section
/-! DEFINITION. The filter types and the rows they reconstruct (44_defilter.md; FinishRow, 45_controller.md R324). -/

namespace Sys2Proof.Machine

/-- `Pred_0` (44_defilter.md R301). -/
def predNone (_ _ _ : Nat) : Nat := 0

/-- `Pred_1` (R302). -/
def predSub (a _ _ : Nat) : Nat := a

/-- `Pred_2` (R303). -/
def predUp (_ b _ : Nat) : Nat := b

/-- `Pred_3` (R304): the sum is not truncated. -/
def predAverage (a b _ : Nat) : Nat := (a + b) / 2

/-- `Pred_4` (R305): p and the distances are signed integers with no wrap; ties go to a, then b. -/
def predPaeth (a b c : Nat) : Nat :=
  let p : Int := (a : Int) + b - c
  let pa := (p - a).natAbs
  let pb := (p - b).natAbs
  let pc := (p - c).natAbs
  if pa ≤ pb ∧ pa ≤ pc then a
  else if pb ≤ pc then b
  else c

/-- The reconstructed byte at the index after `done`: the filtered byte `x` plus the predictor of its three neighbours,
modulo 256 (R300, R307). -/
def defilterByte (pred : Nat → Nat → Nat → Nat) (bpp : Nat) (prev : List Byte) (done : List Byte) (x : Byte) : Byte :=
  let i := done.length
  let a := if bpp ≤ i then (done.getD (i - bpp) 0).toNat else 0
  let b := (prev.getD i 0).toNat
  let c := if bpp ≤ i then (prev.getD (i - bpp) 0).toNat else 0
  BitVec.ofNat 8 (x.toNat + pred a b c)

/-- The loop of `Defilter`, in increasing index order (R300). -/
def defilterFrom (pred : Nat → Nat → Nat → Nat) (bpp : Nat) (prev : List Byte) : List Byte → List Byte → List Byte
  | done, [] => done
  | done, x :: cur => defilterFrom pred bpp prev (done ++ [defilterByte pred bpp prev done x]) cur

/-- `Defilter(f, CUR, PREV, B)` for the predictor of f (R300). -/
def defilter (pred : Nat → Nat → Nat → Nat) (cur prev : List Byte) (bpp : Nat) : List Byte :=
  defilterFrom pred bpp prev [] cur

/-- The row `Defilter` gives for the row assembled in State. -/
def rebuiltRow (pred : Nat → Nat → Nat → Nat) (s : State) : List Byte := defilter pred s.cur s.prev s.latB.toNat

/-- `FinishRow()` (45_controller.md R324): reconstruct the row, store it in PIX and make it the previous row. -/
def finishRow (pred : Nat → Nat → Nat → Nat) (s : State) : Host.Outcome State Fault Refusal :=
  if s.y < s.latH.toNat then
    .next { s with
      pix := s.pix.writeList (s.y * rowLen s) (rebuiltRow pred s)
      prev := rebuiltRow pred s
      cur := List.replicate (rowLen s) 0
      rowPos := 0
      y := s.y + 1
      row := .clear }
  else .fault .pixOutOfRange

/-- The filter-type byte is accepted: `CURF <- b; ROWPOS <- 1` (45_controller.md R323). -/
def acceptFilter (f : FilterType) (s : State) : State := { s with curF := f, rowPos := 1, row := .clear }

/-- A filter type acts twice on its row: it is accepted when its byte is emitted (45_controller.md R323), and it reconstructs
the row when the row's last byte has arrived (R324). `row` says which is due. -/
def filterRow (f : FilterType) (pred : Nat → Nat → Nat → Nat) (s : State) : Host.Outcome State Fault Refusal :=
  if s.row = .finishRow then finishRow pred s else .next (acceptFilter f s)

/-- The instruction of a filter type (30_encoding.md R113). -/
def FilterType.instr : FilterType → Instr
  | .none => .filterNone
  | .sub => .filterSub
  | .up => .filterUp
  | .average => .filterAverage
  | .paeth => .filterPaeth

/-- FILTER_NONE (R301). -/
def execFilterNone (s : State) : Host.Outcome State Fault Refusal := filterRow .none predNone s

/-- FILTER_SUB (R302). -/
def execFilterSub (s : State) : Host.Outcome State Fault Refusal := filterRow .sub predSub s

/-- FILTER_UP (R303). -/
def execFilterUp (s : State) : Host.Outcome State Fault Refusal := filterRow .up predUp s

/-- FILTER_AVERAGE (R304). -/
def execFilterAverage (s : State) : Host.Outcome State Fault Refusal := filterRow .average predAverage s

/-- FILTER_PAETH (R305). -/
def execFilterPaeth (s : State) : Host.Outcome State Fault Refusal := filterRow .paeth predPaeth s

/-- FILTER_INVALID, byte 0x05 (R306): CURF is not written. -/
def execFilterInvalid05 (s : State) : Host.Outcome State Fault Refusal := .next (raise .invalidFilterType s)

/-- FILTER_INVALID, bytes 0x06 to 0x07 (R306). -/
def execFilterInvalid06 (_ : BitVec 1) (s : State) : Host.Outcome State Fault Refusal := .next (raise .invalidFilterType s)

/-- FILTER_INVALID, bytes 0x08 to 0x0F (R306). -/
def execFilterInvalid08 (_ : BitVec 3) (s : State) : Host.Outcome State Fault Refusal := .next (raise .invalidFilterType s)

/-- FILTER_INVALID, bytes 0x10 to 0x1F (R306). -/
def execFilterInvalid10 (_ : BitVec 4) (s : State) : Host.Outcome State Fault Refusal := .next (raise .invalidFilterType s)

/-- FILTER_INVALID, bytes 0x20 to 0x3F (R306). -/
def execFilterInvalid20 (_ : BitVec 5) (s : State) : Host.Outcome State Fault Refusal := .next (raise .invalidFilterType s)

/-- FILTER_INVALID, bytes 0x40 to 0x7F (R306). -/
def execFilterInvalid40 (_ : BitVec 6) (s : State) : Host.Outcome State Fault Refusal := .next (raise .invalidFilterType s)

/-- FILTER_INVALID, bytes 0x80 to 0xFF (R306). -/
def execFilterInvalid80 (_ : BitVec 7) (s : State) : Host.Outcome State Fault Refusal := .next (raise .invalidFilterType s)

end Sys2Proof.Machine
end

