-- ==== Sys2Proof/Machine/Symbols.lean ====
section
/-! DEFINITION. Literal, end-of-block, length and distance symbols, and the copy through the window (43_symbols_lz77.md). -/

namespace Sys2Proof.Machine

/-- The length L of the back-reference whose distance token is being executed (R203). -/
def pendingLen (s : State) : Nat :=
  match s.stage with
  | .dist l => l
  | .start | .dispatch | .raw | .rawNext | .clLengths | .clBuild | .clTokens | .copy _ _ => 0

/-- A length symbol with its extra bits: L is known, the distance token is next (R203). -/
def lengthToken (l : Nat) (s : State) : Host.Outcome State Fault Refusal := .next { s with stage := .dist l }

/-- A distance symbol with its extra bits: the bound `D <= PRODUCED` is checked before any byte is copied (R268), then the
copy of R269 begins, one byte a step. -/
def distToken (d : Nat) (s : State) : Host.Outcome State Fault Refusal :=
  if s.produced < d then .next (raise .invalidBackReference s)
  else .next { s with stage := .copy (pendingLen s) d }

/-- One iteration of `Copy(L, D)` (R269): `Emit(WinRead(D))`. -/
def copyByte (s : State) : Host.Outcome State Fault Refusal :=
  match s.stage with
  | .copy (left + 1) d =>
    match winRead d s with
    | some b => .next (emit b { s with stage := if left = 0 then .start else .copy left d })
    | none => .fault .winUnwritten
  | .start | .dispatch | .raw | .rawNext | .clLengths | .clBuild | .clTokens | .dist _ | .copy 0 _ =>
    .next { s with stage := .start }

/-- LIT (R201). -/
def execLit (v : BitVec 8) (s : State) : Host.Outcome State Fault Refusal := .next (emit v s)

/-- EOB (R202). -/
def execEob (s : State) : Host.Outcome State Fault Refusal := .next (endOfBlock s)

/-- LEN257: L = 3 (R204). -/
def execLen257 (s : State) : Host.Outcome State Fault Refusal := lengthToken 3 s

/-- LEN258: L = 4 (R205). -/
def execLen258 (s : State) : Host.Outcome State Fault Refusal := lengthToken 4 s

/-- LEN259: L = 5 (R206). -/
def execLen259 (s : State) : Host.Outcome State Fault Refusal := lengthToken 5 s

/-- LEN260: L = 6 (R207). -/
def execLen260 (s : State) : Host.Outcome State Fault Refusal := lengthToken 6 s

/-- LEN261: L = 7 (R208). -/
def execLen261 (s : State) : Host.Outcome State Fault Refusal := lengthToken 7 s

/-- LEN262: L = 8 (R209). -/
def execLen262 (s : State) : Host.Outcome State Fault Refusal := lengthToken 8 s

/-- LEN263: L = 9 (R210). -/
def execLen263 (s : State) : Host.Outcome State Fault Refusal := lengthToken 9 s

/-- LEN264: L = 10 (R211). -/
def execLen264 (s : State) : Host.Outcome State Fault Refusal := lengthToken 10 s

/-- LEN265: L = 11 to 12 (R212). -/
def execLen265 (x : BitVec 1) (s : State) : Host.Outcome State Fault Refusal := lengthToken (baseExtra 11 x) s

/-- LEN266: L = 13 to 14 (R213). -/
def execLen266 (x : BitVec 1) (s : State) : Host.Outcome State Fault Refusal := lengthToken (baseExtra 13 x) s

/-- LEN267: L = 15 to 16 (R214). -/
def execLen267 (x : BitVec 1) (s : State) : Host.Outcome State Fault Refusal := lengthToken (baseExtra 15 x) s

/-- LEN268: L = 17 to 18 (R215). -/
def execLen268 (x : BitVec 1) (s : State) : Host.Outcome State Fault Refusal := lengthToken (baseExtra 17 x) s

/-- LEN269: L = 19 to 22 (R216). -/
def execLen269 (x : BitVec 2) (s : State) : Host.Outcome State Fault Refusal := lengthToken (baseExtra 19 x) s

/-- LEN270: L = 23 to 26 (R217). -/
def execLen270 (x : BitVec 2) (s : State) : Host.Outcome State Fault Refusal := lengthToken (baseExtra 23 x) s

/-- LEN271: L = 27 to 30 (R218). -/
def execLen271 (x : BitVec 2) (s : State) : Host.Outcome State Fault Refusal := lengthToken (baseExtra 27 x) s

/-- LEN272: L = 31 to 34 (R219). -/
def execLen272 (x : BitVec 2) (s : State) : Host.Outcome State Fault Refusal := lengthToken (baseExtra 31 x) s

/-- LEN273: L = 35 to 42 (R220). -/
def execLen273 (x : BitVec 3) (s : State) : Host.Outcome State Fault Refusal := lengthToken (baseExtra 35 x) s

/-- LEN274: L = 43 to 50 (R221). -/
def execLen274 (x : BitVec 3) (s : State) : Host.Outcome State Fault Refusal := lengthToken (baseExtra 43 x) s

/-- LEN275: L = 51 to 58 (R222). -/
def execLen275 (x : BitVec 3) (s : State) : Host.Outcome State Fault Refusal := lengthToken (baseExtra 51 x) s

/-- LEN276: L = 59 to 66 (R223). -/
def execLen276 (x : BitVec 3) (s : State) : Host.Outcome State Fault Refusal := lengthToken (baseExtra 59 x) s

/-- LEN277: L = 67 to 82 (R224). -/
def execLen277 (x : BitVec 4) (s : State) : Host.Outcome State Fault Refusal := lengthToken (baseExtra 67 x) s

/-- LEN278: L = 83 to 98 (R225). -/
def execLen278 (x : BitVec 4) (s : State) : Host.Outcome State Fault Refusal := lengthToken (baseExtra 83 x) s

/-- LEN279: L = 99 to 114 (R226). -/
def execLen279 (x : BitVec 4) (s : State) : Host.Outcome State Fault Refusal := lengthToken (baseExtra 99 x) s

/-- LEN280: L = 115 to 130 (R227). -/
def execLen280 (x : BitVec 4) (s : State) : Host.Outcome State Fault Refusal := lengthToken (baseExtra 115 x) s

/-- LEN281: L = 131 to 162 (R228). -/
def execLen281 (x : BitVec 5) (s : State) : Host.Outcome State Fault Refusal := lengthToken (baseExtra 131 x) s

/-- LEN282: L = 163 to 194 (R229). -/
def execLen282 (x : BitVec 5) (s : State) : Host.Outcome State Fault Refusal := lengthToken (baseExtra 163 x) s

/-- LEN283: L = 195 to 226 (R230). -/
def execLen283 (x : BitVec 5) (s : State) : Host.Outcome State Fault Refusal := lengthToken (baseExtra 195 x) s

/-- LEN284: L = 227 to 258 (R231). -/
def execLen284 (x : BitVec 5) (s : State) : Host.Outcome State Fault Refusal := lengthToken (baseExtra 227 x) s

/-- LEN285: L = 258 (R232). -/
def execLen285 (s : State) : Host.Outcome State Fault Refusal := lengthToken 258 s

/-- LL286_INVALID (R233). -/
def execLl286Invalid (s : State) : Host.Outcome State Fault Refusal := .next (raise .invalidBackReference s)

/-- LL287_INVALID (R234). -/
def execLl287Invalid (s : State) : Host.Outcome State Fault Refusal := .next (raise .invalidBackReference s)

/-- DIST0: D = 1 (R236). -/
def execDist0 (s : State) : Host.Outcome State Fault Refusal := distToken 1 s

/-- DIST1: D = 2 (R237). -/
def execDist1 (s : State) : Host.Outcome State Fault Refusal := distToken 2 s

/-- DIST2: D = 3 (R238). -/
def execDist2 (s : State) : Host.Outcome State Fault Refusal := distToken 3 s

/-- DIST3: D = 4 (R239). -/
def execDist3 (s : State) : Host.Outcome State Fault Refusal := distToken 4 s

/-- DIST4: D = 5 to 6 (R240). -/
def execDist4 (x : BitVec 1) (s : State) : Host.Outcome State Fault Refusal := distToken (baseExtra 5 x) s

/-- DIST5: D = 7 to 8 (R241). -/
def execDist5 (x : BitVec 1) (s : State) : Host.Outcome State Fault Refusal := distToken (baseExtra 7 x) s

/-- DIST6: D = 9 to 12 (R242). -/
def execDist6 (x : BitVec 2) (s : State) : Host.Outcome State Fault Refusal := distToken (baseExtra 9 x) s

/-- DIST7: D = 13 to 16 (R243). -/
def execDist7 (x : BitVec 2) (s : State) : Host.Outcome State Fault Refusal := distToken (baseExtra 13 x) s

/-- DIST8: D = 17 to 24 (R244). -/
def execDist8 (x : BitVec 3) (s : State) : Host.Outcome State Fault Refusal := distToken (baseExtra 17 x) s

/-- DIST9: D = 25 to 32 (R245). -/
def execDist9 (x : BitVec 3) (s : State) : Host.Outcome State Fault Refusal := distToken (baseExtra 25 x) s

/-- DIST10: D = 33 to 48 (R246). -/
def execDist10 (x : BitVec 4) (s : State) : Host.Outcome State Fault Refusal := distToken (baseExtra 33 x) s

/-- DIST11: D = 49 to 64 (R247). -/
def execDist11 (x : BitVec 4) (s : State) : Host.Outcome State Fault Refusal := distToken (baseExtra 49 x) s

/-- DIST12: D = 65 to 96 (R248). -/
def execDist12 (x : BitVec 5) (s : State) : Host.Outcome State Fault Refusal := distToken (baseExtra 65 x) s

/-- DIST13: D = 97 to 128 (R249). -/
def execDist13 (x : BitVec 5) (s : State) : Host.Outcome State Fault Refusal := distToken (baseExtra 97 x) s

/-- DIST14: D = 129 to 192 (R250). -/
def execDist14 (x : BitVec 6) (s : State) : Host.Outcome State Fault Refusal := distToken (baseExtra 129 x) s

/-- DIST15: D = 193 to 256 (R251). -/
def execDist15 (x : BitVec 6) (s : State) : Host.Outcome State Fault Refusal := distToken (baseExtra 193 x) s

/-- DIST16: D = 257 to 384 (R252). -/
def execDist16 (x : BitVec 7) (s : State) : Host.Outcome State Fault Refusal := distToken (baseExtra 257 x) s

/-- DIST17: D = 385 to 512 (R253). -/
def execDist17 (x : BitVec 7) (s : State) : Host.Outcome State Fault Refusal := distToken (baseExtra 385 x) s

/-- DIST18: D = 513 to 768 (R254). -/
def execDist18 (x : BitVec 8) (s : State) : Host.Outcome State Fault Refusal := distToken (baseExtra 513 x) s

/-- DIST19: D = 769 to 1024 (R255). -/
def execDist19 (x : BitVec 8) (s : State) : Host.Outcome State Fault Refusal := distToken (baseExtra 769 x) s

/-- DIST20: D = 1025 to 1536 (R256). -/
def execDist20 (x : BitVec 9) (s : State) : Host.Outcome State Fault Refusal := distToken (baseExtra 1025 x) s

/-- DIST21: D = 1537 to 2048 (R257). -/
def execDist21 (x : BitVec 9) (s : State) : Host.Outcome State Fault Refusal := distToken (baseExtra 1537 x) s

/-- DIST22: D = 2049 to 3072 (R258). -/
def execDist22 (x : BitVec 10) (s : State) : Host.Outcome State Fault Refusal := distToken (baseExtra 2049 x) s

/-- DIST23: D = 3073 to 4096 (R259). -/
def execDist23 (x : BitVec 10) (s : State) : Host.Outcome State Fault Refusal := distToken (baseExtra 3073 x) s

/-- DIST24: D = 4097 to 6144 (R260). -/
def execDist24 (x : BitVec 11) (s : State) : Host.Outcome State Fault Refusal := distToken (baseExtra 4097 x) s

/-- DIST25: D = 6145 to 8192 (R261). -/
def execDist25 (x : BitVec 11) (s : State) : Host.Outcome State Fault Refusal := distToken (baseExtra 6145 x) s

/-- DIST26: D = 8193 to 12288 (R262). -/
def execDist26 (x : BitVec 12) (s : State) : Host.Outcome State Fault Refusal := distToken (baseExtra 8193 x) s

/-- DIST27: D = 12289 to 16384 (R263). -/
def execDist27 (x : BitVec 12) (s : State) : Host.Outcome State Fault Refusal := distToken (baseExtra 12289 x) s

/-- DIST28: D = 16385 to 24576 (R264). -/
def execDist28 (x : BitVec 13) (s : State) : Host.Outcome State Fault Refusal := distToken (baseExtra 16385 x) s

/-- DIST29: D = 24577 to 32768 (R265). -/
def execDist29 (x : BitVec 13) (s : State) : Host.Outcome State Fault Refusal := distToken (baseExtra 24577 x) s

/-- DIST30_INVALID (R266). -/
def execDist30Invalid (s : State) : Host.Outcome State Fault Refusal := .next (raise .invalidBackReference s)

/-- DIST31_INVALID (R267). -/
def execDist31Invalid (s : State) : Host.Outcome State Fault Refusal := .next (raise .invalidBackReference s)

end Sys2Proof.Machine
end

