-- ==== Sys2Proof/Machine/HostPort.lean ====
section
/-! DEFINITION. The host's moves: register writes and reads, START, RESET, IN and PIX (10_state.md R31 to R39, 45_controller.md
R320 to R322 and R333, 70_reset_and_hazards.md R450). -/

namespace Sys2Proof.Machine

/-- `Reset()` (70_reset_and_hazards.md R450): every piece of CORE state to its reset value. IN is host memory and stays, as do
the parameters and the host's own fields. -/
def resetCore (s : State) : State :=
  { State.reset with prm := s.prm, inMem := s.inMem, inLen := s.inLen, host := s.host, rdata := s.rdata }

/-- `n <= PIX_CAP` (45_controller.md R321). -/
def pixFits (cap : Option Nat) (n : Nat) : Bool :=
  match cap with
  | none => true
  | some c => decide (n ≤ c)

/-- The condition under which `CheckConfig()` raises nothing (R321): W*H*B is an unbounded natural. -/
def configOk (s : State) : Bool :=
  decide (s.cfgWidth ≠ 0) && decide (s.cfgHeight ≠ 0) && decide (1 ≤ s.cfgBpp.toNat) && decide (s.cfgBpp.toNat ≤ 4)
    && pixFits s.prm.pixCap (s.cfgWidth.toNat * s.cfgHeight.toNat * s.cfgBpp.toNat)

/-- `StartDecode()` (R322): the "at START" column of 10_state.md R53, with W, H and B latched. -/
def startDecode (s : State) : State :=
  { resetCore s with
    cfgWidth := s.cfgWidth
    cfgHeight := s.cfgHeight
    cfgBpp := s.cfgBpp
    latW := s.cfgWidth
    latH := s.cfgHeight
    latB := s.cfgBpp
    cur := List.replicate (s.cfgWidth.toNat * s.cfgBpp.toNat) 0
    prev := List.replicate (s.cfgWidth.toNat * s.cfgBpp.toNat) 0
    phase := .blockHeader }

/-- START while not BUSY (R320): the check, which on failure writes the error state only (R321), then the fresh decode. -/
def start (s : State) : State :=
  if configOk s then startDecode s else raiseAt .unsupportedFeature 0 0 s

/-- A write to CTRL (10_state.md R34): RESET wins over START, START is ignored while BUSY, bits [31:2] are ignored. -/
def writeCtrl (v : Reg32) (s : State) : State :=
  if v.getLsbD 1 then resetCore s
  else if v.getLsbD 0 then (if s.phase.busy then s else start s)
  else s

/-- A host register write: a CFG write while BUSY and a write to a read-only register change nothing (R31 to R39,
60_exceptions.md R415). -/
def writeReg (r : Reg) (v : Reg32) (s : State) : State :=
  match r with
  | .cfgWidth => if s.phase.busy then s else { s with cfgWidth := v }
  | .cfgHeight => if s.phase.busy then s else { s with cfgHeight := v }
  | .cfgBpp => if s.phase.busy then s else { s with cfgBpp := v.setWidth 3 }
  | .ctrl => writeCtrl v s
  | .status | .errCode | .errByte | .errBit | .producedR | .rowsR => s

/-- A host read of a byte of PIX: it has a value only in COMPLETE (45_controller.md R327, 60_exceptions.md R418). -/
def hostReadPix (a : Nat) (s : State) : Host.Outcome State Fault Refusal :=
  if s.phase = .complete then
    match s.pix.read a with
    | some b => .next { s with rdata := b.toNat }
    | none => .fault .pixNotReadable
  else .fault .pixNotReadable

/-- A host access at a bus address, of the register that is there (00_scope.md R6; Log 11). -/
def atRegister (a : Nat) (access : Reg → State → State) (s : State) : Host.Outcome State Fault Refusal :=
  match regAt s.prm a with
  | some r => .next (access r s)
  | none => .refused .noRegister

/-- A host register read: the value goes to the host's own record (45_controller.md R331; Log 1). -/
def hostReadReg (r : Reg) (s : State) : State := { s with rdata := readReg r s }

/-- One host move (45_controller.md R333). IN and IN_LEN are the host's only while not BUSY (20_memory.md R86). -/
def hostMove (m : HostMove) (s : State) : Host.Outcome State Fault Refusal :=
  match m with
  | .writeReg r v => .next (writeReg r v s)
  | .readReg r => .next (hostReadReg r s)
  | .busWrite a v => atRegister a (fun r => writeReg r v) s
  | .busRead a => atRegister a hostReadReg s
  | .writeIn a b => if s.phase.busy then .refused .hostWriteWhileBusy else .next { s with inMem := s.inMem.write a b }
  | .setInLen n => if s.phase.busy then .refused .hostWriteWhileBusy else .next { s with inLen := n }
  | .readPix a => hostReadPix a s

end Sys2Proof.Machine
end

