-- ==== Sys2Proof/Machine/Sequencer.lean ====
section
/-! DEFINITION. What comes next (45_controller.md R329): a token to fetch, an instruction already selected, or one of the rules
that read no token. -/

namespace Sys2Proof.Machine

/-- The rules the machine executes between tokens. -/
inductive Micro where
  /-- FIXED: select the fixed tables (42_blocks.md R166). -/
  | selectFixed
  /-- DYNAMIC: build `T_CL` and clear NLENS (R169). -/
  | buildCl
  /-- DYNAMIC: split LENSEQ and build the two tables (R174). -/
  | buildTables
  /-- STORED: read and emit one data byte (R165). -/
  | rawByte
  /-- STORED: count the byte, and end the block after the last (R165). -/
  | rawNext
  /-- SYMBOLS: one iteration of the copy (43_symbols_lz77.md R269). -/
  | copyByte
  /-- FINISH: the completion check (45_controller.md R326). -/
  | finish
  deriving DecidableEq, Repr

/-- What the next step of the CORE does. -/
inductive Op where
  /-- IDLE, COMPLETE and ERROR execute nothing (R329). -/
  | idle
  /-- An instruction that is already selected: a block type, or a filter-type row. -/
  | run (i : Instr)
  /-- A token to be read from the stream. -/
  | fetch (c : Ctx)
  | micro (m : Micro)
  deriving DecidableEq, Repr

/-- The part of the current phase's rule that is next (R329). -/
def phaseOp (s : State) : Op :=
  match s.phase with
  | .idle | .complete | .error => .idle
  | .blockHeader =>
    match s.stage with
    | .dispatch => .run (btypeInstr s.btype)
    | .start | .raw | .rawNext | .clLengths | .clBuild | .clTokens | .dist _ | .copy _ _ => .fetch .blockHeader
  | .stored =>
    match s.stage with
    | .raw => .micro .rawByte
    | .rawNext => .micro .rawNext
    | .start | .dispatch | .clLengths | .clBuild | .clTokens | .dist _ | .copy _ _ => .fetch .stored
  | .fixed => .micro .selectFixed
  | .dynamic =>
    match s.stage with
    | .clLengths => .fetch (.clLengths s.hclen)
    | .clBuild => .micro .buildCl
    | .clTokens =>
      if s.nlens < s.hlit + s.hdist then .fetch (.cl s.tCL (decide (s.nlens ≠ 0))) else .micro .buildTables
    | .start | .dispatch | .raw | .rawNext | .dist _ | .copy _ _ => .fetch .dynamic
  | .symbols =>
    match s.stage with
    | .dist _ => .fetch (.dist s.tD)
    | .copy _ _ => .micro .copyByte
    | .start | .dispatch | .raw | .rawNext | .clLengths | .clBuild | .clTokens => .fetch (.ll s.tLL)
  | .finish => .micro .finish

/-- What the next step does: a filter-type row that is due comes before anything else, since it is the end of an `Emit`
(20_memory.md R88, 45_controller.md R323). -/
def nextOp (s : State) : Op :=
  if s.phase.busy then
    match s.row with
    | .filterByte b => .run (filterInstr b)
    | .finishRow => .run s.curF.instr
    | .clear => phaseOp s
  else .idle

/-- Read one token with the machine's own bit reader. -/
def fetch (c : Ctx) (s : State) : Rd State Instr := decode stateSource c s

/-- FIXED (42_blocks.md R166): LL_LENS and D_LENS are unchanged. -/
def selectFixed (s : State) : State := { s with tLL := fixedLL, tD := fixedD, phase := .symbols, stage := .start }

/-- The first two lines of R169. -/
def buildCl (s : State) : State := { s with tCL := build s.clLens, nlens := 0, stage := .clTokens }

/-- `LL_LENS` from LENSEQ (42_blocks.md R174). -/
def splitLL (s : State) : List Nat := s.lenSeq.take s.hlit ++ List.replicate (nLL - s.hlit) 0

/-- `D_LENS` from LENSEQ (R174). -/
def splitD (s : State) : List Nat := (s.lenSeq.drop s.hlit).take s.hdist ++ List.replicate (nD - s.hdist) 0

/-- R174. -/
def buildTables (s : State) : State :=
  { s with
    llLens := splitLL s
    dLens := splitD s
    tLL := build (splitLL s)
    tD := build (splitD s)
    phase := .symbols
    stage := .start }

/-- One data byte of a stored block: read and emitted (42_blocks.md R165). It is counted after its `Emit` is complete. -/
def rawByte (s : State) : Host.Outcome State Fault Refusal :=
  match readBits stateSource 8 s with
  | .ok b t => .next (emit (BitVec.ofNat 8 b) { t with stage := .rawNext })
  | .err e t => reject e t

/-- `STOREDREM <- STOREDREM - 1`, then the next data byte or the end of the block (R165). -/
def rawNext (s : State) : State :=
  if s.storedRem ≤ 1 then endOfBlock { s with storedRem := s.storedRem - 1 }
  else { s with storedRem := s.storedRem - 1, stage := .raw }

/-- FINISH (45_controller.md R326). -/
def finishDecode (s : State) : State :=
  if s.produced < expected s then raise .truncatedInput s else { s with phase := .complete, stage := .start }

/-- One of the rules between tokens. -/
def microStep (m : Micro) (s : State) : Host.Outcome State Fault Refusal :=
  match m with
  | .selectFixed => .next (selectFixed s)
  | .buildCl => .next (buildCl s)
  | .buildTables => .next (buildTables s)
  | .rawByte => rawByte s
  | .rawNext => .next (rawNext s)
  | .copyByte => copyByte s
  | .finish => .next (finishDecode s)

/-! ## Placing a token by hand -/

/-- Bits in read order, packed into bytes, the last byte filled with zeros (20_memory.md R74). -/
def packBits : List Bool → List Byte
  | b0 :: b1 :: b2 :: b3 :: b4 :: b5 :: b6 :: b7 :: rest =>
    BitVec.ofNat 8 (b0.toNat + 2 * b1.toNat + 4 * b2.toNat + 8 * b3.toNat + 16 * b4.toNat + 32 * b5.toNat + 64 * b6.toNat
      + 128 * b7.toNat) :: packBits rest
  | [] => []
  | bits => [BitVec.ofNat 8 (bits.foldr (fun b v => b.toNat + 2 * v) 0)]

/-- IN holding exactly these bits, with the cursor before the first. -/
def presentBits (bits : List Bool) (s : State) : State :=
  { s with
    inMem := Memory.writeList [] 0 (packBits bits)
    inLen := (packBits bits).length
    bytePos := 0
    curByte := 0
    bitCnt := 0 }

/-- The phase, stage and table that make the next step read a token of this kind. -/
def expectToken (c : Ctx) (bits : List Bool) (s : State) : State :=
  match c with
  | .blockHeader => { s with phase := .blockHeader, stage := .start, row := .clear }
  | .btype => { s with phase := .blockHeader, stage := .dispatch, row := .clear }
  | .stored => { s with phase := .stored, stage := .start, row := .clear }
  | .dynamic => { s with phase := .dynamic, stage := .start, row := .clear }
  | .clLengths n => { s with phase := .dynamic, stage := .clLengths, hclen := n, row := .clear }
  | .cl T _ => { s with phase := .dynamic, stage := .clTokens, tCL := T, nlens := 0, hlit := 257, hdist := 1, row := .clear }
  | .ll T => { s with phase := .symbols, stage := .start, tLL := T, row := .clear }
  | .dist T => { s with phase := .symbols, stage := .dist 3, tD := T, row := .clear }
  | .filter => { s with phase := .symbols, row := .filterByte ((packBits bits).getD 0 0) }

/-- The state with a word of the opcode table as the very next token, and no host move before it (Log 6, 7). -/
def placeTableWord (s : State) (nbits w : Nat) : State :=
  match tableToken nbits w with
  | none => s
  | some (c, bits) => expectToken c bits (presentBits bits { s with host := [] })

end Sys2Proof.Machine
end

