-- ==== Sys2Proof/Machine/Run.lean ====
section
/-! DEFINITION. One step of the CORE, and whose turn it is. -/

namespace Sys2Proof.Machine

/-- One step of the CORE: the instruction that is selected or fetched is executed; a read that fails raises its error. -/
def coreStep (s : State) : Host.Outcome State Fault Refusal :=
  match nextOp s with
  | .idle => .next s
  | .run i => exec i s
  | .micro m => microStep m s
  | .fetch c =>
    match fetch c s with
    | .ok i t => exec i t
    | .err e t => reject e t

/-- The host acts when its next move is due, between two rule applications (45_controller.md R331, 60_exceptions.md R414);
else the CORE does. -/
def agentStep (s : State) : Host.Outcome State Fault Refusal :=
  match s.host with
  | [] => coreStep s
  | ⟨0, m⟩ :: rest => hostMove m { s with host := rest }
  | ⟨n + 1, m⟩ :: rest => coreStep { s with host := ⟨n, m⟩ :: rest }

end Sys2Proof.Machine
end

