-- ==== Sys2Proof/Safety.lean ====
section
/-! DEFINITION. What a safe run keeps: the invariants of the machine, each from a rule of the spec, and the notions the
statements are made of. -/

namespace Sys2Proof

/-! ## Codes -/

/-- `Σ 2^-lens[s]` over the used symbols, in units of `2^-MAXL` (41_huffman.md R148). -/
def kraftSum (lens : List Nat) : Nat := (lens.map fun l => if l = 0 then 0 else 2 ^ (maxLen lens - l)).sum

/-- The Kraft sum is at most 1 (R148). -/
def KraftOk (lens : List Nat) : Prop := kraftSum lens ≤ 2 ^ maxLen lens

/-- Every code fits its length, and no code is a prefix of another (R148). -/
structure PrefixFree (T : Table) : Prop where
  fits : ∀ e ∈ T.code, 1 ≤ e.len ∧ e.len ≤ T.maxL ∧ e.val < 2 ^ e.len
  noPrefix : ∀ e ∈ T.code, ∀ f ∈ T.code, bitsMsb e.len e.val <+: bitsMsb f.len f.val → e = f

/-- The three tables of a stream are prefix-free. -/
structure Codes.PrefixFree (k : Codes) : Prop where
  ll : Sys2Proof.PrefixFree k.ll
  dist : Sys2Proof.PrefixFree k.dist
  cl : Sys2Proof.PrefixFree k.cl

/-- A table whose symbols are below `n`. -/
def Table.symbolsBelow (T : Table) (n : Nat) : Prop := ∀ e ∈ T.code, e.sym < n

namespace Machine

/-! ## The input as bits -/

/-- The bits of IN not yet consumed, in read order: what is left of CURBYTE, then the bytes from BYTEPOS on. A byte that was
never written counts as 0 here; a statement that uses it asks for `InWritten`. -/
def pendingBits (s : State) : List Bool :=
  bitsLsb s.bitCnt s.curByte.toNat
    ++ (List.range (s.inLen - s.bytePos)).flatMap fun k => bitsLsb 8 ((s.inMem.read (s.bytePos + k)).getD 0).toNat

/-- The host has written every byte of IN below IN_LEN (20_memory.md R71). -/
def InWritten (s : State) : Prop := ∀ a, a < s.inLen → (s.inMem.read a).isSome = true

/-- The state a token of kind `c` is read from: a stored header is preceded by ByteAlign (42_blocks.md R165). -/
def tokenStart (c : Ctx) (s : State) : State := if c = .stored then byteAlign s else s

/-- `c` is a context that reads `i` whole: its own, or for a code-length token but CL_REP the one of a block's first token, before
which no previous length exists (42_blocks.md R171). -/
def ReadIn (k : Codes) (i : Instr) (c : Ctx) : Prop :=
  c = i.ctx k ∨ (i.ctx k = .cl k.cl true ∧ (∀ x, i ≠ .clRep x) ∧ c = .cl k.cl false)

/-! ## Invariants -/

/-- All three byte memories are in canonical form. -/
structure MemInv (s : State) : Prop where
  inWf : Memory.wf s.inMem
  winWf : Memory.wf s.win
  pixWf : Memory.wf s.pix

/-- The bit reader's registers (10_state.md R40, R41). -/
structure ReaderInv (s : State) : Prop where
  bitCnt_le : s.bitCnt ≤ 8
  curByte_lt : s.curByte.toNat < 2 ^ s.bitCnt
  bytePos_le : s.phase.busy = true → s.bytePos ≤ s.inLen
  bitCnt_le_pos : s.bitCnt ≤ 8 * s.bytePos
  errBit_le : s.errBit ≤ 8

/-- The window (10_state.md R48, R54) and the bounds of a copy in progress (43_symbols_lz77.md R268, R269). -/
structure WindowInv (s : State) : Prop where
  wpos_eq : s.wpos.toNat = s.produced % wsize
  written : ∀ a, a < s.produced → a < wsize → (s.win.read a).isSome = true
  copy_bounds : ∀ left d, s.stage = .copy left d → 1 ≤ d ∧ d ≤ wsize ∧ d ≤ s.produced

/-- The error registers are 0 outside ERROR, and ERROR names an error (10_state.md R37, R38). -/
structure ErrorInv (s : State) : Prop where
  quiet : s.phase ≠ .error → s.errCode = .none ∧ s.errByte = 0 ∧ s.errBit = 0
  named : s.phase = .error → s.errCode ≠ .none

/-- Array sizes and ranges, and the relation of the tables to BTYPE and to the block's own arrays (10_state.md R44, R46, R47;
42_blocks.md R160, R166, R169, R174, R177). -/
structure TableInv (s : State) : Prop where
  llLens_ok : s.llLens.length = nLL ∧ ∀ l ∈ s.llLens, l ≤ 15
  dLens_ok : s.dLens.length = nD ∧ ∀ l ∈ s.dLens, l ≤ 15
  clLens_ok : s.clLens.length = nCL ∧ ∀ l ∈ s.clLens, l ≤ 7
  lenSeq_ok : s.lenSeq.length = 320 ∧ ∀ l ∈ s.lenSeq, l ≤ 15
  header_le : s.hlit ≤ nLL ∧ s.hdist ≤ nD ∧ s.hclen ≤ nCL ∧ s.nlens ≤ 320
  tokens_le : s.phase = .dynamic → s.stage = .clTokens → s.nlens ≤ s.hlit + s.hdist
  storedRem_le : s.storedRem ≤ 65535
  symbols : s.tLL.symbolsBelow nLL ∧ s.tD.symbolsBelow nD ∧ s.tCL.symbolsBelow nCL
  body : (s.phase = .stored → s.btype = 0) ∧ (s.phase = .fixed → s.btype = 1) ∧ (s.phase = .dynamic → s.btype = 2)
  codeLengths : s.phase = .dynamic → s.stage = .clTokens → s.tCL = build s.clLens
  active : s.phase = .symbols →
    (s.btype = 1 ∧ s.tLL = fixedLL ∧ s.tD = fixedD)
      ∨ (s.btype = 2 ∧ s.llLens = splitLL s ∧ s.dLens = splitD s ∧ s.tLL = build s.llLens ∧ s.tD = build s.dLens)

/-- The configuration in use is the live one (10_state.md R52), and passed the check (45_controller.md R321). -/
structure ConfigInv (s : State) : Prop where
  latched : s.phase.busy = true → s.latW = s.cfgWidth ∧ s.latH = s.cfgHeight ∧ s.latB = s.cfgBpp
  checked : s.phase.busy = true → configOk s = true

/-- How many bytes of the inflated stream the row assembler has been given: every filter byte and data byte of the rows
before `Y`, and of row `Y` so far. -/
def assembled (s : State) : Nat :=
  s.y * (1 + rowLen s) + s.rowPos + (match s.row with | .filterByte _ => 1 | .clear | .finishRow => 0)

/-- The row assembler and PIX (10_state.md R49, 45_controller.md R323 to R327). -/
structure RowInv (s : State) : Prop where
  rowLen_pos : s.phase.busy = true → 1 ≤ rowLen s
  buffers : s.phase.busy = true → s.cur.length = rowLen s ∧ s.prev.length = rowLen s
  position : s.phase.busy = true → assembled s = min s.produced (expected s)
  rowPos_le : s.phase.busy = true → s.rowPos ≤ rowLen s + 1
  filterDue : s.phase.busy = true → ∀ b, s.row = .filterByte b → s.rowPos = 0
  rowDue : s.phase.busy = true → (s.row = .finishRow ↔ s.rowPos = rowLen s + 1)
  pixRows : s.phase.busy = true → ∀ a, (s.pix.read a).isSome = true ↔ a < s.y * rowLen s
  imageDone : s.phase = .complete →
    s.y = s.latH.toNat ∧ s.rowPos = 0 ∧ ∀ a, (s.pix.read a).isSome = true ↔ a < s.latH.toNat * rowLen s

/-- Everything a safe run keeps. -/
structure Inv (s : State) : Prop where
  mem : MemInv s
  reader : ReaderInv s
  window : WindowInv s
  errors : ErrorInv s
  tables : TableInv s
  config : ConfigInv s
  rows : RowInv s

/-! ## Notions of the statements -/

/-- `n` iterations of the copy of R269, without the row assembler's steps between them. -/
def copyRun : Nat → State → Host.Outcome State Fault Refusal
  | 0, s => .next s
  | n + 1, s =>
    match copyByte s with
    | .next t => copyRun n t
    | .fault f => .fault f
    | .refused r => .refused r

/-- The bytes of a list emitted one after the other (20_memory.md R88), without the row assembler's steps between them. -/
def emitAll (bytes : List Byte) (s : State) : State := bytes.foldl (fun s b => emit b s) s

/-- The predictor of a filter type (44_defilter.md R301 to R305). -/
def FilterType.pred : FilterType → Nat → Nat → Nat → Nat
  | .none => predNone
  | .sub => predSub
  | .up => predUp
  | .average => predAverage
  | .paeth => predPaeth

/-- The byte `B` positions to the left of index `i`, or 0 when there is none (44_defilter.md R300). -/
def leftByte (row : List Byte) (bpp i : Nat) : Nat := if bpp ≤ i then (row.getD (i - bpp) 0).toNat else 0

/-- `Filter_f`, the inverse of `Defilter`, which the CORE does not implement (R310). -/
def filterRaw (pred : Nat → Nat → Nat → Nat) (raw prev : List Byte) (bpp : Nat) : List Byte :=
  (List.range raw.length).map fun i =>
    raw.getD i 0 - BitVec.ofNat 8 (pred (leftByte raw bpp i) (prev.getD i 0).toNat (leftByte prev bpp i))

/-! ## Effects that several instructions share -/

/-- What a run of `r` lengths `v` does (42_blocks.md R171 to R173): it raises past HLIT + HDIST entries, else it writes the next
`r` entries and nothing else. -/
def RunEffect (i : Instr) (r v : Nat) (s : State) : Prop :=
  (s.hlit + s.hdist < s.nlens + r → exec i s = .next (raise .invalidHuffmanCode s))
  ∧ (s.nlens + r ≤ s.hlit + s.hdist → ∃ t, exec i s = .next t ∧ t.nlens = s.nlens + r
      ∧ (∀ j, t.lenSeq[j]? = if s.nlens ≤ j ∧ j < s.nlens + r ∧ j < s.lenSeq.length then some v else s.lenSeq[j]?)
      ∧ { t with lenSeq := s.lenSeq, nlens := s.nlens } = s)

/-- What a distance symbol of distance `d` does (43_symbols_lz77.md R268): past PRODUCED it raises with nothing emitted, else the
copy of the pending length begins, and nothing else changes. -/
def DistanceEffect (i : Instr) (d : Nat) : Prop :=
  ∀ s : State, (s.produced < d → exec i s = .next (raise .invalidBackReference s))
    ∧ (d ≤ s.produced → ∀ l, s.stage = .dist l → exec i s = .next { s with stage := .copy l d })

/-- What finishing row Y with a predictor does (45_controller.md R324): the reconstructed row goes to PIX at Y*ROWLEN and becomes
PREV; every other byte of PIX and all the rest stay. -/
def FinishRowEffect (i : Instr) (pred : Nat → Nat → Nat → Nat) : Prop :=
  ∀ s : State, s.row = .finishRow → s.y < s.latH.toNat → Memory.wf s.pix → s.cur.length = rowLen s →
    ∃ t, exec i s = .next t
      ∧ t.prev = defilter pred s.cur s.prev s.latB.toNat
      ∧ (∀ k, k < rowLen s →
          t.pix.read (s.y * rowLen s + k) = some ((defilter pred s.cur s.prev s.latB.toNat).getD k 0))
      ∧ (∀ a, a < s.y * rowLen s ∨ s.y * rowLen s + rowLen s ≤ a → t.pix.read a = s.pix.read a)
      ∧ t.cur = List.replicate (rowLen s) 0 ∧ t.rowPos = 0 ∧ t.y = s.y + 1 ∧ t.row = .clear
      ∧ { t with pix := s.pix, prev := s.prev, cur := s.cur, rowPos := s.rowPos, y := s.y, row := s.row } = s

end Machine

end Sys2Proof
end

