-- ==== Sys2Proof/Certificates/Slice0/Obligations.lean ====
section
/-! DEFINITION. The statements for the provers. A state's `stage`, `row`, `host` and `rdata` are the model's own fields (Log 1,
Log 5); every other field is the spec's. A premise `s.host = []` says that no host move is due. -/

section

open Sys2Proof Sys2Proof.Machine

/-! ## Codes and encodings -/

/-- 30_encoding.md R109: the fixed codes that `Build` gives. -/
def Obligations.FixedCodes : Prop :=
  (∀ s, s < 144 → fixedLL.codeBits s = some (bitsMsb 8 (0x30 + s)))
  ∧ (∀ s, 144 ≤ s → s < 256 → fixedLL.codeBits s = some (bitsMsb 9 (0x190 + (s - 144))))
  ∧ (∀ s, 256 ≤ s → s < 280 → fixedLL.codeBits s = some (bitsMsb 7 (s - 256)))
  ∧ (∀ s, 280 ≤ s → s < 288 → fixedLL.codeBits s = some (bitsMsb 8 (0xC0 + (s - 280))))
  ∧ (∀ s, s < 32 → fixedD.codeBits s = some (bitsMsb 5 s))

/-- Words written out from the spec's encodings, in read order, decode to what they stand for: 41_huffman.md R145's example,
`HDR 1, FIXED` (42_blocks.md R162), EOB (R202), LEN258 and DIST4 +1 with the fixed codes of R110 and R111. -/
def Obligations.FixedWordsDecode : Prop :=
  decode listSource (.ll fixedLL) [false, false, true, true, false, false, false, true] = .ok (.lit 0x01) []
  ∧ decode listSource .blockHeader [true, true, false] = .ok (.blockHeader 1 1) []
  ∧ decode listSource (.ll fixedLL) [false, false, false, false, false, false, false] = .ok .eob []
  ∧ decode listSource (.ll fixedLL) [false, false, false, false, false, true, false] = .ok .len258 []
  ∧ decode listSource (.dist fixedD) [false, false, true, false, false, true] = .ok (.dist4 1) []

/-- Decode and encode agree: every instruction with a code, followed by any bits, decodes to itself and leaves those bits, in each
context that reads it whole. The first code-length token of a block (no previous length) is read in `.cl k.cl false`; there symbol
16 is answered at its code alone, its 2 extra bits unread (42_blocks.md R171, 60_exceptions.md R410), with 0 in the operand's place
(Log 5). -/
def Obligations.DecodeEncode : Prop :=
  ∀ k : Codes, k.PrefixFree →
    (∀ (i : Instr) (c : Ctx) (bits : List Bool), i.wellFormed = true → encode k i = some bits → ReadIn k i c →
      ∀ rest, decode listSource c (bits ++ rest) = .ok i rest)
    ∧ ∀ code, k.cl.codeBits 16 = some code →
      ∀ rest, decode listSource (.cl k.cl false) (code ++ rest) = .ok (.clRep 0) rest

/-- The other direction, for the tables of any three code-length arrays: what the decoder consumes is exactly the encoding of
what it answers; and for a first code-length token (no previous length), the encoding too, or the code of symbol 16 alone. -/
def Obligations.DecodeLosesNothing : Prop :=
  (∀ (ll d cl : List Nat) (c : Ctx) (n : Nat) (bits rest : List Bool) (i : Instr),
    c = .blockHeader ∨ c = .btype ∨ c = .stored ∨ c = .dynamic ∨ c = .clLengths n ∨ c = .cl (build cl) true
      ∨ c = .ll (build ll) ∨ c = .dist (build d) ∨ c = .filter →
    decode listSource c bits = .ok i rest →
    ∃ p, encode { ll := build ll, dist := build d, cl := build cl } i = some p ∧ bits = p ++ rest)
  ∧ ∀ (ll d cl : List Nat) (bits rest : List Bool) (i : Instr), decode listSource (.cl (build cl) false) bits = .ok i rest →
    (i = .clRep 0 ∧ ∃ code, (build cl).codeBits 16 = some code ∧ bits = code ++ rest)
    ∨ ((∀ x, i ≠ .clRep x)
      ∧ ∃ p, encode { ll := build ll, dist := build d, cl := build cl } i = some p ∧ bits = p ++ rest)

/-- 41_huffman.md R143: a used symbol's code is `FIRST` of its length plus the number of earlier symbols of that length; an
unused symbol has none; no two symbols share a pair (length, value). -/
def Obligations.CanonicalCodes : Prop :=
  ∀ lens : List Nat,
    (∀ s l, lens[s]? = some l → 0 < l →
      (build lens).lookup l (firstCode lens l + (lens.take s).countP (· == l)) = some s)
    ∧ (∀ e ∈ (build lens).code, ∃ l, lens[e.sym]? = some l ∧ 0 < l ∧ e.len = l)
    ∧ (∀ e ∈ (build lens).code, ∀ f ∈ (build lens).code, e.len = f.len → e.val = f.val → e = f)

/-- 41_huffman.md R148: the table of an array whose Kraft sum is at most 1 is prefix-free, every used symbol has a code that
fits its length, and `HuffDecode` returns a symbol exactly when the next bits spell its code. -/
def Obligations.KraftPrefixFree : Prop :=
  ∀ lens : List Nat, KraftOk lens →
    PrefixFree (build lens)
    ∧ (∀ s l, lens[s]? = some l → 0 < l → ∃ v, v < 2 ^ l ∧ (build lens).codeBits s = some (bitsMsb l v))
    ∧ (∀ s bits rest, huffDecode listSource (build lens) bits = .ok s rest
        ↔ ∃ code, (build lens).codeBits s = some code ∧ bits = code ++ rest)

/-- 41_huffman.md R145 to R147, for every table whatever its array: `HuffDecode` stops at the shortest match and consumes that
code; with no match it consumes `MAXL` bits, none for an empty table; with too few bits it consumes all of them. -/
def Obligations.HuffDecodeConsumes : Prop :=
  ∀ (T : Table) (bits rest : List Bool),
    (∀ s, huffDecode listSource T bits = .ok s rest → ∃ l v, 1 ≤ l ∧ l ≤ T.maxL ∧ T.lookup l v = some s
        ∧ bits = bitsMsb l v ++ rest ∧ ∀ j w, 1 ≤ j → j < l → bitsMsb j w <+: bits → w < 2 ^ j → T.lookup j w = none)
    ∧ (huffDecode listSource T bits = .err .noCode rest → ∃ p, p.length = T.maxL ∧ bits = p ++ rest)
    ∧ (huffDecode listSource T bits = .err .endOfInput rest → bits.length < T.maxL ∧ rest = [])

/-! ## The bit reader -/

/-- 40_bitreader.md R131: the first bit read becomes bit 0; a field with too few bits left raises `EndOfInput`. -/
def Obligations.ReadBitsLsbFirst : Prop :=
  ∀ (s : State) (n : Nat), InWritten s →
    (n ≤ (pendingBits s).length → ∃ v t, readBits stateSource n s = .ok v t ∧ v < 2 ^ n
      ∧ (∀ k, k < n → (pendingBits s)[k]? = some (v.testBit k)) ∧ pendingBits t = (pendingBits s).drop n
      ∧ { t with bytePos := s.bytePos, curByte := s.curByte, bitCnt := s.bitCnt } = s)
    ∧ ((pendingBits s).length < n → ∃ t, readBits stateSource n s = .err .endOfInput t ∧ pendingBits t = [])

/-- 40_bitreader.md R132: `ByteAlign` discards the rest of the current byte and nothing else; on a byte boundary it changes
nothing (the bits left of an empty byte are 0, 10_state.md R40). -/
def Obligations.ByteAlignDiscards : Prop :=
  ∀ s : State, byteAlign s = { s with curByte := 0, bitCnt := 0 }
    ∧ (ReaderInv s → pendingBits (byteAlign s) = (pendingBits s).drop s.bitCnt ∧ (s.bitCnt = 0 → byteAlign s = s))

/-- The machine's reader is the list reader on the bits not yet consumed, for every kind of token: the same answer or the same
rejection, with the same bits left. -/
def Obligations.ReaderRefinesStream : Prop :=
  ∀ (s : State) (c : Ctx), InWritten s →
    match decode listSource c (pendingBits (tokenStart c s)) with
    | .ok i rest => ∃ t, fetch c s = .ok i t ∧ pendingBits t = rest ∧ InWritten t
    | .err e rest => ∃ t, fetch c s = .err e t ∧ pendingBits t = rest ∧ InWritten t

/-- 10_state.md R41 over a step of the CORE: the bit cursor never decreases and never passes 8*IN_LEN, and it plus the bits not
yet consumed is 8*IN_LEN. -/
def Obligations.BitCursorAdvances : Prop :=
  ∀ s t : State, ReaderInv s → s.phase.busy = true → coreStep s = .next t →
    bitPos s ≤ bitPos t ∧ bitPos t ≤ 8 * s.inLen ∧ bitPos t + (pendingBits t).length = 8 * s.inLen

/-- 60_exceptions.md R401: a token or a stored byte that needs a bit when none is left raises `EndOfInput`, recorded at
ERRBYTE = IN_LEN, ERRBIT = 0. -/
def Obligations.EndOfInputRecorded : Prop :=
  ∀ s : State, ReaderInv s → InWritten s → s.host = [] →
    (∀ c rest, nextOp s = .fetch c → decode listSource c (pendingBits (tokenStart c s)) = .err .endOfInput rest →
      ∃ t, step s = .next t ∧ t.phase = .error ∧ t.errCode = .endOfInput ∧ t.errByte = s.inLen ∧ t.errBit = 0
        ∧ t.bytePos = s.inLen ∧ t.bitCnt = 0)
    ∧ (nextOp s = .micro .rawByte → (pendingBits s).length < 8 →
      ∃ t, step s = .next t ∧ t.phase = .error ∧ t.errCode = .endOfInput ∧ t.errByte = s.inLen ∧ t.errBit = 0
        ∧ t.bytePos = s.inLen ∧ t.bitCnt = 0)

/-! ## Steps and instructions -/

/-- A step with no host move due runs the instruction that is selected, or the one decoded at the bit cursor in the state after
its bits; a token that does not decode raises its error there (41_huffman.md R146, 40_bitreader.md R130). And what is next in each
phase of 45_controller.md R329, with the table each token is read with (42_blocks.md R169, 43_symbols_lz77.md R200); which part of
a phase's rule is next stands in `stage` and `row`, the model's cut (Log 5). -/
def Obligations.StepRunsInstruction : Prop :=
  ∀ s : State, s.host = [] →
    (∀ i, nextOp s = .run i → step s = exec i s)
    ∧ (∀ c i t, nextOp s = .fetch c → fetch c s = .ok i t → step s = exec i t)
    ∧ (∀ c t, nextOp s = .fetch c → fetch c s = .err .endOfInput t → step s = .next (raise .endOfInput t))
    ∧ (∀ c t, nextOp s = .fetch c → fetch c s = .err .noCode t → step s = .next (raise .invalidHuffmanCode t))
    ∧ (∀ m, nextOp s = .micro m → step s = microStep m s)
    ∧ (s.phase.busy = true → s.row = .clear →
        (s.phase = .blockHeader → s.stage = .start → nextOp s = .fetch .blockHeader)
        ∧ (s.phase = .blockHeader → s.stage = .dispatch → nextOp s = .run (btypeInstr s.btype))
        ∧ (s.phase = .stored → s.stage = .start → nextOp s = .fetch .stored)
        ∧ (s.phase = .stored → s.stage = .raw → nextOp s = .micro .rawByte)
        ∧ (s.phase = .stored → s.stage = .rawNext → nextOp s = .micro .rawNext)
        ∧ (s.phase = .fixed → nextOp s = .micro .selectFixed)
        ∧ (s.phase = .dynamic → s.stage = .start → nextOp s = .fetch .dynamic)
        ∧ (s.phase = .dynamic → s.stage = .clLengths → nextOp s = .fetch (.clLengths s.hclen))
        ∧ (s.phase = .dynamic → s.stage = .clBuild → nextOp s = .micro .buildCl)
        ∧ (s.phase = .dynamic → s.stage = .clTokens → s.nlens < s.hlit + s.hdist →
            nextOp s = .fetch (.cl s.tCL (decide (s.nlens ≠ 0))))
        ∧ (s.phase = .dynamic → s.stage = .clTokens → s.hlit + s.hdist ≤ s.nlens → nextOp s = .micro .buildTables)
        ∧ (s.phase = .symbols → s.stage = .start → nextOp s = .fetch (.ll s.tLL))
        ∧ (∀ l, s.phase = .symbols → s.stage = .dist l → nextOp s = .fetch (.dist s.tD))
        ∧ (∀ n d, s.phase = .symbols → s.stage = .copy n d → nextOp s = .micro .copyByte)
        ∧ (s.phase = .finish → nextOp s = .micro .finish))
    ∧ (s.phase.busy = true → ∀ b, s.row = .filterByte b → nextOp s = .run (filterInstr b))
    ∧ (s.phase.busy = true → s.row = .finishRow → nextOp s = .run s.curF.instr)
    ∧ (s.phase.busy = false → nextOp s = .idle ∧ step s = .next s)

/-- From bits to effect: where the bits at the cursor are an instruction's encoding in prefix-free tables, the step is that
instruction in a state that has consumed exactly those bits and differs from this one in BYTEPOS, CURBYTE and BITCNT only; reading
a DYNAMIC_HEADER latches HLIT, HDIST and HCLEN too, reading CL_CODE_LENGTHS latches CL_LENS (42_blocks.md R167, R168). And where no
previous length exists, the code of symbol 16 alone raises InvalidHuffmanCode with its extra bits unread (R171). -/
def Obligations.StepRunsEncodedBits : Prop :=
  ∀ (s : State) (k : Codes), k.PrefixFree → s.host = [] → InWritten s →
    (∀ (i : Instr) (c : Ctx) (bits rest : List Bool), i.wellFormed = true → encode k i = some bits → ReadIn k i c →
      nextOp s = .fetch c → pendingBits (tokenStart c s) = bits ++ rest →
      ∃ t, step s = exec i t ∧ pendingBits t = rest
        ∧ { t with bytePos := s.bytePos, curByte := s.curByte, bitCnt := s.bitCnt, hlit := s.hlit, hdist := s.hdist,
                   hclen := s.hclen, clLens := s.clLens } = s
        ∧ ((∀ h d n, i ≠ .dynamicHeader h d n) → t.hlit = s.hlit ∧ t.hdist = s.hdist ∧ t.hclen = s.hclen)
        ∧ ((∀ vals, i ≠ .clCodeLengths vals) → t.clLens = s.clLens))
    ∧ ∀ code rest, k.cl.codeBits 16 = some code → nextOp s = .fetch (.cl k.cl false) → pendingBits s = code ++ rest →
      ∃ t, step s = .next (raise .invalidHuffmanCode t) ∧ pendingBits t = rest
        ∧ { t with bytePos := s.bytePos, curByte := s.curByte, bitCnt := s.bitCnt } = s

/-- 60_exceptions.md R411: what raising an error writes, and that it writes nothing else of the spec's state; the rule that
failed is abandoned. -/
def Obligations.RaiseRecords : Prop :=
  ∀ (e : ErrCode) (s : State), raise e s =
    { s with errCode := e, errByte := s.bytePos, errBit := s.bitCnt, phase := .error, stage := .start, row := .clear }

/-! ## Blocks -/

/-- 42_blocks.md R160: the token latches BFINAL and BTYPE; and as two steps (`stage` is the model's, Log 5): the header's three bits
are read and latched, then its block type is dispatched; with fewer than three bits left the first step raises `EndOfInput` and
latches nothing. -/
def Obligations.BlockHeaderDispatch : Prop :=
  (∀ (f : BitVec 1) (t : BitVec 2) (s : State),
    exec (.blockHeader f t) s = .next { s with bfinal := f, btype := t, stage := .dispatch })
  ∧ ∀ s : State, s.host = [] → InWritten s → s.phase = .blockHeader → s.stage = .start → s.row = .clear →
    (∀ (f : BitVec 1) (t : BitVec 2) (rest : List Bool),
      pendingBits s = bitsLsb 1 f.toNat ++ bitsLsb 2 t.toNat ++ rest →
      ∃ u, step s = .next u ∧ u.bfinal = f ∧ u.btype = t ∧ pendingBits u = rest
        ∧ { u with bfinal := s.bfinal, btype := s.btype, stage := s.stage, bytePos := s.bytePos, curByte := s.curByte,
                   bitCnt := s.bitCnt } = s
        ∧ step u = (if t = 0 then .next { u with phase := .stored, stage := .start }
            else if t = 1 then .next { u with phase := .fixed, stage := .start }
            else if t = 2 then .next { u with phase := .dynamic, stage := .start }
            else .next (raise .invalidBlockType u)))
    ∧ ((pendingBits s).length < 3 →
      ∃ u, step s = .next u ∧ u.phase = .error ∧ u.errCode = .endOfInput ∧ u.bfinal = s.bfinal ∧ u.btype = s.btype)

/-- 42_blocks.md R161 to R164. -/
def Obligations.BlockTypes : Prop :=
  ∀ s : State,
    exec .btypeStored s = .next { s with phase := .stored, stage := .start }
    ∧ exec .btypeFixed s = .next { s with phase := .fixed, stage := .start }
    ∧ exec .btypeDynamic s = .next { s with phase := .dynamic, stage := .start }
    ∧ exec .btypeReserved s = .next (raise .invalidBlockType s)

/-- 42_blocks.md R165 up to the first data byte, and 60_exceptions.md R404: NLEN = 0xFFFF - LEN with LEN = 0 ends the block, with
LEN > 0 sets STOREDREM; any other NLEN raises. -/
def Obligations.StoredHeaderChecks : Prop :=
  ∀ (len nlen : BitVec 16) (s : State),
    (nlen.toNat = 0xFFFF - len.toNat → len ≠ 0 →
      exec (.storedHeader len nlen) s = .next { s with storedRem := len.toNat, stage := .raw })
    ∧ (nlen = 0xFFFF → len = 0 → exec (.storedHeader len nlen) s =
        .next { s with storedRem := 0, phase := if s.bfinal = 1 then .finish else .blockHeader, stage := .start })
    ∧ (nlen.toNat ≠ 0xFFFF - len.toNat → exec (.storedHeader len nlen) s = .next (raise .invalidStoredBlock s))

/-- 42_blocks.md R165, one data byte: the next eight bits are emitted as one byte; after the row assembler is done with it,
STOREDREM is counted down, and the block ends after the last. The steps it is cut into are the model's choice (Log 5). -/
def Obligations.StoredBytesEmitted : Prop :=
  ∀ s : State, s.host = [] → s.phase = .stored → s.row = .clear →
    (s.stage = .raw → InWritten s → ∀ (b : Byte) (rest : List Bool), pendingBits s = bitsLsb 8 b.toNat ++ rest →
      ∃ t, pendingBits t = rest ∧ step s = .next (emit b { t with stage := .rawNext })
        ∧ { t with bytePos := s.bytePos, curByte := s.curByte, bitCnt := s.bitCnt } = s)
    ∧ (s.stage = .rawNext → 1 < s.storedRem →
      step s = .next { s with storedRem := s.storedRem - 1, stage := .raw })
    ∧ (s.stage = .rawNext → s.storedRem = 1 → step s =
        .next { s with storedRem := 0, phase := if s.bfinal = 1 then .finish else .blockHeader, stage := .start })

/-- 42_blocks.md R167, 30_encoding.md R108: the biases, with no truncation and no narrower range. -/
def Obligations.DynamicHeaderCounts : Prop :=
  ∀ (h d : BitVec 5) (n : BitVec 4) (s : State), exec (.dynamicHeader h d n) s =
    .next { s with hlit := h.toNat + 257, hdist := d.toNat + 1, hclen := n.toNat + 4, stage := .clLengths }

/-- 42_blocks.md R168: the k-th value goes to `CL_LENS[PERM[k]]`, every other position is 0, nothing else of the spec's state
changes. -/
def Obligations.ClLengthsScattered : Prop :=
  ∀ (vals : List (BitVec 3)) (s : State), (Instr.clCodeLengths vals).wellFormed = true →
    ∃ t, exec (.clCodeLengths vals) s = .next t ∧ t.clLens.length = 19
      ∧ (∀ k v, vals[k]? = some v →
          t.clLens[[16, 17, 18, 0, 8, 7, 9, 6, 10, 5, 11, 4, 12, 3, 13, 2, 14, 1, 15].getD k 0]? = some v.toNat)
      ∧ (∀ k, vals.length ≤ k → k < 19 →
          t.clLens[[16, 17, 18, 0, 8, 7, 9, 6, 10, 5, 11, 4, 12, 3, 13, 2, 14, 1, 15].getD k 0]? = some 0)
      ∧ { t with clLens := s.clLens, stage := s.stage } = s ∧ t.stage = .clBuild

/-- 42_blocks.md R170 to R173: CL_LIT appends its length, the repeat tokens append a run; CL_REP with no previous length raises,
whatever its operand. -/
def Obligations.ClTokensAppend : Prop :=
  ∀ s : State,
    (∀ n : BitVec 4, exec (.clLit n) s = .next { s with lenSeq := s.lenSeq.set s.nlens n.toNat, nlens := s.nlens + 1 })
    ∧ (s.nlens = 0 → ∀ x, exec (.clRep x) s = .next (raise .invalidHuffmanCode s))
    ∧ (s.nlens ≠ 0 → ∀ x : BitVec 2, RunEffect (.clRep x) (3 + x.toNat) (s.lenSeq.getD (s.nlens - 1) 0) s)
    ∧ (∀ x : BitVec 3, RunEffect (.clZ3 x) (3 + x.toNat) 0 s)
    ∧ (∀ x : BitVec 7, RunEffect (.clZ11 x) (11 + x.toNat) 0 s)

/-- 42_blocks.md R166, R169 and R174: FIXED selects the fixed tables; in DYNAMIC, after the code-length code lengths, `T_CL` is built
from CL_LENS and NLENS is cleared; when all lengths are there, LENSEQ is split and the two tables are built; SYMBOLS begins, and
nothing else changes. That each of the three is one step, named by `stage`, is the model's choice (Log 5). -/
def Obligations.TablesSelected : Prop :=
  (∀ s : State, s.host = [] → s.phase = .fixed → s.row = .clear →
    step s = .next { s with tLL := fixedLL, tD := fixedD, phase := .symbols, stage := .start })
  ∧ (∀ s : State, s.host = [] → s.phase = .dynamic → s.stage = .clBuild → s.row = .clear →
    step s = .next { s with tCL := build s.clLens, nlens := 0, stage := .clTokens })
  ∧ ∀ s : State, TableInv s → s.host = [] → s.phase = .dynamic → s.stage = .clTokens → s.row = .clear →
    s.nlens = s.hlit + s.hdist →
    ∃ t, step s = .next t
      ∧ (∀ i, i < 288 → t.llLens[i]? = if i < s.hlit then s.lenSeq[i]? else some 0)
      ∧ (∀ j, j < 32 → t.dLens[j]? = if j < s.hdist then s.lenSeq[s.hlit + j]? else some 0)
      ∧ t.llLens.length = 288 ∧ t.dLens.length = 32
      ∧ t.tLL = build t.llLens ∧ t.tD = build t.dLens ∧ t.phase = .symbols ∧ t.stage = .start
      ∧ { t with llLens := s.llLens, dLens := s.dLens, tLL := s.tLL, tD := s.tD, phase := s.phase, stage := s.stage } = s

/-- 43_symbols_lz77.md R202 with 42_blocks.md R175. -/
def Obligations.EobEndsBlock : Prop :=
  ∀ s : State, exec .eob s = .next { s with phase := if s.bfinal = 1 then .finish else .blockHeader, stage := .start }

/-! ## Symbols and the window -/

/-- 43_symbols_lz77.md R201 with 20_memory.md R88: a literal is written at WPOS, WPOS and PRODUCED advance. The last clause, that
beside them only `CUR`, `ROWPOS` and the due row may change, is the model's choice, not the spec's: the row work that the byte makes
due (accepting a filter byte or raising, FinishRow) is the next step (Log 5). In the spec R201's Emit does it within LIT, which
writes CURF, PIX, PREV, Y or PHASE too (45_controller.md R323, R324); EmittedByteAssembled states that step. -/
def Obligations.LiteralEmitted : Prop :=
  ∀ (v : BitVec 8) (s : State), Memory.wf s.win →
    ∃ t, exec (.lit v) s = .next t ∧ t.win.read s.wpos.toNat = some v
      ∧ (∀ a, a ≠ s.wpos.toNat → t.win.read a = s.win.read a)
      ∧ t.wpos.toNat = (s.wpos.toNat + 1) % 32768 ∧ t.produced = s.produced + 1
      ∧ { t with win := s.win, wpos := s.wpos, produced := s.produced, cur := s.cur, rowPos := s.rowPos, row := s.row } = s

/-- 45_controller.md R323 and R325, for a byte emitted by any rule, with the step after it where the row assembler has more to
do: a byte past EXPECTED is not assembled; a byte at a filter position is accepted as CURF or raises; a data byte goes to `CUR`;
the last one runs the row's filter type. That the row work is a step after the emitting one is the model's choice (Log 5). -/
def Obligations.EmittedByteAssembled : Prop :=
  ∀ (b : Byte) (s : State), s.host = [] → s.phase.busy = true → s.row = .clear →
    (expected s < s.produced + 1 → emit b s = pushWindow b s)
    ∧ (s.produced + 1 ≤ expected s → s.rowPos = 0 → b.toNat < 5 → ∃ f : FilterType, f.byte = b
        ∧ step (emit b s) = .next { pushWindow b s with curF := f, rowPos := 1, row := .clear })
    ∧ (s.produced + 1 ≤ expected s → s.rowPos = 0 → 5 ≤ b.toNat →
        step (emit b s) = .next (raise .invalidFilterType (pushWindow b s)))
    ∧ (s.produced + 1 ≤ expected s → s.rowPos ≠ 0 → s.rowPos ≠ rowLen s →
        emit b s = { pushWindow b s with cur := s.cur.set (s.rowPos - 1) b, rowPos := s.rowPos + 1, row := .clear })
    ∧ (s.produced + 1 ≤ expected s → s.rowPos ≠ 0 → s.rowPos = rowLen s →
        emit b s = { pushWindow b s with cur := s.cur.set (s.rowPos - 1) b, rowPos := s.rowPos + 1, row := .finishRow }
        ∧ step (emit b s) = exec s.curF.instr (emit b s))

/-- 30_encoding.md R110: the length of each length symbol, with its extra bits; the distance token is next. -/
def Obligations.LengthTokens : Prop :=
  ∀ s : State,
    exec .len257 s = .next { s with stage := .dist 3 }
    ∧ exec .len258 s = .next { s with stage := .dist 4 }
    ∧ exec .len259 s = .next { s with stage := .dist 5 }
    ∧ exec .len260 s = .next { s with stage := .dist 6 }
    ∧ exec .len261 s = .next { s with stage := .dist 7 }
    ∧ exec .len262 s = .next { s with stage := .dist 8 }
    ∧ exec .len263 s = .next { s with stage := .dist 9 }
    ∧ exec .len264 s = .next { s with stage := .dist 10 }
    ∧ (∀ x, exec (.len265 x) s = .next { s with stage := .dist (11 + x.toNat) })
    ∧ (∀ x, exec (.len266 x) s = .next { s with stage := .dist (13 + x.toNat) })
    ∧ (∀ x, exec (.len267 x) s = .next { s with stage := .dist (15 + x.toNat) })
    ∧ (∀ x, exec (.len268 x) s = .next { s with stage := .dist (17 + x.toNat) })
    ∧ (∀ x, exec (.len269 x) s = .next { s with stage := .dist (19 + x.toNat) })
    ∧ (∀ x, exec (.len270 x) s = .next { s with stage := .dist (23 + x.toNat) })
    ∧ (∀ x, exec (.len271 x) s = .next { s with stage := .dist (27 + x.toNat) })
    ∧ (∀ x, exec (.len272 x) s = .next { s with stage := .dist (31 + x.toNat) })
    ∧ (∀ x, exec (.len273 x) s = .next { s with stage := .dist (35 + x.toNat) })
    ∧ (∀ x, exec (.len274 x) s = .next { s with stage := .dist (43 + x.toNat) })
    ∧ (∀ x, exec (.len275 x) s = .next { s with stage := .dist (51 + x.toNat) })
    ∧ (∀ x, exec (.len276 x) s = .next { s with stage := .dist (59 + x.toNat) })
    ∧ (∀ x, exec (.len277 x) s = .next { s with stage := .dist (67 + x.toNat) })
    ∧ (∀ x, exec (.len278 x) s = .next { s with stage := .dist (83 + x.toNat) })
    ∧ (∀ x, exec (.len279 x) s = .next { s with stage := .dist (99 + x.toNat) })
    ∧ (∀ x, exec (.len280 x) s = .next { s with stage := .dist (115 + x.toNat) })
    ∧ (∀ x, exec (.len281 x) s = .next { s with stage := .dist (131 + x.toNat) })
    ∧ (∀ x, exec (.len282 x) s = .next { s with stage := .dist (163 + x.toNat) })
    ∧ (∀ x, exec (.len283 x) s = .next { s with stage := .dist (195 + x.toNat) })
    ∧ (∀ x, exec (.len284 x) s = .next { s with stage := .dist (227 + x.toNat) })
    ∧ exec .len285 s = .next { s with stage := .dist 258 }

/-- 30_encoding.md R111 and 43_symbols_lz77.md R268: the distance of each distance symbol, with its extra bits, and its bound. -/
def Obligations.DistanceTokens : Prop :=
  DistanceEffect .dist0 1
  ∧ DistanceEffect .dist1 2
  ∧ DistanceEffect .dist2 3
  ∧ DistanceEffect .dist3 4
  ∧ (∀ x, DistanceEffect (.dist4 x) (5 + x.toNat))
  ∧ (∀ x, DistanceEffect (.dist5 x) (7 + x.toNat))
  ∧ (∀ x, DistanceEffect (.dist6 x) (9 + x.toNat))
  ∧ (∀ x, DistanceEffect (.dist7 x) (13 + x.toNat))
  ∧ (∀ x, DistanceEffect (.dist8 x) (17 + x.toNat))
  ∧ (∀ x, DistanceEffect (.dist9 x) (25 + x.toNat))
  ∧ (∀ x, DistanceEffect (.dist10 x) (33 + x.toNat))
  ∧ (∀ x, DistanceEffect (.dist11 x) (49 + x.toNat))
  ∧ (∀ x, DistanceEffect (.dist12 x) (65 + x.toNat))
  ∧ (∀ x, DistanceEffect (.dist13 x) (97 + x.toNat))
  ∧ (∀ x, DistanceEffect (.dist14 x) (129 + x.toNat))
  ∧ (∀ x, DistanceEffect (.dist15 x) (193 + x.toNat))
  ∧ (∀ x, DistanceEffect (.dist16 x) (257 + x.toNat))
  ∧ (∀ x, DistanceEffect (.dist17 x) (385 + x.toNat))
  ∧ (∀ x, DistanceEffect (.dist18 x) (513 + x.toNat))
  ∧ (∀ x, DistanceEffect (.dist19 x) (769 + x.toNat))
  ∧ (∀ x, DistanceEffect (.dist20 x) (1025 + x.toNat))
  ∧ (∀ x, DistanceEffect (.dist21 x) (1537 + x.toNat))
  ∧ (∀ x, DistanceEffect (.dist22 x) (2049 + x.toNat))
  ∧ (∀ x, DistanceEffect (.dist23 x) (3073 + x.toNat))
  ∧ (∀ x, DistanceEffect (.dist24 x) (4097 + x.toNat))
  ∧ (∀ x, DistanceEffect (.dist25 x) (6145 + x.toNat))
  ∧ (∀ x, DistanceEffect (.dist26 x) (8193 + x.toNat))
  ∧ (∀ x, DistanceEffect (.dist27 x) (12289 + x.toNat))
  ∧ (∀ x, DistanceEffect (.dist28 x) (16385 + x.toNat))
  ∧ (∀ x, DistanceEffect (.dist29 x) (24577 + x.toNat))

/-- 43_symbols_lz77.md R233, R234, R266, R267: the invalid symbols have no extra bits and raise, writing the error state only. -/
def Obligations.InvalidSymbolsRaise : Prop :=
  (lenExtra 286 = 0 ∧ lenExtra 287 = 0 ∧ distExtra 30 = 0 ∧ distExtra 31 = 0)
  ∧ ∀ s : State,
    exec .ll286Invalid s = .next (raise .invalidBackReference s)
    ∧ exec .ll287Invalid s = .next (raise .invalidBackReference s)
    ∧ exec .dist30Invalid s = .next (raise .invalidBackReference s)
    ∧ exec .dist31Invalid s = .next (raise .invalidBackReference s)

/-- 43_symbols_lz77.md R269: a copy of L bytes at distance D repeats the last D bytes cyclically, also when D < L, and writes no
other window cell. That all L iterations succeed and PRODUCED advances by L is the model's choice (Log 5): row work is a step of its
own, and `copyRun` leaves the row steps out. They do not touch the window, but in the spec, and in the machine's own steps, a bad
filter byte ends the copy with InvalidFilterType and no byte after it is emitted (R269; EmittedByteAssembled states that step). -/
def Obligations.CopyRepeats : Prop :=
  ∀ (s : State) (l d : Nat), MemInv s → WindowInv s → s.stage = .copy l d → 1 ≤ l → l ≤ 258 →
    ∃ t, copyRun l s = .next t ∧ t.stage = .start ∧ t.produced = s.produced + l ∧ t.wpos = s.wpos + BitVec.ofNat 15 l
      ∧ (∀ k, k < l → t.win.read (s.wpos + BitVec.ofNat 15 k).toNat
          = s.win.read (s.wpos - BitVec.ofNat 15 d + BitVec.ofNat 15 (k % d)).toNat)
      ∧ (∀ a, (∀ k, k < l → a ≠ (s.wpos + BitVec.ofNat 15 k).toNat) → t.win.read a = s.win.read a)

/-- One step of a copy (43_symbols_lz77.md R269, 20_memory.md R89): the byte D back is emitted. That an iteration is a step, and the
row work after it another, is the model's choice (Log 5). -/
def Obligations.CopyStepEmits : Prop :=
  ∀ (s : State) (left d : Nat) (b : Byte), s.host = [] → s.phase = .symbols → s.row = .clear → s.stage = .copy (left + 1) d →
    s.win.read ((s.wpos.toNat + 32768 - d % 32768) % 32768) = some b →
    step s = .next (emit b { s with stage := if left = 0 then .start else .copy left d })

/-- 43_symbols_lz77.md R270: the window is the last 32768 bytes of the inflated stream, across the wrap. `emitAll` leaves out the row
steps between the bytes (Log 5), which do not touch the window. -/
def Obligations.WindowHoldsLastBytes : Prop :=
  ∀ (bytes : List Byte) (s : State) (d : Nat), Memory.wf s.win → 1 ≤ d → d ≤ bytes.length → d ≤ 32768 →
    winRead d (emitAll bytes s) = bytes[bytes.length - d]?

/-! ## Filters and rows -/

/-- 44_defilter.md R301 to R305 and R307: the five predictors on bytes; PAETH takes the neighbour nearest to a + b - c, ties to a,
then to b; every predictor of bytes is a byte. -/
def Obligations.PredictorsExact : Prop :=
  ∀ a b c : Nat, a < 256 → b < 256 → c < 256 →
    predNone a b c = 0 ∧ predSub a b c = a ∧ predUp a b c = b ∧ predAverage a b c = (a + b) / 2
    ∧ (let p : Int := (a : Int) + b - c
       (|p - a| ≤ |p - b| ∧ |p - a| ≤ |p - c| → predPaeth a b c = a)
       ∧ (¬ (|p - a| ≤ |p - b| ∧ |p - a| ≤ |p - c|) → |p - b| ≤ |p - c| → predPaeth a b c = b)
       ∧ (¬ (|p - a| ≤ |p - b| ∧ |p - a| ≤ |p - c|) → |p - c| < |p - b| → predPaeth a b c = c)
       ∧ ∀ x : Nat, x = a ∨ x = b ∨ x = c → |p - predPaeth a b c| ≤ |p - x|)
    ∧ ∀ f : FilterType, f.pred a b c < 256

/-- 44_defilter.md R300: each byte of the row is the filtered byte plus the predictor of its left neighbour in the reconstructed
row, the byte above and the one above left, modulo 256. -/
def Obligations.RowReconstructed : Prop :=
  ∀ (f : FilterType) (cur prev : List Byte) (bpp : Nat), 1 ≤ bpp →
    (defilter f.pred cur prev bpp).length = cur.length
    ∧ ∀ i, i < cur.length → ((defilter f.pred cur prev bpp).getD i 0).toNat
        = ((cur.getD i 0).toNat + f.pred (leftByte (defilter f.pred cur prev bpp) bpp i) (prev.getD i 0).toNat
            (leftByte prev bpp i)) % 256

/-- 44_defilter.md R310: filtering and defiltering are inverse, in both orders. -/
def Obligations.FilterInverse : Prop :=
  ∀ (f : FilterType) (row prev : List Byte) (bpp : Nat), 1 ≤ bpp →
    defilter f.pred (filterRaw f.pred row prev bpp) prev bpp = row
    ∧ filterRaw f.pred (defilter f.pred row prev bpp) prev bpp = row

/-- 45_controller.md R323: a filter-type byte 0 to 4 that is accepted sets CURF and ROWPOS, and nothing else. That the filter type's
instruction does this, and FinishRow in a second run, is the model's choice (Log 5). -/
def Obligations.FilterAccepted : Prop :=
  ∀ s : State, s.row ≠ .finishRow →
    exec .filterNone s = .next { s with curF := .none, rowPos := 1, row := .clear }
    ∧ exec .filterSub s = .next { s with curF := .sub, rowPos := 1, row := .clear }
    ∧ exec .filterUp s = .next { s with curF := .up, rowPos := 1, row := .clear }
    ∧ exec .filterAverage s = .next { s with curF := .average, rowPos := 1, row := .clear }
    ∧ exec .filterPaeth s = .next { s with curF := .paeth, rowPos := 1, row := .clear }

/-- 45_controller.md R324 with the five filter types of 44_defilter.md. That FinishRow is a run of the filter type's instruction is
the model's choice (Log 5). -/
def Obligations.FinishRowStores : Prop :=
  FinishRowEffect .filterNone predNone ∧ FinishRowEffect .filterSub predSub ∧ FinishRowEffect .filterUp predUp
  ∧ FinishRowEffect .filterAverage predAverage ∧ FinishRowEffect .filterPaeth predPaeth

/-- 44_defilter.md R306: the seven FILTER_INVALID rows raise, writing the error state only, and together they are the bytes 5 to
255; the bytes 0 to 4 are the five filter types. -/
def Obligations.FilterInvalidRaises : Prop :=
  (∀ s : State,
    exec .filterInvalid05 s = .next (raise .invalidFilterType s)
    ∧ (∀ x, exec (.filterInvalid06 x) s = .next (raise .invalidFilterType s))
    ∧ (∀ x, exec (.filterInvalid08 x) s = .next (raise .invalidFilterType s))
    ∧ (∀ x, exec (.filterInvalid10 x) s = .next (raise .invalidFilterType s))
    ∧ (∀ x, exec (.filterInvalid20 x) s = .next (raise .invalidFilterType s))
    ∧ (∀ x, exec (.filterInvalid40 x) s = .next (raise .invalidFilterType s))
    ∧ (∀ x, exec (.filterInvalid80 x) s = .next (raise .invalidFilterType s)))
  ∧ (∀ b : Byte, 5 ≤ b.toNat → ∀ s, exec (filterInstr b) s = .next (raise .invalidFilterType s))
  ∧ (∀ b : Byte, b.toNat < 5 → ∃ f : FilterType, f.byte = b ∧ filterInstr b = f.instr)

/-! ## The controller and the host -/

/-- 45_controller.md R322: a START that passes the check gives the fresh state of 10_state.md R53's "at START" column; no value
of an earlier decode survives (70_reset_and_hazards.md R453). -/
def Obligations.StartInitialises : Prop :=
  ∀ (s : State) (v : Reg32), s.phase.busy = false → v.getLsbD 0 = true → v.getLsbD 1 = false → configOk s = true →
    writeCtrl v s =
      { prm := s.prm, cfgWidth := s.cfgWidth, cfgHeight := s.cfgHeight, cfgBpp := s.cfgBpp,
        errCode := .none, errByte := 0, errBit := 0, bytePos := 0, curByte := 0, bitCnt := 0,
        phase := .blockHeader, stage := .start, row := .clear, bfinal := 0, btype := 0,
        llLens := List.replicate 288 0, dLens := List.replicate 32 0, clLens := List.replicate 19 0,
        tLL := build (List.replicate 288 0), tD := build (List.replicate 32 0), tCL := build (List.replicate 19 0),
        hlit := 0, hdist := 0, hclen := 0, lenSeq := List.replicate 320 0, nlens := 0, storedRem := 0,
        win := [], wpos := 0, produced := 0, latW := s.cfgWidth, latH := s.cfgHeight, latB := s.cfgBpp,
        y := 0, rowPos := 0, curF := .none,
        cur := List.replicate (s.cfgWidth.toNat * s.cfgBpp.toNat) 0,
        prev := List.replicate (s.cfgWidth.toNat * s.cfgBpp.toNat) 0,
        inMem := s.inMem, inLen := s.inLen, pix := [], host := s.host, rdata := s.rdata }

/-- 45_controller.md R321: exactly these configurations are rejected at START, with the error state at 0, 0 and no other state
written. -/
def Obligations.StartRejects : Prop :=
  ∀ (s : State) (v : Reg32), s.phase.busy = false → v.getLsbD 0 = true → v.getLsbD 1 = false →
    (configOk s = false ↔ (s.cfgWidth.toNat = 0 ∨ s.cfgHeight.toNat = 0 ∨ s.cfgBpp.toNat = 0 ∨ 4 < s.cfgBpp.toNat
      ∨ ∃ cap, s.prm.pixCap = some cap ∧ cap < s.cfgWidth.toNat * s.cfgHeight.toNat * s.cfgBpp.toNat))
    ∧ (configOk s = false → { writeCtrl v s with stage := s.stage, row := s.row } =
        { s with errCode := .unsupportedFeature, errByte := 0, errBit := 0, phase := .error })

/-- 10_state.md R31 to R34 and R39: CFG writes and START are ignored while busy, take effect otherwise; RESET wins over START;
reserved bits and read-only registers change nothing. A step makes the host move that is due, and the CORE's step before it where
one is to wait for (Log 1). A write at a bus address is the write of the register that is there, at `CORE_BASE` plus its offset
(00_scope.md R6); at an address of no register it is refused (Log 11). -/
def Obligations.HostRegisterWrites : Prop :=
  (∀ (s : State) (v : Reg32),
    (s.phase.busy = true → ∀ r, r ≠ .ctrl → writeReg r v s = s)
    ∧ (s.phase.busy = true → v.getLsbD 1 = false → writeReg .ctrl v s = s)
    ∧ (s.phase.busy = false → writeReg .cfgWidth v s = { s with cfgWidth := v }
        ∧ writeReg .cfgHeight v s = { s with cfgHeight := v }
        ∧ writeReg .cfgBpp v s = { s with cfgBpp := BitVec.ofNat 3 v.toNat })
    ∧ (∀ r, r = .status ∨ r = .errCode ∨ r = .errByte ∨ r = .errBit ∨ r = .producedR ∨ r = .rowsR → writeReg r v s = s)
    ∧ (v.getLsbD 0 = false → v.getLsbD 1 = false → writeReg .ctrl v s = s)
    ∧ (v.getLsbD 1 = true → writeReg .ctrl v s = resetCore s)
    ∧ writeReg .ctrl v s = writeCtrl v s)
  ∧ (∀ (s : State) (m : HostMove) (rest : List HostEvent), s.host = { wait := 0, move := m } :: rest →
      step s = hostMove m { s with host := rest })
  ∧ (∀ (s : State) (n : Nat) (m : HostMove) (rest : List HostEvent), s.host = { wait := n + 1, move := m } :: rest →
      step s = coreStep { s with host := { wait := n, move := m } :: rest })
  ∧ (∀ (s : State) (r : Reg) (v : Reg32) (rest : List HostEvent), s.host = { wait := 0, move := .writeReg r v } :: rest →
      step s = .next (writeReg r v { s with host := rest }))
  ∧ (∀ (s : State) (a : Nat) (v : Reg32) (rest : List HostEvent), s.host = { wait := 0, move := .busWrite a v } :: rest →
      (∀ r, regAt s.prm a = some r → step s = .next (writeReg r v { s with host := rest }))
      ∧ (regAt s.prm a = none → step s = .refused .noRegister))
  ∧ ∀ (p : Params) (a : Nat),
      (∀ r, regAt p a = some r → a = regAddr p r)
      ∧ (regAt p a = none ↔ ∀ r, regAddr p r ≠ a)
      ∧ ((∀ r r', regAddr p r = regAddr p r' → r = r') → ∀ r, regAt p (regAddr p r) = some r)
      ∧ ∀ r, regAddr p r = p.coreBase + match r with
        | .cfgWidth => p.offsets.cfgWidth
        | .cfgHeight => p.offsets.cfgHeight
        | .cfgBpp => p.offsets.cfgBpp
        | .ctrl => p.offsets.ctrl
        | .status => p.offsets.status
        | .errCode => p.offsets.errCode
        | .errByte => p.offsets.errByte
        | .errBit => p.offsets.errBit
        | .producedR => p.offsets.producedR
        | .rowsR => p.offsets.rowsR

/-- 70_reset_and_hazards.md R450: RESET, in any phase and with or without START, gives 10_state.md R53's "after reset" column; IN
keeps its contents. -/
def Obligations.ResetClears : Prop :=
  ∀ (s : State) (v : Reg32), v.getLsbD 1 = true →
    writeCtrl v s =
      { prm := s.prm, cfgWidth := 0, cfgHeight := 0, cfgBpp := 0,
        errCode := .none, errByte := 0, errBit := 0, bytePos := 0, curByte := 0, bitCnt := 0,
        phase := .idle, stage := .start, row := .clear, bfinal := 0, btype := 0,
        llLens := List.replicate 288 0, dLens := List.replicate 32 0, clLens := List.replicate 19 0,
        tLL := build (List.replicate 288 0), tD := build (List.replicate 32 0), tCL := build (List.replicate 19 0),
        hlit := 0, hdist := 0, hclen := 0, lenSeq := List.replicate 320 0, nlens := 0, storedRem := 0,
        win := [], wpos := 0, produced := 0, latW := 0, latH := 0, latB := 0, y := 0, rowPos := 0, curF := .none,
        cur := [], prev := [], inMem := s.inMem, inLen := s.inLen, pix := [], host := s.host, rdata := s.rdata }

/-- 10_state.md R35 and R36: the fields of STATUS. -/
def Obligations.StatusFields : Prop :=
  ∀ s : State,
    statusWord s % 16 = s.phase.code
    ∧ (statusWord s).testBit 4 = decide (1 ≤ s.phase.code ∧ s.phase.code ≤ 6)
    ∧ (statusWord s).testBit 5 = decide (s.phase.code = 7)
    ∧ (statusWord s).testBit 6 = decide (s.phase.code = 8)
    ∧ statusWord s < 2 ^ 7
    ∧ (Phase.code .idle = 0 ∧ Phase.code .blockHeader = 1 ∧ Phase.code .stored = 2 ∧ Phase.code .fixed = 3
      ∧ Phase.code .dynamic = 4 ∧ Phase.code .symbols = 5 ∧ Phase.code .finish = 6 ∧ Phase.code .complete = 7
      ∧ Phase.code .error = 8)

/-- 45_controller.md R331 and 10_state.md R37 to R39: what a register reads, counts mod 2^CNT_W, the error codes by the numbers of
60_exceptions.md R400; a read changes nothing but the host's own record of it (Log 1). A read at a bus address is the read of the
register that is there (00_scope.md R6; Log 11). -/
def Obligations.RegisterReads : Prop :=
  (∀ (s : State) (r : Reg) (rest : List HostEvent), s.host = { wait := 0, move := .readReg r } :: rest →
    step s = .next { s with host := rest, rdata := match r with
      | .cfgWidth => s.cfgWidth.toNat
      | .cfgHeight => s.cfgHeight.toNat
      | .cfgBpp => s.cfgBpp.toNat
      | .ctrl => 0
      | .status => statusWord s
      | .errCode => s.errCode.code
      | .errByte => s.errByte % 2 ^ s.prm.cntW
      | .errBit => s.errBit
      | .producedR => s.produced % 2 ^ s.prm.cntW
      | .rowsR => s.y % 2 ^ s.prm.cntW })
  ∧ (∀ (s : State) (a : Nat) (rest : List HostEvent), s.host = { wait := 0, move := .busRead a } :: rest →
      (∀ r, regAt s.prm a = some r → step s = step { s with host := { wait := 0, move := .readReg r } :: rest })
      ∧ (regAt s.prm a = none → step s = .refused .noRegister))
  ∧ ErrCode.code .none = 0 ∧ ErrCode.code .endOfInput = 1 ∧ ErrCode.code .truncatedInput = 2
  ∧ ErrCode.code .invalidBlockType = 3 ∧ ErrCode.code .invalidStoredBlock = 4 ∧ ErrCode.code .invalidHuffmanCode = 5
  ∧ ErrCode.code .invalidBackReference = 6 ∧ ErrCode.code .invalidFilterType = 7 ∧ ErrCode.code .unsupportedFeature = 8
  ∧ ErrCode.code .notAPng = 9 ∧ ErrCode.code .chunkLengthMismatch = 10

/-- 20_memory.md R86 and 45_controller.md R333: IN and IN_LEN are the host's while not busy and refused while busy; PIX is read in
COMPLETE only (93_implementation_defined.md U4; stops: Log 1, Log 8). -/
def Obligations.HostMemoryMoves : Prop :=
  ∀ s : State,
    (∀ a b, s.phase.busy = false → hostMove (.writeIn a b) s = .next { s with inMem := s.inMem.write a b })
    ∧ (∀ n, s.phase.busy = false → hostMove (.setInLen n) s = .next { s with inLen := n })
    ∧ (∀ a b, s.phase.busy = true → hostMove (.writeIn a b) s = .refused .hostWriteWhileBusy)
    ∧ (∀ n, s.phase.busy = true → hostMove (.setInLen n) s = .refused .hostWriteWhileBusy)
    ∧ (∀ a b, s.phase = .complete → s.pix.read a = some b → hostMove (.readPix a) s = .next { s with rdata := b.toNat })
    ∧ (∀ a, s.phase ≠ .complete → hostMove (.readPix a) s = .fault .pixNotReadable)

/-- 45_controller.md R326: the completion check of FINISH. -/
def Obligations.FinishChecks : Prop :=
  ∀ s : State, s.host = [] → s.phase = .finish → s.row = .clear →
    (s.produced < s.latH.toNat * (1 + s.latW.toNat * s.latB.toNat) → step s = .next (raise .truncatedInput s))
    ∧ (s.latH.toNat * (1 + s.latW.toNat * s.latB.toNat) ≤ s.produced →
        ∃ t, step s = .next t ∧ { t with stage := s.stage } = { s with phase := .complete })

/-- 60_exceptions.md R412: from ERROR, only the host's START or RESET changes PHASE, and without a host move nothing changes. -/
def Obligations.ErrorIsTerminal : Prop :=
  ∀ s t : State, s.phase = .error → step s = .next t →
    (s.host = [] → t = s)
    ∧ (t.phase = .error ∨ ∃ m v rest, s.host = { wait := 0, move := m } :: rest
        ∧ (m = .writeReg .ctrl v ∨ ∃ a, m = .busWrite a v ∧ regAt s.prm a = some .ctrl)
        ∧ (v.getLsbD 0 = true ∨ v.getLsbD 1 = true))

/-- 45_controller.md R329, row by row, for a step that reads a token or runs a rule of the phase; IDLE, COMPLETE and ERROR execute
nothing. -/
def Obligations.PhasesFollowTable : Prop :=
  ∀ s t : State, coreStep s = .next t →
    (s.phase.busy = false → t = s)
    ∧ (s.row ≠ .clear → t.phase = s.phase ∨ t.phase = .error)
    ∧ (s.row = .clear →
      (s.phase = .blockHeader → t.phase = .blockHeader ∨ t.phase = .stored ∨ t.phase = .fixed ∨ t.phase = .dynamic
        ∨ t.phase = .error)
      ∧ (s.phase = .stored → t.phase = .stored ∨ t.phase = .blockHeader ∨ t.phase = .finish ∨ t.phase = .error)
      ∧ (s.phase = .fixed → t.phase = .symbols)
      ∧ (s.phase = .dynamic → t.phase = .dynamic ∨ t.phase = .symbols ∨ t.phase = .error)
      ∧ (s.phase = .symbols → t.phase = .symbols ∨ t.phase = .blockHeader ∨ t.phase = .finish ∨ t.phase = .error)
      ∧ (s.phase = .finish → t.phase = .complete ∨ t.phase = .error))

/-- Who writes what, over all arms of `exec`: BFINAL and BTYPE by the block header only (10_state.md R43); IN, the configuration and
the parameters by none (20_memory.md R71, 10_state.md R52). The other clauses are the model's choice, not the spec's: that only a
literal writes the window, only a filter type that finishes a row writes PIX, PREV and Y, and none writes the bit reader, T_LL, T_D,
T_CL, LL_LENS and D_LENS holds because the bytes of a copy and of a stored block, the bit reads and the table rules are no part of
any instruction, and the row work is a step of its own (Log 5). In the spec back-references and stored blocks write the window too
(R203, R269, R165). CL_LENS is not among these: CL_CODE_LENGTHS writes it. -/
def Obligations.OnlyTheseInstructionsWrite : Prop :=
  ∀ (i : Instr) (s t : State), exec i s = .next t →
    (t.bfinal ≠ s.bfinal ∨ t.btype ≠ s.btype → ∃ f y, i = .blockHeader f y)
    ∧ (t.win ≠ s.win ∨ t.wpos ≠ s.wpos ∨ t.produced ≠ s.produced → ∃ v, i = .lit v)
    ∧ (t.pix ≠ s.pix ∨ t.prev ≠ s.prev ∨ t.y ≠ s.y → s.row = .finishRow ∧ ∃ f : FilterType, i = f.instr)
    ∧ (t.tLL = s.tLL ∧ t.tD = s.tD ∧ t.tCL = s.tCL ∧ t.llLens = s.llLens ∧ t.dLens = s.dLens)
    ∧ (t.bytePos = s.bytePos ∧ t.curByte = s.curByte ∧ t.bitCnt = s.bitCnt)
    ∧ (t.inMem = s.inMem ∧ t.inLen = s.inLen ∧ t.cfgWidth = s.cfgWidth ∧ t.cfgHeight = s.cfgHeight ∧ t.cfgBpp = s.cfgBpp
      ∧ t.latW = s.latW ∧ t.latH = s.latH ∧ t.latB = s.latB ∧ t.prm = s.prm ∧ t.host = s.host ∧ t.rdata = s.rdata)

/-- A step of the CORE leaves IN, IN_LEN, the configuration and the parameters as they are (20_memory.md R71, 10_state.md R52), and
sets the error registers only together with ERROR (60_exceptions.md R411). -/
def Obligations.CoreKeepsHostState : Prop :=
  ∀ s t : State, coreStep s = .next t →
    (t.inMem = s.inMem ∧ t.inLen = s.inLen ∧ t.cfgWidth = s.cfgWidth ∧ t.cfgHeight = s.cfgHeight ∧ t.cfgBpp = s.cfgBpp
      ∧ t.latW = s.latW ∧ t.latH = s.latH ∧ t.latB = s.latB ∧ t.prm = s.prm ∧ t.host = s.host ∧ t.rdata = s.rdata)
    ∧ (t.phase ≠ .error → t.errCode = s.errCode ∧ t.errByte = s.errByte ∧ t.errBit = s.errBit)

/-! ## Invariants -/

/-- Every invariant holds right after reset (10_state.md R53). -/
def Obligations.InvAtReset : Prop := Inv State.reset ∧ InWritten State.reset

/-- Every step keeps the three byte memories in canonical form. -/
def Obligations.MemoriesStayCanonical : Prop :=
  ∀ s t : State, MemInv s → step s = .next t → MemInv t

/-- Every step keeps the bit reader's ranges: BITCNT at most 8, no bit of CURBYTE above BITCNT, BYTEPOS at most IN_LEN during a
decode (10_state.md R40, R41). -/
def Obligations.ReaderStaysInRange : Prop :=
  ∀ s t : State, ReaderInv s → step s = .next t → ReaderInv t

/-- Every step keeps WPOS = PRODUCED mod 32768, every window cell of the last bytes written, and a copy within its bounds
(10_state.md R48, R54; 43_symbols_lz77.md R268). -/
def Obligations.WindowFollowsProduced : Prop :=
  ∀ s t : State, MemInv s → WindowInv s → step s = .next t → WindowInv t

/-- Every step keeps the error registers at 0 outside ERROR and an error named in it (10_state.md R37, R38). -/
def Obligations.ErrorRegistersQuiet : Prop :=
  ∀ s t : State, ErrorInv s → step s = .next t → ErrorInv t

/-- Every step keeps the arrays' sizes and ranges, the phase of a block's body in step with BTYPE, `T_CL` built from CL_LENS while the
code lengths are decoded, and in SYMBOLS the fixed tables for BTYPE 1 and for BTYPE 2 the tables of LL_LENS and D_LENS, which are the
split of the block's own LENSEQ (10_state.md R44, R46, R47; 42_blocks.md R169, R174, R177). -/
def Obligations.TablesMatchArrays : Prop :=
  ∀ s t : State, TableInv s → step s = .next t → TableInv t

/-- Every step keeps the configuration in use equal to the live registers and legal while busy (10_state.md R52, 45_controller.md
R321). -/
def Obligations.ConfigurationLatched : Prop :=
  ∀ s t : State, ConfigInv s → step s = .next t → ConfigInv t

/-- Every step keeps the row assembler in step with PRODUCED, PIX written exactly up to row Y, and in COMPLETE the whole image
written (10_state.md R49, 45_controller.md R323 to R327, 20_memory.md R72). -/
def Obligations.RowsFollowProduced : Prop :=
  ∀ s t : State, MemInv s → RowInv s → step s = .next t → RowInv t

/-- In every state that keeps the invariants, with IN written, the CORE has a next state: no fault and no refusal. -/
def Obligations.CoreNeverStops : Prop :=
  ∀ s : State, Inv s → InWritten s → ∃ t, coreStep s = .next t

/-- 45_controller.md R330: every decode ends, in COMPLETE or ERROR. -/
def Obligations.EveryDecodeEnds : Prop :=
  ∀ s : State, Inv s → InWritten s → s.host = [] → s.phase.busy = true →
    ∃ (n : Nat) (t : State), Host.Core.run Sys2Proof.core n s = .next t ∧ (t.phase = .complete ∨ t.phase = .error)

end
end

