-- ==== Sys2Proof/Laws/Decode.lean ====
section
/-! SUPPORT. The laws of the decoder: what it keeps of its source's state, which instruction a token kind can answer, and the
reading of a field and of a code from a list of bits. -/

namespace Sys2Proof

variable {σ α β : Type}

/-! ## Reads -/

/-- The source's state after a read, whatever the read answered. -/
def Rd.state : Rd σ α → σ
  | .ok _ s => s
  | .err _ s => s

@[simp] theorem Rd.state_ok (a : α) (s : σ) : (Rd.ok a s).state = s := rfl
@[simp] theorem Rd.state_err (e : Reject) (s : σ) : (Rd.err e s : Rd σ α).state = s := rfl
@[simp] theorem Rd.bind_ok (a : α) (s : σ) (k : α → σ → Rd σ β) : (Rd.ok a s).bind k = k a s := rfl
@[simp] theorem Rd.bind_err (e : Reject) (s : σ) (k : α → σ → Rd σ β) : (Rd.err e s : Rd σ α).bind k = .err e s := rfl

theorem Rd.bind_eq_ok {r : Rd σ α} {k : α → σ → Rd σ β} {b : β} {t : σ} :
    r.bind k = .ok b t ↔ ∃ a s, r = .ok a s ∧ k a s = .ok b t := by
  cases r <;> simp [Rd.bind]

theorem Rd.bind_eq_err {r : Rd σ α} {k : α → σ → Rd σ β} {e : Reject} {t : σ} :
    r.bind k = .err e t ↔ r = .err e t ∨ ∃ a s, r = .ok a s ∧ k a s = .err e t := by
  cases r <;> simp [Rd.bind]

/-! ## What the decoder keeps -/

/-- What a token kind latches while it is read, with the values a field can have (30_encoding.md R108, R104). -/
def Ctx.Latches : Ctx → Latch → Prop
  | .dynamic, .hlit n => 257 ≤ n ∧ n ≤ 288
  | .dynamic, .hdist n => 1 ≤ n ∧ n ≤ 32
  | .dynamic, .hclen n => 4 ≤ n ∧ n ≤ 19
  | .clLengths _, .clClear => True
  | .clLengths n, .clLen k v => k < n ∧ v ≤ 7
  | _, _ => False

/-- A property of the source's state that every read, the alignment and the latches in `L` keep. -/
structure Source.Keeps (src : Source σ) (L : Latch → Prop) (P : σ → Prop) : Prop where
  bit : ∀ s, P s → P (src.bit s).state
  align : ∀ s, P s → P (src.align s)
  latch : ∀ l s, L l → P s → P (src.latch l s)

theorem Rd.keeps_bind {P : σ → Prop} {r : Rd σ α} {k : α → σ → Rd σ β} (hr : P r.state)
    (hk : ∀ a s, r = .ok a s → P s → P (k a s).state) : P (r.bind k).state := by
  cases r with
  | ok a s => exact hk a s rfl hr
  | err e s => exact hr

theorem readBits_lt (src : Source σ) (n : Nat) (s : σ) (v : Nat) (t : σ) (h : readBits src n s = .ok v t) : v < 2 ^ n := by
  induction n generalizing s v t with
  | zero => simp [readBits] at h; omega
  | succ n ih =>
    simp only [readBits, Rd.bind_eq_ok] at h
    obtain ⟨b, s1, -, w, s2, hw, he⟩ := h
    simp only [Rd.ok.injEq] at he
    have := ih _ _ _ hw
    have hb : b.toNat ≤ 1 := Bool.toNat_le b
    rw [Nat.pow_succ]
    omega

theorem readBits_keeps {src : Source σ} {L : Latch → Prop} {P : σ → Prop} (h : src.Keeps L P) (n : Nat) (s : σ) (hs : P s) :
    P (readBits src n s).state := by
  induction n generalizing s with
  | zero => exact hs
  | succ n ih =>
    exact Rd.keeps_bind (h.bit s hs) fun b s1 _ h1 => Rd.keeps_bind (ih s1 h1) fun v s2 _ h2 => h2

theorem huffLoop_keeps {src : Source σ} {L : Latch → Prop} {P : σ → Prop} (h : src.Keeps L P) (T : Table) (n l v : Nat) (s : σ) (hs : P s) :
    P (huffLoop src T n l v s).state := by
  induction n generalizing l v s with
  | zero => exact hs
  | succ n ih =>
    refine Rd.keeps_bind (h.bit s hs) fun b s1 _ h1 => ?_
    split
    · exact h1
    · exact ih _ _ _ h1

theorem huffDecode_keeps {src : Source σ} {L : Latch → Prop} {P : σ → Prop} (h : src.Keeps L P) (T : Table) (s : σ) (hs : P s) :
    P (huffDecode src T s).state := huffLoop_keeps h T _ _ _ s hs

theorem readClLengths_keeps {src : Source σ} {L : Latch → Prop} {P : σ → Prop} (h : src.Keeps L P) (n k : Nat)
    (hL : ∀ j v, j < k + n → v ≤ 7 → L (.clLen j v)) (s : σ) (hs : P s) : P (readClLengths src n k s).state := by
  induction n generalizing k s with
  | zero => exact hs
  | succ n ih =>
    refine Rd.keeps_bind (readBits_keeps h 3 s hs) fun v s1 hv h1 => ?_
    have hlt := readBits_lt src 3 s v s1 hv
    have hl := h.latch _ s1 (hL k v (by omega) (by omega)) h1
    exact Rd.keeps_bind (ih _ (fun j w hj hw => hL j w (by omega) hw) _ hl) fun _ _ _ h2 => h2

theorem symbolInstr_state (i : Option Instr) (s : σ) : (symbolInstr i s).state = s := by
  cases i <;> rfl

/-- Whatever every operation of the source keeps, a whole token keeps. -/
theorem decode_keeps {src : Source σ} {P : σ → Prop} (c : Ctx) (h : src.Keeps c.Latches P) (s : σ) (hs : P s) :
    P (decode src c s).state := by
  have rb := fun n s hs => readBits_keeps (P := P) h n s hs
  have tok : ∀ (T : Table) (ext : Nat → Nat) (f : Nat → Nat → Option Instr),
      P ((huffDecode src T s).bind fun sym s => (readBits src (ext sym) s).bind fun x s => symbolInstr (f sym x) s).state :=
    fun T ext f => Rd.keeps_bind (huffDecode_keeps h T s hs) fun sym s1 _ h1 =>
      Rd.keeps_bind (rb _ s1 h1) fun x s2 _ h2 => by rw [symbolInstr_state]; exact h2
  cases c with
  | blockHeader => exact Rd.keeps_bind (rb _ s hs) fun _ s1 _ h1 => Rd.keeps_bind (rb _ s1 h1) fun _ _ _ h2 => h2
  | btype => exact Rd.keeps_bind (rb _ s hs) fun _ _ _ h1 => h1
  | stored =>
    exact Rd.keeps_bind (rb _ _ (h.align s hs)) fun _ s1 _ h1 => Rd.keeps_bind (rb _ s1 h1) fun _ _ _ h2 => h2
  | dynamic =>
    refine Rd.keeps_bind (rb _ s hs) fun v1 s1 e1 h1 => ?_
    have l1 := readBits_lt _ _ _ _ _ e1
    refine Rd.keeps_bind (rb _ _ (h.latch _ _ (by simp only [Ctx.Latches]; omega) h1)) fun v2 s2 e2 h2 => ?_
    have l2 := readBits_lt _ _ _ _ _ e2
    refine Rd.keeps_bind (rb _ _ (h.latch _ _ (by simp only [Ctx.Latches]; omega) h2)) fun v3 s3 e3 h3 => ?_
    have l3 := readBits_lt _ _ _ _ _ e3
    exact h.latch _ _ (by simp only [Ctx.Latches]; omega) h3
  | clLengths n =>
    exact Rd.keeps_bind (readClLengths_keeps h n 0 (fun j v hj hv => ⟨by omega, hv⟩) _ (h.latch .clClear s trivial hs)) fun _ _ _ h1 => h1
  | cl T hasPrev =>
    refine Rd.keeps_bind (huffDecode_keeps h T s hs) fun sym s1 _ h1 => ?_
    split
    · exact h1
    · exact Rd.keeps_bind (rb _ s1 h1) fun x s2 _ h2 => by rw [symbolInstr_state]; exact h2
  | ll T => exact tok T lenExtra llInstr
  | dist T => exact tok T distExtra distInstr
  | filter => exact Rd.keeps_bind (rb _ s hs) fun _ _ _ h1 => h1

/-! ## Which instruction a token kind answers -/

/-- The instructions a token kind can answer. -/
inductive Answers : Ctx → Instr → Prop
  | blockHeader (f : BitVec 1) (t : BitVec 2) : Answers .blockHeader (.blockHeader f t)
  | btype (t : BitVec 2) : Answers .btype (btypeInstr t)
  | stored (len nlen : BitVec 16) : Answers .stored (.storedHeader len nlen)
  | dynamic (h d : BitVec 5) (n : BitVec 4) : Answers .dynamic (.dynamicHeader h d n)
  | clLengths (vs : List (BitVec 3)) : Answers (.clLengths vs.length) (.clCodeLengths vs)
  | clFirst (T : Table) : Answers (.cl T false) (.clRep 0)
  | cl {T : Table} {p : Bool} {sym x : Nat} {i : Instr} (h : clInstr sym x = some i) : Answers (.cl T p) i
  | ll {T : Table} {sym x : Nat} {i : Instr} (h : llInstr sym x = some i) : Answers (.ll T) i
  | dist {T : Table} {sym x : Nat} {i : Instr} (h : distInstr sym x = some i) : Answers (.dist T) i
  | filter (b : Byte) : Answers .filter (filterInstr b)

theorem symbolInstr_eq_ok {i : Option Instr} {s t : σ} {j : Instr} :
    symbolInstr i s = .ok j t ↔ i = some j ∧ s = t := by
  cases i <;> simp [symbolInstr]

theorem readClLengths_length (src : Source σ) (n k : Nat) (s : σ) (vs : List (BitVec 3)) (t : σ)
    (h : readClLengths src n k s = .ok vs t) : vs.length = n := by
  induction n generalizing k s vs t with
  | zero => simp [readClLengths] at h; simp [← h.1]
  | succ n ih =>
    simp only [readClLengths, Rd.bind_eq_ok] at h
    obtain ⟨v, s1, -, ws, s2, hw, he⟩ := h
    simp only [Rd.ok.injEq] at he
    rw [← he.1, List.length_cons, ih _ _ _ _ hw]

theorem decode_answers (src : Source σ) (c : Ctx) (s : σ) (i : Instr) (t : σ) (h : decode src c s = .ok i t) :
    Answers c i := by
  cases c with
  | blockHeader =>
    simp only [decode, Rd.bind_eq_ok, Rd.ok.injEq] at h
    obtain ⟨_, _, -, _, _, -, rfl, -⟩ := h
    exact .blockHeader _ _
  | btype =>
    simp only [decode, Rd.bind_eq_ok, Rd.ok.injEq] at h
    obtain ⟨_, _, -, rfl, -⟩ := h
    exact .btype _
  | stored =>
    simp only [decode, Rd.bind_eq_ok, Rd.ok.injEq] at h
    obtain ⟨_, _, -, _, _, -, rfl, -⟩ := h
    exact .stored _ _
  | dynamic =>
    simp only [decode, Rd.bind_eq_ok, Rd.ok.injEq] at h
    obtain ⟨_, _, -, _, _, -, _, _, -, rfl, -⟩ := h
    exact .dynamic _ _ _
  | clLengths n =>
    simp only [decode, Rd.bind_eq_ok, Rd.ok.injEq] at h
    obtain ⟨vs, _, hv, rfl, -⟩ := h
    rw [← readClLengths_length _ _ _ _ _ _ hv]
    exact .clLengths vs
  | cl T hasPrev =>
    simp only [decode, Rd.bind_eq_ok] at h
    obtain ⟨sym, s1, -, h⟩ := h
    split at h
    · rename_i hc
      simp only [Rd.ok.injEq] at h
      rw [← h.1, hc.2]
      exact .clFirst T
    · simp only [Rd.bind_eq_ok, symbolInstr_eq_ok] at h
      obtain ⟨x, s2, -, hx, -⟩ := h
      exact .cl hx
  | ll T =>
    simp only [decode, Rd.bind_eq_ok, symbolInstr_eq_ok] at h
    obtain ⟨sym, s1, -, x, s2, -, hx, -⟩ := h
    exact .ll hx
  | dist T =>
    simp only [decode, Rd.bind_eq_ok, symbolInstr_eq_ok] at h
    obtain ⟨sym, s1, -, x, s2, -, hx, -⟩ := h
    exact .dist hx
  | filter =>
    simp only [decode, Rd.bind_eq_ok, Rd.ok.injEq] at h
    obtain ⟨_, _, -, rfl, -⟩ := h
    exact .filter _

/-! ## Tables -/

theorem Table.lookup_mem {T : Table} {l v sym : Nat} (h : T.lookup l v = some sym) :
    ∃ e ∈ T.code, e.len = l ∧ e.val = v ∧ e.sym = sym := by
  simp only [Table.lookup, Option.map_eq_some_iff] at h
  obtain ⟨e, he, hs⟩ := h
  have hp := List.find?_some he
  simp only [Bool.and_eq_true, beq_iff_eq] at hp
  exact ⟨e, List.mem_of_find?_eq_some he, hp.1, hp.2, hs⟩

theorem huffLoop_symbol {src : Source σ} {T : Table} {n l v : Nat} {s t : σ} {sym : Nat}
    (h : huffLoop src T n l v s = .ok sym t) : ∃ e ∈ T.code, e.sym = sym := by
  induction n generalizing l v s with
  | zero => simp [huffLoop] at h
  | succ n ih =>
    simp only [huffLoop, Rd.bind_eq_ok] at h
    obtain ⟨b, s1, -, h⟩ := h
    split at h
    · rename_i hl
      simp only [Rd.ok.injEq] at h
      obtain ⟨e, he, -, -, hs⟩ := Table.lookup_mem hl
      exact ⟨e, he, hs.trans h.1⟩
    · exact ih h

/-- A decoded symbol is a symbol of the table. -/
theorem huffDecode_symbol {src : Source σ} {T : Table} {s t : σ} {sym : Nat} (h : huffDecode src T s = .ok sym t) :
    ∃ e ∈ T.code, e.sym = sym := huffLoop_symbol h

theorem assignCodes_sym (lens : List Nat) (s : Nat) (next : List Nat) :
    ∀ e ∈ assignCodes lens s next, s ≤ e.sym ∧ e.sym < s + lens.length := by
  induction lens generalizing s next with
  | nil => simp [assignCodes]
  | cons l lens ih =>
    intro e he
    unfold assignCodes at he
    split at he
    · have := ih _ _ e he
      simp only [List.length_cons]; omega
    · rcases List.mem_cons.mp he with rfl | he
      · simp
      · have := ih _ _ e he
        simp only [List.length_cons]; omega

/-- A table built from an array maps codes to positions of the array only. -/
theorem build_sym_lt (lens : List Nat) : ∀ e ∈ (build lens).code, e.sym < lens.length := by
  intro e he
  have := assignCodes_sym lens 0 _ e he
  omega

/-! ## Lists of bits -/

theorem bitsLsb_length (n v : Nat) : (bitsLsb n v).length = n := by
  induction n generalizing v with
  | zero => rfl
  | succ n ih => simp [bitsLsb, ih]

theorem bitsMsb_length (n v : Nat) : (bitsMsb n v).length = n := by simp [bitsMsb, bitsLsb_length]

@[simp] theorem listSource_bit_cons (b : Bool) (rest : List Bool) : listSource.bit (b :: rest) = .ok b rest := rfl
@[simp] theorem listSource_bit_nil : listSource.bit [] = .err .endOfInput [] := rfl
@[simp] theorem listSource_align (bits : List Bool) : listSource.align bits = bits := rfl
@[simp] theorem listSource_latch (l : Latch) (bits : List Bool) : listSource.latch l bits = bits := rfl

/-- Reading back a field written least significant bit first. -/
theorem readBits_bitsLsb (n v : Nat) (rest : List Bool) :
    readBits listSource n (bitsLsb n v ++ rest) = .ok (v % 2 ^ n) rest := by
  induction n generalizing v with
  | zero => simp [readBits, bitsLsb, Nat.mod_one]
  | succ n ih =>
    simp only [readBits, bitsLsb, List.cons_append, listSource_bit_cons, Rd.bind_ok, ih]
    congr 1
    have hb : (v % 2 == 1).toNat = v % 2 := by
      rcases Nat.mod_two_eq_zero_or_one v with h | h <;> simp [h]
    rw [hb, Nat.pow_succ, Nat.mul_comm (2 ^ n) 2, Nat.mod_mul]

end Sys2Proof
end

