-- ==== Sys2Proof/Laws/Memory.lean ====
section
/-! SUPPORT. The laws of byte memories: read after write, and that every operation keeps the canonical form. -/

namespace Sys2Proof.Machine

@[simp] theorem Memory.read_nil (a : Nat) : Memory.read [] a = none := rfl

theorem Memory.read_write (m : Memory) (a : Nat) (b : Byte) (hm : Memory.wf m) (x : Nat) :
    Memory.read (Memory.write m a b) x = if x = a then some b else Memory.read m x := by
  induction m with
  | nil =>
    by_cases h : a = x
    · simp [Memory.write, Memory.read, h]
    · simp [Memory.write, Memory.read, h, Ne.symm h]
  | cons p rest ih =>
    obtain ⟨k, v⟩ := p
    rw [Memory.wf, List.pairwise_cons] at hm
    unfold Memory.write
    split
    · by_cases h : a = x
      · simp [Memory.read, h]
      · simp [Memory.read, h, Ne.symm h]
    · split
      · by_cases h : a = x
        · simp [Memory.read, h]
        · have hk : ¬ k = x := by omega
          simp [Memory.read, h, Ne.symm h, hk]
      · rename_i h1 h2
        by_cases hk : k = x
        · have hx : x ≠ a := by omega
          simp [Memory.read, hk, hx]
        · simp [Memory.read, hk, ih hm.2]

theorem Memory.read_write_same (m : Memory) (a : Nat) (b : Byte) (hm : Memory.wf m) :
    Memory.read (Memory.write m a b) a = some b := by
  simp [Memory.read_write m a b hm]

theorem Memory.read_write_other (m : Memory) (a : Nat) (b : Byte) (hm : Memory.wf m) (x : Nat) (hx : x ≠ a) :
    Memory.read (Memory.write m a b) x = Memory.read m x := by
  simp [Memory.read_write m a b hm, hx]

theorem Memory.mem_write (m : Memory) (a : Nat) (b : Byte) (p : Host.Cell) (hp : p ∈ Memory.write m a b) :
    p = (a, b) ∨ p ∈ m := by
  induction m with
  | nil => simpa [Memory.write] using hp
  | cons q rest ih =>
    obtain ⟨k, v⟩ := q
    unfold Memory.write at hp
    split at hp
    · simpa using hp
    · split at hp
      · rcases List.mem_cons.mp hp with h | h
        · exact .inl h
        · exact .inr (List.mem_cons_of_mem _ h)
      · rcases List.mem_cons.mp hp with h | h
        · exact .inr (h ▸ List.mem_cons_self)
        · exact (ih h).imp id (List.mem_cons_of_mem _)

theorem Memory.write_wf (m : Memory) (a : Nat) (b : Byte) (hm : Memory.wf m) : Memory.wf (Memory.write m a b) := by
  induction m with
  | nil => simp [Memory.write, Memory.wf]
  | cons q rest ih =>
    obtain ⟨k, v⟩ := q
    rw [Memory.wf, List.pairwise_cons] at hm
    unfold Memory.write
    split
    · rename_i h
      rw [Memory.wf, List.pairwise_cons, List.pairwise_cons]
      refine ⟨fun p hp => ?_, hm⟩
      rcases List.mem_cons.mp hp with rfl | hp
      · exact h
      · exact Nat.lt_trans h (hm.1 p hp)
    · split
      · rename_i h
        subst h
        rw [Memory.wf, List.pairwise_cons]
        exact hm
      · rename_i h1 h2
        rw [Memory.wf, List.pairwise_cons]
        refine ⟨fun p hp => ?_, ih hm.2⟩
        rcases Memory.mem_write rest a b p hp with rfl | hp
        · simp only; omega
        · exact hm.1 p hp

theorem Memory.writeList_wf (m : Memory) (a : Nat) (bytes : List Byte) (hm : Memory.wf m) :
    Memory.wf (Memory.writeList m a bytes) := by
  induction bytes generalizing m a with
  | nil => exact hm
  | cons b bytes ih => exact ih _ _ (Memory.write_wf m a b hm)

/-- Reading after `writeList`: a written address gives its byte, every other address what it held. -/
theorem Memory.read_writeList (m : Memory) (a : Nat) (bytes : List Byte) (hm : Memory.wf m) (x : Nat) :
    Memory.read (Memory.writeList m a bytes) x
      = if a ≤ x ∧ x < a + bytes.length then bytes[x - a]? else Memory.read m x := by
  induction bytes generalizing m a with
  | nil =>
    have h : ¬ (a ≤ x ∧ x < a) := by omega
    simp [Memory.writeList, h]
  | cons b bytes ih =>
    rw [Memory.writeList, ih _ _ (Memory.write_wf m a b hm), Memory.read_write m a b hm]
    by_cases hxa : x = a
    · subst hxa
      simp
    · by_cases h : a + 1 ≤ x ∧ x < a + 1 + bytes.length
      · have h' : a ≤ x ∧ x < a + (bytes.length + 1) := by omega
        have hi : x - a = (x - (a + 1)) + 1 := by omega
        simp only [List.length_cons]
        rw [if_pos h, if_pos h', hi, List.getElem?_cons_succ]
      · have h' : ¬ (a ≤ x ∧ x < a + (bytes.length + 1)) := by omega
        simp only [List.length_cons]
        rw [if_neg h, if_neg h', if_neg hxa]

theorem Memory.read_writeList_outside (m : Memory) (a : Nat) (bytes : List Byte) (hm : Memory.wf m) (x : Nat)
    (hx : x < a ∨ a + bytes.length ≤ x) : Memory.read (Memory.writeList m a bytes) x = Memory.read m x := by
  rw [Memory.read_writeList m a bytes hm, if_neg (by omega)]

end Sys2Proof.Machine
end

