-- ==== Sys2Proof/Laws/State.lean ====
section
/-! SUPPORT. What each named update leaves and writes, one lemma per field, so that no later proof unfolds a record update. -/

namespace Sys2Proof.Machine

/-! ### byteAlign -/

@[simp] theorem byteAlign_prm (s : State) : (byteAlign s).prm = s.prm := rfl
@[simp] theorem byteAlign_cfgWidth (s : State) : (byteAlign s).cfgWidth = s.cfgWidth := rfl
@[simp] theorem byteAlign_cfgHeight (s : State) : (byteAlign s).cfgHeight = s.cfgHeight := rfl
@[simp] theorem byteAlign_cfgBpp (s : State) : (byteAlign s).cfgBpp = s.cfgBpp := rfl
@[simp] theorem byteAlign_errCode (s : State) : (byteAlign s).errCode = s.errCode := rfl
@[simp] theorem byteAlign_errByte (s : State) : (byteAlign s).errByte = s.errByte := rfl
@[simp] theorem byteAlign_errBit (s : State) : (byteAlign s).errBit = s.errBit := rfl
@[simp] theorem byteAlign_bytePos (s : State) : (byteAlign s).bytePos = s.bytePos := rfl
@[simp] theorem byteAlign_phase (s : State) : (byteAlign s).phase = s.phase := rfl
@[simp] theorem byteAlign_stage (s : State) : (byteAlign s).stage = s.stage := rfl
@[simp] theorem byteAlign_row (s : State) : (byteAlign s).row = s.row := rfl
@[simp] theorem byteAlign_bfinal (s : State) : (byteAlign s).bfinal = s.bfinal := rfl
@[simp] theorem byteAlign_btype (s : State) : (byteAlign s).btype = s.btype := rfl
@[simp] theorem byteAlign_llLens (s : State) : (byteAlign s).llLens = s.llLens := rfl
@[simp] theorem byteAlign_dLens (s : State) : (byteAlign s).dLens = s.dLens := rfl
@[simp] theorem byteAlign_clLens (s : State) : (byteAlign s).clLens = s.clLens := rfl
@[simp] theorem byteAlign_tLL (s : State) : (byteAlign s).tLL = s.tLL := rfl
@[simp] theorem byteAlign_tD (s : State) : (byteAlign s).tD = s.tD := rfl
@[simp] theorem byteAlign_tCL (s : State) : (byteAlign s).tCL = s.tCL := rfl
@[simp] theorem byteAlign_hlit (s : State) : (byteAlign s).hlit = s.hlit := rfl
@[simp] theorem byteAlign_hdist (s : State) : (byteAlign s).hdist = s.hdist := rfl
@[simp] theorem byteAlign_hclen (s : State) : (byteAlign s).hclen = s.hclen := rfl
@[simp] theorem byteAlign_lenSeq (s : State) : (byteAlign s).lenSeq = s.lenSeq := rfl
@[simp] theorem byteAlign_nlens (s : State) : (byteAlign s).nlens = s.nlens := rfl
@[simp] theorem byteAlign_storedRem (s : State) : (byteAlign s).storedRem = s.storedRem := rfl
@[simp] theorem byteAlign_win (s : State) : (byteAlign s).win = s.win := rfl
@[simp] theorem byteAlign_wpos (s : State) : (byteAlign s).wpos = s.wpos := rfl
@[simp] theorem byteAlign_produced (s : State) : (byteAlign s).produced = s.produced := rfl
@[simp] theorem byteAlign_latW (s : State) : (byteAlign s).latW = s.latW := rfl
@[simp] theorem byteAlign_latH (s : State) : (byteAlign s).latH = s.latH := rfl
@[simp] theorem byteAlign_latB (s : State) : (byteAlign s).latB = s.latB := rfl
@[simp] theorem byteAlign_y (s : State) : (byteAlign s).y = s.y := rfl
@[simp] theorem byteAlign_rowPos (s : State) : (byteAlign s).rowPos = s.rowPos := rfl
@[simp] theorem byteAlign_curF (s : State) : (byteAlign s).curF = s.curF := rfl
@[simp] theorem byteAlign_cur (s : State) : (byteAlign s).cur = s.cur := rfl
@[simp] theorem byteAlign_prev (s : State) : (byteAlign s).prev = s.prev := rfl
@[simp] theorem byteAlign_inMem (s : State) : (byteAlign s).inMem = s.inMem := rfl
@[simp] theorem byteAlign_inLen (s : State) : (byteAlign s).inLen = s.inLen := rfl
@[simp] theorem byteAlign_pix (s : State) : (byteAlign s).pix = s.pix := rfl
@[simp] theorem byteAlign_host (s : State) : (byteAlign s).host = s.host := rfl
@[simp] theorem byteAlign_rdata (s : State) : (byteAlign s).rdata = s.rdata := rfl
@[simp] theorem byteAlign_curByte (s : State) : (byteAlign s).curByte = 0 := rfl
@[simp] theorem byteAlign_bitCnt (s : State) : (byteAlign s).bitCnt = 0 := rfl

/-! ### raiseAt -/

@[simp] theorem raiseAt_prm (e : ErrCode) (n b : Nat) (s : State) : (raiseAt e n b s).prm = s.prm := rfl
@[simp] theorem raiseAt_cfgWidth (e : ErrCode) (n b : Nat) (s : State) : (raiseAt e n b s).cfgWidth = s.cfgWidth := rfl
@[simp] theorem raiseAt_cfgHeight (e : ErrCode) (n b : Nat) (s : State) : (raiseAt e n b s).cfgHeight = s.cfgHeight := rfl
@[simp] theorem raiseAt_cfgBpp (e : ErrCode) (n b : Nat) (s : State) : (raiseAt e n b s).cfgBpp = s.cfgBpp := rfl
@[simp] theorem raiseAt_bytePos (e : ErrCode) (n b : Nat) (s : State) : (raiseAt e n b s).bytePos = s.bytePos := rfl
@[simp] theorem raiseAt_curByte (e : ErrCode) (n b : Nat) (s : State) : (raiseAt e n b s).curByte = s.curByte := rfl
@[simp] theorem raiseAt_bitCnt (e : ErrCode) (n b : Nat) (s : State) : (raiseAt e n b s).bitCnt = s.bitCnt := rfl
@[simp] theorem raiseAt_bfinal (e : ErrCode) (n b : Nat) (s : State) : (raiseAt e n b s).bfinal = s.bfinal := rfl
@[simp] theorem raiseAt_btype (e : ErrCode) (n b : Nat) (s : State) : (raiseAt e n b s).btype = s.btype := rfl
@[simp] theorem raiseAt_llLens (e : ErrCode) (n b : Nat) (s : State) : (raiseAt e n b s).llLens = s.llLens := rfl
@[simp] theorem raiseAt_dLens (e : ErrCode) (n b : Nat) (s : State) : (raiseAt e n b s).dLens = s.dLens := rfl
@[simp] theorem raiseAt_clLens (e : ErrCode) (n b : Nat) (s : State) : (raiseAt e n b s).clLens = s.clLens := rfl
@[simp] theorem raiseAt_tLL (e : ErrCode) (n b : Nat) (s : State) : (raiseAt e n b s).tLL = s.tLL := rfl
@[simp] theorem raiseAt_tD (e : ErrCode) (n b : Nat) (s : State) : (raiseAt e n b s).tD = s.tD := rfl
@[simp] theorem raiseAt_tCL (e : ErrCode) (n b : Nat) (s : State) : (raiseAt e n b s).tCL = s.tCL := rfl
@[simp] theorem raiseAt_hlit (e : ErrCode) (n b : Nat) (s : State) : (raiseAt e n b s).hlit = s.hlit := rfl
@[simp] theorem raiseAt_hdist (e : ErrCode) (n b : Nat) (s : State) : (raiseAt e n b s).hdist = s.hdist := rfl
@[simp] theorem raiseAt_hclen (e : ErrCode) (n b : Nat) (s : State) : (raiseAt e n b s).hclen = s.hclen := rfl
@[simp] theorem raiseAt_lenSeq (e : ErrCode) (n b : Nat) (s : State) : (raiseAt e n b s).lenSeq = s.lenSeq := rfl
@[simp] theorem raiseAt_nlens (e : ErrCode) (n b : Nat) (s : State) : (raiseAt e n b s).nlens = s.nlens := rfl
@[simp] theorem raiseAt_storedRem (e : ErrCode) (n b : Nat) (s : State) : (raiseAt e n b s).storedRem = s.storedRem := rfl
@[simp] theorem raiseAt_win (e : ErrCode) (n b : Nat) (s : State) : (raiseAt e n b s).win = s.win := rfl
@[simp] theorem raiseAt_wpos (e : ErrCode) (n b : Nat) (s : State) : (raiseAt e n b s).wpos = s.wpos := rfl
@[simp] theorem raiseAt_produced (e : ErrCode) (n b : Nat) (s : State) : (raiseAt e n b s).produced = s.produced := rfl
@[simp] theorem raiseAt_latW (e : ErrCode) (n b : Nat) (s : State) : (raiseAt e n b s).latW = s.latW := rfl
@[simp] theorem raiseAt_latH (e : ErrCode) (n b : Nat) (s : State) : (raiseAt e n b s).latH = s.latH := rfl
@[simp] theorem raiseAt_latB (e : ErrCode) (n b : Nat) (s : State) : (raiseAt e n b s).latB = s.latB := rfl
@[simp] theorem raiseAt_y (e : ErrCode) (n b : Nat) (s : State) : (raiseAt e n b s).y = s.y := rfl
@[simp] theorem raiseAt_rowPos (e : ErrCode) (n b : Nat) (s : State) : (raiseAt e n b s).rowPos = s.rowPos := rfl
@[simp] theorem raiseAt_curF (e : ErrCode) (n b : Nat) (s : State) : (raiseAt e n b s).curF = s.curF := rfl
@[simp] theorem raiseAt_cur (e : ErrCode) (n b : Nat) (s : State) : (raiseAt e n b s).cur = s.cur := rfl
@[simp] theorem raiseAt_prev (e : ErrCode) (n b : Nat) (s : State) : (raiseAt e n b s).prev = s.prev := rfl
@[simp] theorem raiseAt_inMem (e : ErrCode) (n b : Nat) (s : State) : (raiseAt e n b s).inMem = s.inMem := rfl
@[simp] theorem raiseAt_inLen (e : ErrCode) (n b : Nat) (s : State) : (raiseAt e n b s).inLen = s.inLen := rfl
@[simp] theorem raiseAt_pix (e : ErrCode) (n b : Nat) (s : State) : (raiseAt e n b s).pix = s.pix := rfl
@[simp] theorem raiseAt_host (e : ErrCode) (n b : Nat) (s : State) : (raiseAt e n b s).host = s.host := rfl
@[simp] theorem raiseAt_rdata (e : ErrCode) (n b : Nat) (s : State) : (raiseAt e n b s).rdata = s.rdata := rfl
@[simp] theorem raiseAt_errCode (e : ErrCode) (n b : Nat) (s : State) : (raiseAt e n b s).errCode = e := rfl
@[simp] theorem raiseAt_errByte (e : ErrCode) (n b : Nat) (s : State) : (raiseAt e n b s).errByte = n := rfl
@[simp] theorem raiseAt_errBit (e : ErrCode) (n b : Nat) (s : State) : (raiseAt e n b s).errBit = b := rfl
@[simp] theorem raiseAt_phase (e : ErrCode) (n b : Nat) (s : State) : (raiseAt e n b s).phase = .error := rfl
@[simp] theorem raiseAt_stage (e : ErrCode) (n b : Nat) (s : State) : (raiseAt e n b s).stage = .start := rfl
@[simp] theorem raiseAt_row (e : ErrCode) (n b : Nat) (s : State) : (raiseAt e n b s).row = .clear := rfl

/-! ### raise -/

@[simp] theorem raise_prm (e : ErrCode) (s : State) : (raise e s).prm = s.prm := rfl
@[simp] theorem raise_cfgWidth (e : ErrCode) (s : State) : (raise e s).cfgWidth = s.cfgWidth := rfl
@[simp] theorem raise_cfgHeight (e : ErrCode) (s : State) : (raise e s).cfgHeight = s.cfgHeight := rfl
@[simp] theorem raise_cfgBpp (e : ErrCode) (s : State) : (raise e s).cfgBpp = s.cfgBpp := rfl
@[simp] theorem raise_bytePos (e : ErrCode) (s : State) : (raise e s).bytePos = s.bytePos := rfl
@[simp] theorem raise_curByte (e : ErrCode) (s : State) : (raise e s).curByte = s.curByte := rfl
@[simp] theorem raise_bitCnt (e : ErrCode) (s : State) : (raise e s).bitCnt = s.bitCnt := rfl
@[simp] theorem raise_bfinal (e : ErrCode) (s : State) : (raise e s).bfinal = s.bfinal := rfl
@[simp] theorem raise_btype (e : ErrCode) (s : State) : (raise e s).btype = s.btype := rfl
@[simp] theorem raise_llLens (e : ErrCode) (s : State) : (raise e s).llLens = s.llLens := rfl
@[simp] theorem raise_dLens (e : ErrCode) (s : State) : (raise e s).dLens = s.dLens := rfl
@[simp] theorem raise_clLens (e : ErrCode) (s : State) : (raise e s).clLens = s.clLens := rfl
@[simp] theorem raise_tLL (e : ErrCode) (s : State) : (raise e s).tLL = s.tLL := rfl
@[simp] theorem raise_tD (e : ErrCode) (s : State) : (raise e s).tD = s.tD := rfl
@[simp] theorem raise_tCL (e : ErrCode) (s : State) : (raise e s).tCL = s.tCL := rfl
@[simp] theorem raise_hlit (e : ErrCode) (s : State) : (raise e s).hlit = s.hlit := rfl
@[simp] theorem raise_hdist (e : ErrCode) (s : State) : (raise e s).hdist = s.hdist := rfl
@[simp] theorem raise_hclen (e : ErrCode) (s : State) : (raise e s).hclen = s.hclen := rfl
@[simp] theorem raise_lenSeq (e : ErrCode) (s : State) : (raise e s).lenSeq = s.lenSeq := rfl
@[simp] theorem raise_nlens (e : ErrCode) (s : State) : (raise e s).nlens = s.nlens := rfl
@[simp] theorem raise_storedRem (e : ErrCode) (s : State) : (raise e s).storedRem = s.storedRem := rfl
@[simp] theorem raise_win (e : ErrCode) (s : State) : (raise e s).win = s.win := rfl
@[simp] theorem raise_wpos (e : ErrCode) (s : State) : (raise e s).wpos = s.wpos := rfl
@[simp] theorem raise_produced (e : ErrCode) (s : State) : (raise e s).produced = s.produced := rfl
@[simp] theorem raise_latW (e : ErrCode) (s : State) : (raise e s).latW = s.latW := rfl
@[simp] theorem raise_latH (e : ErrCode) (s : State) : (raise e s).latH = s.latH := rfl
@[simp] theorem raise_latB (e : ErrCode) (s : State) : (raise e s).latB = s.latB := rfl
@[simp] theorem raise_y (e : ErrCode) (s : State) : (raise e s).y = s.y := rfl
@[simp] theorem raise_rowPos (e : ErrCode) (s : State) : (raise e s).rowPos = s.rowPos := rfl
@[simp] theorem raise_curF (e : ErrCode) (s : State) : (raise e s).curF = s.curF := rfl
@[simp] theorem raise_cur (e : ErrCode) (s : State) : (raise e s).cur = s.cur := rfl
@[simp] theorem raise_prev (e : ErrCode) (s : State) : (raise e s).prev = s.prev := rfl
@[simp] theorem raise_inMem (e : ErrCode) (s : State) : (raise e s).inMem = s.inMem := rfl
@[simp] theorem raise_inLen (e : ErrCode) (s : State) : (raise e s).inLen = s.inLen := rfl
@[simp] theorem raise_pix (e : ErrCode) (s : State) : (raise e s).pix = s.pix := rfl
@[simp] theorem raise_host (e : ErrCode) (s : State) : (raise e s).host = s.host := rfl
@[simp] theorem raise_rdata (e : ErrCode) (s : State) : (raise e s).rdata = s.rdata := rfl
@[simp] theorem raise_errCode (e : ErrCode) (s : State) : (raise e s).errCode = e := rfl
@[simp] theorem raise_errByte (e : ErrCode) (s : State) : (raise e s).errByte = s.bytePos := rfl
@[simp] theorem raise_errBit (e : ErrCode) (s : State) : (raise e s).errBit = s.bitCnt := rfl
@[simp] theorem raise_phase (e : ErrCode) (s : State) : (raise e s).phase = .error := rfl
@[simp] theorem raise_stage (e : ErrCode) (s : State) : (raise e s).stage = .start := rfl
@[simp] theorem raise_row (e : ErrCode) (s : State) : (raise e s).row = .clear := rfl

/-! ### endOfBlock -/

@[simp] theorem endOfBlock_prm (s : State) : (endOfBlock s).prm = s.prm := rfl
@[simp] theorem endOfBlock_cfgWidth (s : State) : (endOfBlock s).cfgWidth = s.cfgWidth := rfl
@[simp] theorem endOfBlock_cfgHeight (s : State) : (endOfBlock s).cfgHeight = s.cfgHeight := rfl
@[simp] theorem endOfBlock_cfgBpp (s : State) : (endOfBlock s).cfgBpp = s.cfgBpp := rfl
@[simp] theorem endOfBlock_errCode (s : State) : (endOfBlock s).errCode = s.errCode := rfl
@[simp] theorem endOfBlock_errByte (s : State) : (endOfBlock s).errByte = s.errByte := rfl
@[simp] theorem endOfBlock_errBit (s : State) : (endOfBlock s).errBit = s.errBit := rfl
@[simp] theorem endOfBlock_bytePos (s : State) : (endOfBlock s).bytePos = s.bytePos := rfl
@[simp] theorem endOfBlock_curByte (s : State) : (endOfBlock s).curByte = s.curByte := rfl
@[simp] theorem endOfBlock_bitCnt (s : State) : (endOfBlock s).bitCnt = s.bitCnt := rfl
@[simp] theorem endOfBlock_row (s : State) : (endOfBlock s).row = s.row := rfl
@[simp] theorem endOfBlock_bfinal (s : State) : (endOfBlock s).bfinal = s.bfinal := rfl
@[simp] theorem endOfBlock_btype (s : State) : (endOfBlock s).btype = s.btype := rfl
@[simp] theorem endOfBlock_llLens (s : State) : (endOfBlock s).llLens = s.llLens := rfl
@[simp] theorem endOfBlock_dLens (s : State) : (endOfBlock s).dLens = s.dLens := rfl
@[simp] theorem endOfBlock_clLens (s : State) : (endOfBlock s).clLens = s.clLens := rfl
@[simp] theorem endOfBlock_tLL (s : State) : (endOfBlock s).tLL = s.tLL := rfl
@[simp] theorem endOfBlock_tD (s : State) : (endOfBlock s).tD = s.tD := rfl
@[simp] theorem endOfBlock_tCL (s : State) : (endOfBlock s).tCL = s.tCL := rfl
@[simp] theorem endOfBlock_hlit (s : State) : (endOfBlock s).hlit = s.hlit := rfl
@[simp] theorem endOfBlock_hdist (s : State) : (endOfBlock s).hdist = s.hdist := rfl
@[simp] theorem endOfBlock_hclen (s : State) : (endOfBlock s).hclen = s.hclen := rfl
@[simp] theorem endOfBlock_lenSeq (s : State) : (endOfBlock s).lenSeq = s.lenSeq := rfl
@[simp] theorem endOfBlock_nlens (s : State) : (endOfBlock s).nlens = s.nlens := rfl
@[simp] theorem endOfBlock_storedRem (s : State) : (endOfBlock s).storedRem = s.storedRem := rfl
@[simp] theorem endOfBlock_win (s : State) : (endOfBlock s).win = s.win := rfl
@[simp] theorem endOfBlock_wpos (s : State) : (endOfBlock s).wpos = s.wpos := rfl
@[simp] theorem endOfBlock_produced (s : State) : (endOfBlock s).produced = s.produced := rfl
@[simp] theorem endOfBlock_latW (s : State) : (endOfBlock s).latW = s.latW := rfl
@[simp] theorem endOfBlock_latH (s : State) : (endOfBlock s).latH = s.latH := rfl
@[simp] theorem endOfBlock_latB (s : State) : (endOfBlock s).latB = s.latB := rfl
@[simp] theorem endOfBlock_y (s : State) : (endOfBlock s).y = s.y := rfl
@[simp] theorem endOfBlock_rowPos (s : State) : (endOfBlock s).rowPos = s.rowPos := rfl
@[simp] theorem endOfBlock_curF (s : State) : (endOfBlock s).curF = s.curF := rfl
@[simp] theorem endOfBlock_cur (s : State) : (endOfBlock s).cur = s.cur := rfl
@[simp] theorem endOfBlock_prev (s : State) : (endOfBlock s).prev = s.prev := rfl
@[simp] theorem endOfBlock_inMem (s : State) : (endOfBlock s).inMem = s.inMem := rfl
@[simp] theorem endOfBlock_inLen (s : State) : (endOfBlock s).inLen = s.inLen := rfl
@[simp] theorem endOfBlock_pix (s : State) : (endOfBlock s).pix = s.pix := rfl
@[simp] theorem endOfBlock_host (s : State) : (endOfBlock s).host = s.host := rfl
@[simp] theorem endOfBlock_rdata (s : State) : (endOfBlock s).rdata = s.rdata := rfl
@[simp] theorem endOfBlock_phase (s : State) : (endOfBlock s).phase = if s.bfinal = 1 then .finish else .blockHeader := rfl
@[simp] theorem endOfBlock_stage (s : State) : (endOfBlock s).stage = .start := rfl

/-! ### pushWindow -/

@[simp] theorem pushWindow_prm (b : Byte) (s : State) : (pushWindow b s).prm = s.prm := rfl
@[simp] theorem pushWindow_cfgWidth (b : Byte) (s : State) : (pushWindow b s).cfgWidth = s.cfgWidth := rfl
@[simp] theorem pushWindow_cfgHeight (b : Byte) (s : State) : (pushWindow b s).cfgHeight = s.cfgHeight := rfl
@[simp] theorem pushWindow_cfgBpp (b : Byte) (s : State) : (pushWindow b s).cfgBpp = s.cfgBpp := rfl
@[simp] theorem pushWindow_errCode (b : Byte) (s : State) : (pushWindow b s).errCode = s.errCode := rfl
@[simp] theorem pushWindow_errByte (b : Byte) (s : State) : (pushWindow b s).errByte = s.errByte := rfl
@[simp] theorem pushWindow_errBit (b : Byte) (s : State) : (pushWindow b s).errBit = s.errBit := rfl
@[simp] theorem pushWindow_bytePos (b : Byte) (s : State) : (pushWindow b s).bytePos = s.bytePos := rfl
@[simp] theorem pushWindow_curByte (b : Byte) (s : State) : (pushWindow b s).curByte = s.curByte := rfl
@[simp] theorem pushWindow_bitCnt (b : Byte) (s : State) : (pushWindow b s).bitCnt = s.bitCnt := rfl
@[simp] theorem pushWindow_phase (b : Byte) (s : State) : (pushWindow b s).phase = s.phase := rfl
@[simp] theorem pushWindow_stage (b : Byte) (s : State) : (pushWindow b s).stage = s.stage := rfl
@[simp] theorem pushWindow_row (b : Byte) (s : State) : (pushWindow b s).row = s.row := rfl
@[simp] theorem pushWindow_bfinal (b : Byte) (s : State) : (pushWindow b s).bfinal = s.bfinal := rfl
@[simp] theorem pushWindow_btype (b : Byte) (s : State) : (pushWindow b s).btype = s.btype := rfl
@[simp] theorem pushWindow_llLens (b : Byte) (s : State) : (pushWindow b s).llLens = s.llLens := rfl
@[simp] theorem pushWindow_dLens (b : Byte) (s : State) : (pushWindow b s).dLens = s.dLens := rfl
@[simp] theorem pushWindow_clLens (b : Byte) (s : State) : (pushWindow b s).clLens = s.clLens := rfl
@[simp] theorem pushWindow_tLL (b : Byte) (s : State) : (pushWindow b s).tLL = s.tLL := rfl
@[simp] theorem pushWindow_tD (b : Byte) (s : State) : (pushWindow b s).tD = s.tD := rfl
@[simp] theorem pushWindow_tCL (b : Byte) (s : State) : (pushWindow b s).tCL = s.tCL := rfl
@[simp] theorem pushWindow_hlit (b : Byte) (s : State) : (pushWindow b s).hlit = s.hlit := rfl
@[simp] theorem pushWindow_hdist (b : Byte) (s : State) : (pushWindow b s).hdist = s.hdist := rfl
@[simp] theorem pushWindow_hclen (b : Byte) (s : State) : (pushWindow b s).hclen = s.hclen := rfl
@[simp] theorem pushWindow_lenSeq (b : Byte) (s : State) : (pushWindow b s).lenSeq = s.lenSeq := rfl
@[simp] theorem pushWindow_nlens (b : Byte) (s : State) : (pushWindow b s).nlens = s.nlens := rfl
@[simp] theorem pushWindow_storedRem (b : Byte) (s : State) : (pushWindow b s).storedRem = s.storedRem := rfl
@[simp] theorem pushWindow_latW (b : Byte) (s : State) : (pushWindow b s).latW = s.latW := rfl
@[simp] theorem pushWindow_latH (b : Byte) (s : State) : (pushWindow b s).latH = s.latH := rfl
@[simp] theorem pushWindow_latB (b : Byte) (s : State) : (pushWindow b s).latB = s.latB := rfl
@[simp] theorem pushWindow_y (b : Byte) (s : State) : (pushWindow b s).y = s.y := rfl
@[simp] theorem pushWindow_rowPos (b : Byte) (s : State) : (pushWindow b s).rowPos = s.rowPos := rfl
@[simp] theorem pushWindow_curF (b : Byte) (s : State) : (pushWindow b s).curF = s.curF := rfl
@[simp] theorem pushWindow_cur (b : Byte) (s : State) : (pushWindow b s).cur = s.cur := rfl
@[simp] theorem pushWindow_prev (b : Byte) (s : State) : (pushWindow b s).prev = s.prev := rfl
@[simp] theorem pushWindow_inMem (b : Byte) (s : State) : (pushWindow b s).inMem = s.inMem := rfl
@[simp] theorem pushWindow_inLen (b : Byte) (s : State) : (pushWindow b s).inLen = s.inLen := rfl
@[simp] theorem pushWindow_pix (b : Byte) (s : State) : (pushWindow b s).pix = s.pix := rfl
@[simp] theorem pushWindow_host (b : Byte) (s : State) : (pushWindow b s).host = s.host := rfl
@[simp] theorem pushWindow_rdata (b : Byte) (s : State) : (pushWindow b s).rdata = s.rdata := rfl
@[simp] theorem pushWindow_win (b : Byte) (s : State) : (pushWindow b s).win = s.win.write s.wpos.toNat b := rfl
@[simp] theorem pushWindow_wpos (b : Byte) (s : State) : (pushWindow b s).wpos = s.wpos + 1 := rfl
@[simp] theorem pushWindow_produced (b : Byte) (s : State) : (pushWindow b s).produced = s.produced + 1 := rfl

/-! ### acceptFilter -/

@[simp] theorem acceptFilter_prm (f : FilterType) (s : State) : (acceptFilter f s).prm = s.prm := rfl
@[simp] theorem acceptFilter_cfgWidth (f : FilterType) (s : State) : (acceptFilter f s).cfgWidth = s.cfgWidth := rfl
@[simp] theorem acceptFilter_cfgHeight (f : FilterType) (s : State) : (acceptFilter f s).cfgHeight = s.cfgHeight := rfl
@[simp] theorem acceptFilter_cfgBpp (f : FilterType) (s : State) : (acceptFilter f s).cfgBpp = s.cfgBpp := rfl
@[simp] theorem acceptFilter_errCode (f : FilterType) (s : State) : (acceptFilter f s).errCode = s.errCode := rfl
@[simp] theorem acceptFilter_errByte (f : FilterType) (s : State) : (acceptFilter f s).errByte = s.errByte := rfl
@[simp] theorem acceptFilter_errBit (f : FilterType) (s : State) : (acceptFilter f s).errBit = s.errBit := rfl
@[simp] theorem acceptFilter_bytePos (f : FilterType) (s : State) : (acceptFilter f s).bytePos = s.bytePos := rfl
@[simp] theorem acceptFilter_curByte (f : FilterType) (s : State) : (acceptFilter f s).curByte = s.curByte := rfl
@[simp] theorem acceptFilter_bitCnt (f : FilterType) (s : State) : (acceptFilter f s).bitCnt = s.bitCnt := rfl
@[simp] theorem acceptFilter_phase (f : FilterType) (s : State) : (acceptFilter f s).phase = s.phase := rfl
@[simp] theorem acceptFilter_stage (f : FilterType) (s : State) : (acceptFilter f s).stage = s.stage := rfl
@[simp] theorem acceptFilter_bfinal (f : FilterType) (s : State) : (acceptFilter f s).bfinal = s.bfinal := rfl
@[simp] theorem acceptFilter_btype (f : FilterType) (s : State) : (acceptFilter f s).btype = s.btype := rfl
@[simp] theorem acceptFilter_llLens (f : FilterType) (s : State) : (acceptFilter f s).llLens = s.llLens := rfl
@[simp] theorem acceptFilter_dLens (f : FilterType) (s : State) : (acceptFilter f s).dLens = s.dLens := rfl
@[simp] theorem acceptFilter_clLens (f : FilterType) (s : State) : (acceptFilter f s).clLens = s.clLens := rfl
@[simp] theorem acceptFilter_tLL (f : FilterType) (s : State) : (acceptFilter f s).tLL = s.tLL := rfl
@[simp] theorem acceptFilter_tD (f : FilterType) (s : State) : (acceptFilter f s).tD = s.tD := rfl
@[simp] theorem acceptFilter_tCL (f : FilterType) (s : State) : (acceptFilter f s).tCL = s.tCL := rfl
@[simp] theorem acceptFilter_hlit (f : FilterType) (s : State) : (acceptFilter f s).hlit = s.hlit := rfl
@[simp] theorem acceptFilter_hdist (f : FilterType) (s : State) : (acceptFilter f s).hdist = s.hdist := rfl
@[simp] theorem acceptFilter_hclen (f : FilterType) (s : State) : (acceptFilter f s).hclen = s.hclen := rfl
@[simp] theorem acceptFilter_lenSeq (f : FilterType) (s : State) : (acceptFilter f s).lenSeq = s.lenSeq := rfl
@[simp] theorem acceptFilter_nlens (f : FilterType) (s : State) : (acceptFilter f s).nlens = s.nlens := rfl
@[simp] theorem acceptFilter_storedRem (f : FilterType) (s : State) : (acceptFilter f s).storedRem = s.storedRem := rfl
@[simp] theorem acceptFilter_win (f : FilterType) (s : State) : (acceptFilter f s).win = s.win := rfl
@[simp] theorem acceptFilter_wpos (f : FilterType) (s : State) : (acceptFilter f s).wpos = s.wpos := rfl
@[simp] theorem acceptFilter_produced (f : FilterType) (s : State) : (acceptFilter f s).produced = s.produced := rfl
@[simp] theorem acceptFilter_latW (f : FilterType) (s : State) : (acceptFilter f s).latW = s.latW := rfl
@[simp] theorem acceptFilter_latH (f : FilterType) (s : State) : (acceptFilter f s).latH = s.latH := rfl
@[simp] theorem acceptFilter_latB (f : FilterType) (s : State) : (acceptFilter f s).latB = s.latB := rfl
@[simp] theorem acceptFilter_y (f : FilterType) (s : State) : (acceptFilter f s).y = s.y := rfl
@[simp] theorem acceptFilter_cur (f : FilterType) (s : State) : (acceptFilter f s).cur = s.cur := rfl
@[simp] theorem acceptFilter_prev (f : FilterType) (s : State) : (acceptFilter f s).prev = s.prev := rfl
@[simp] theorem acceptFilter_inMem (f : FilterType) (s : State) : (acceptFilter f s).inMem = s.inMem := rfl
@[simp] theorem acceptFilter_inLen (f : FilterType) (s : State) : (acceptFilter f s).inLen = s.inLen := rfl
@[simp] theorem acceptFilter_pix (f : FilterType) (s : State) : (acceptFilter f s).pix = s.pix := rfl
@[simp] theorem acceptFilter_host (f : FilterType) (s : State) : (acceptFilter f s).host = s.host := rfl
@[simp] theorem acceptFilter_rdata (f : FilterType) (s : State) : (acceptFilter f s).rdata = s.rdata := rfl
@[simp] theorem acceptFilter_curF (f : FilterType) (s : State) : (acceptFilter f s).curF = f := rfl
@[simp] theorem acceptFilter_rowPos (f : FilterType) (s : State) : (acceptFilter f s).rowPos = 1 := rfl
@[simp] theorem acceptFilter_row (f : FilterType) (s : State) : (acceptFilter f s).row = .clear := rfl

/-! ### pushLen -/

@[simp] theorem pushLen_prm (v : Nat) (s : State) : (pushLen v s).prm = s.prm := rfl
@[simp] theorem pushLen_cfgWidth (v : Nat) (s : State) : (pushLen v s).cfgWidth = s.cfgWidth := rfl
@[simp] theorem pushLen_cfgHeight (v : Nat) (s : State) : (pushLen v s).cfgHeight = s.cfgHeight := rfl
@[simp] theorem pushLen_cfgBpp (v : Nat) (s : State) : (pushLen v s).cfgBpp = s.cfgBpp := rfl
@[simp] theorem pushLen_errCode (v : Nat) (s : State) : (pushLen v s).errCode = s.errCode := rfl
@[simp] theorem pushLen_errByte (v : Nat) (s : State) : (pushLen v s).errByte = s.errByte := rfl
@[simp] theorem pushLen_errBit (v : Nat) (s : State) : (pushLen v s).errBit = s.errBit := rfl
@[simp] theorem pushLen_bytePos (v : Nat) (s : State) : (pushLen v s).bytePos = s.bytePos := rfl
@[simp] theorem pushLen_curByte (v : Nat) (s : State) : (pushLen v s).curByte = s.curByte := rfl
@[simp] theorem pushLen_bitCnt (v : Nat) (s : State) : (pushLen v s).bitCnt = s.bitCnt := rfl
@[simp] theorem pushLen_phase (v : Nat) (s : State) : (pushLen v s).phase = s.phase := rfl
@[simp] theorem pushLen_stage (v : Nat) (s : State) : (pushLen v s).stage = s.stage := rfl
@[simp] theorem pushLen_row (v : Nat) (s : State) : (pushLen v s).row = s.row := rfl
@[simp] theorem pushLen_bfinal (v : Nat) (s : State) : (pushLen v s).bfinal = s.bfinal := rfl
@[simp] theorem pushLen_btype (v : Nat) (s : State) : (pushLen v s).btype = s.btype := rfl
@[simp] theorem pushLen_llLens (v : Nat) (s : State) : (pushLen v s).llLens = s.llLens := rfl
@[simp] theorem pushLen_dLens (v : Nat) (s : State) : (pushLen v s).dLens = s.dLens := rfl
@[simp] theorem pushLen_clLens (v : Nat) (s : State) : (pushLen v s).clLens = s.clLens := rfl
@[simp] theorem pushLen_tLL (v : Nat) (s : State) : (pushLen v s).tLL = s.tLL := rfl
@[simp] theorem pushLen_tD (v : Nat) (s : State) : (pushLen v s).tD = s.tD := rfl
@[simp] theorem pushLen_tCL (v : Nat) (s : State) : (pushLen v s).tCL = s.tCL := rfl
@[simp] theorem pushLen_hlit (v : Nat) (s : State) : (pushLen v s).hlit = s.hlit := rfl
@[simp] theorem pushLen_hdist (v : Nat) (s : State) : (pushLen v s).hdist = s.hdist := rfl
@[simp] theorem pushLen_hclen (v : Nat) (s : State) : (pushLen v s).hclen = s.hclen := rfl
@[simp] theorem pushLen_storedRem (v : Nat) (s : State) : (pushLen v s).storedRem = s.storedRem := rfl
@[simp] theorem pushLen_win (v : Nat) (s : State) : (pushLen v s).win = s.win := rfl
@[simp] theorem pushLen_wpos (v : Nat) (s : State) : (pushLen v s).wpos = s.wpos := rfl
@[simp] theorem pushLen_produced (v : Nat) (s : State) : (pushLen v s).produced = s.produced := rfl
@[simp] theorem pushLen_latW (v : Nat) (s : State) : (pushLen v s).latW = s.latW := rfl
@[simp] theorem pushLen_latH (v : Nat) (s : State) : (pushLen v s).latH = s.latH := rfl
@[simp] theorem pushLen_latB (v : Nat) (s : State) : (pushLen v s).latB = s.latB := rfl
@[simp] theorem pushLen_y (v : Nat) (s : State) : (pushLen v s).y = s.y := rfl
@[simp] theorem pushLen_rowPos (v : Nat) (s : State) : (pushLen v s).rowPos = s.rowPos := rfl
@[simp] theorem pushLen_curF (v : Nat) (s : State) : (pushLen v s).curF = s.curF := rfl
@[simp] theorem pushLen_cur (v : Nat) (s : State) : (pushLen v s).cur = s.cur := rfl
@[simp] theorem pushLen_prev (v : Nat) (s : State) : (pushLen v s).prev = s.prev := rfl
@[simp] theorem pushLen_inMem (v : Nat) (s : State) : (pushLen v s).inMem = s.inMem := rfl
@[simp] theorem pushLen_inLen (v : Nat) (s : State) : (pushLen v s).inLen = s.inLen := rfl
@[simp] theorem pushLen_pix (v : Nat) (s : State) : (pushLen v s).pix = s.pix := rfl
@[simp] theorem pushLen_host (v : Nat) (s : State) : (pushLen v s).host = s.host := rfl
@[simp] theorem pushLen_rdata (v : Nat) (s : State) : (pushLen v s).rdata = s.rdata := rfl
@[simp] theorem pushLen_lenSeq (v : Nat) (s : State) : (pushLen v s).lenSeq = s.lenSeq.set s.nlens v := rfl
@[simp] theorem pushLen_nlens (v : Nat) (s : State) : (pushLen v s).nlens = s.nlens + 1 := rfl

/-! ### selectFixed -/

@[simp] theorem selectFixed_prm (s : State) : (selectFixed s).prm = s.prm := rfl
@[simp] theorem selectFixed_cfgWidth (s : State) : (selectFixed s).cfgWidth = s.cfgWidth := rfl
@[simp] theorem selectFixed_cfgHeight (s : State) : (selectFixed s).cfgHeight = s.cfgHeight := rfl
@[simp] theorem selectFixed_cfgBpp (s : State) : (selectFixed s).cfgBpp = s.cfgBpp := rfl
@[simp] theorem selectFixed_errCode (s : State) : (selectFixed s).errCode = s.errCode := rfl
@[simp] theorem selectFixed_errByte (s : State) : (selectFixed s).errByte = s.errByte := rfl
@[simp] theorem selectFixed_errBit (s : State) : (selectFixed s).errBit = s.errBit := rfl
@[simp] theorem selectFixed_bytePos (s : State) : (selectFixed s).bytePos = s.bytePos := rfl
@[simp] theorem selectFixed_curByte (s : State) : (selectFixed s).curByte = s.curByte := rfl
@[simp] theorem selectFixed_bitCnt (s : State) : (selectFixed s).bitCnt = s.bitCnt := rfl
@[simp] theorem selectFixed_row (s : State) : (selectFixed s).row = s.row := rfl
@[simp] theorem selectFixed_bfinal (s : State) : (selectFixed s).bfinal = s.bfinal := rfl
@[simp] theorem selectFixed_btype (s : State) : (selectFixed s).btype = s.btype := rfl
@[simp] theorem selectFixed_llLens (s : State) : (selectFixed s).llLens = s.llLens := rfl
@[simp] theorem selectFixed_dLens (s : State) : (selectFixed s).dLens = s.dLens := rfl
@[simp] theorem selectFixed_clLens (s : State) : (selectFixed s).clLens = s.clLens := rfl
@[simp] theorem selectFixed_tCL (s : State) : (selectFixed s).tCL = s.tCL := rfl
@[simp] theorem selectFixed_hlit (s : State) : (selectFixed s).hlit = s.hlit := rfl
@[simp] theorem selectFixed_hdist (s : State) : (selectFixed s).hdist = s.hdist := rfl
@[simp] theorem selectFixed_hclen (s : State) : (selectFixed s).hclen = s.hclen := rfl
@[simp] theorem selectFixed_lenSeq (s : State) : (selectFixed s).lenSeq = s.lenSeq := rfl
@[simp] theorem selectFixed_nlens (s : State) : (selectFixed s).nlens = s.nlens := rfl
@[simp] theorem selectFixed_storedRem (s : State) : (selectFixed s).storedRem = s.storedRem := rfl
@[simp] theorem selectFixed_win (s : State) : (selectFixed s).win = s.win := rfl
@[simp] theorem selectFixed_wpos (s : State) : (selectFixed s).wpos = s.wpos := rfl
@[simp] theorem selectFixed_produced (s : State) : (selectFixed s).produced = s.produced := rfl
@[simp] theorem selectFixed_latW (s : State) : (selectFixed s).latW = s.latW := rfl
@[simp] theorem selectFixed_latH (s : State) : (selectFixed s).latH = s.latH := rfl
@[simp] theorem selectFixed_latB (s : State) : (selectFixed s).latB = s.latB := rfl
@[simp] theorem selectFixed_y (s : State) : (selectFixed s).y = s.y := rfl
@[simp] theorem selectFixed_rowPos (s : State) : (selectFixed s).rowPos = s.rowPos := rfl
@[simp] theorem selectFixed_curF (s : State) : (selectFixed s).curF = s.curF := rfl
@[simp] theorem selectFixed_cur (s : State) : (selectFixed s).cur = s.cur := rfl
@[simp] theorem selectFixed_prev (s : State) : (selectFixed s).prev = s.prev := rfl
@[simp] theorem selectFixed_inMem (s : State) : (selectFixed s).inMem = s.inMem := rfl
@[simp] theorem selectFixed_inLen (s : State) : (selectFixed s).inLen = s.inLen := rfl
@[simp] theorem selectFixed_pix (s : State) : (selectFixed s).pix = s.pix := rfl
@[simp] theorem selectFixed_host (s : State) : (selectFixed s).host = s.host := rfl
@[simp] theorem selectFixed_rdata (s : State) : (selectFixed s).rdata = s.rdata := rfl
@[simp] theorem selectFixed_tLL (s : State) : (selectFixed s).tLL = fixedLL := rfl
@[simp] theorem selectFixed_tD (s : State) : (selectFixed s).tD = fixedD := rfl
@[simp] theorem selectFixed_phase (s : State) : (selectFixed s).phase = .symbols := rfl
@[simp] theorem selectFixed_stage (s : State) : (selectFixed s).stage = .start := rfl

/-! ### buildCl -/

@[simp] theorem buildCl_prm (s : State) : (buildCl s).prm = s.prm := rfl
@[simp] theorem buildCl_cfgWidth (s : State) : (buildCl s).cfgWidth = s.cfgWidth := rfl
@[simp] theorem buildCl_cfgHeight (s : State) : (buildCl s).cfgHeight = s.cfgHeight := rfl
@[simp] theorem buildCl_cfgBpp (s : State) : (buildCl s).cfgBpp = s.cfgBpp := rfl
@[simp] theorem buildCl_errCode (s : State) : (buildCl s).errCode = s.errCode := rfl
@[simp] theorem buildCl_errByte (s : State) : (buildCl s).errByte = s.errByte := rfl
@[simp] theorem buildCl_errBit (s : State) : (buildCl s).errBit = s.errBit := rfl
@[simp] theorem buildCl_bytePos (s : State) : (buildCl s).bytePos = s.bytePos := rfl
@[simp] theorem buildCl_curByte (s : State) : (buildCl s).curByte = s.curByte := rfl
@[simp] theorem buildCl_bitCnt (s : State) : (buildCl s).bitCnt = s.bitCnt := rfl
@[simp] theorem buildCl_phase (s : State) : (buildCl s).phase = s.phase := rfl
@[simp] theorem buildCl_row (s : State) : (buildCl s).row = s.row := rfl
@[simp] theorem buildCl_bfinal (s : State) : (buildCl s).bfinal = s.bfinal := rfl
@[simp] theorem buildCl_btype (s : State) : (buildCl s).btype = s.btype := rfl
@[simp] theorem buildCl_llLens (s : State) : (buildCl s).llLens = s.llLens := rfl
@[simp] theorem buildCl_dLens (s : State) : (buildCl s).dLens = s.dLens := rfl
@[simp] theorem buildCl_clLens (s : State) : (buildCl s).clLens = s.clLens := rfl
@[simp] theorem buildCl_tLL (s : State) : (buildCl s).tLL = s.tLL := rfl
@[simp] theorem buildCl_tD (s : State) : (buildCl s).tD = s.tD := rfl
@[simp] theorem buildCl_hlit (s : State) : (buildCl s).hlit = s.hlit := rfl
@[simp] theorem buildCl_hdist (s : State) : (buildCl s).hdist = s.hdist := rfl
@[simp] theorem buildCl_hclen (s : State) : (buildCl s).hclen = s.hclen := rfl
@[simp] theorem buildCl_lenSeq (s : State) : (buildCl s).lenSeq = s.lenSeq := rfl
@[simp] theorem buildCl_storedRem (s : State) : (buildCl s).storedRem = s.storedRem := rfl
@[simp] theorem buildCl_win (s : State) : (buildCl s).win = s.win := rfl
@[simp] theorem buildCl_wpos (s : State) : (buildCl s).wpos = s.wpos := rfl
@[simp] theorem buildCl_produced (s : State) : (buildCl s).produced = s.produced := rfl
@[simp] theorem buildCl_latW (s : State) : (buildCl s).latW = s.latW := rfl
@[simp] theorem buildCl_latH (s : State) : (buildCl s).latH = s.latH := rfl
@[simp] theorem buildCl_latB (s : State) : (buildCl s).latB = s.latB := rfl
@[simp] theorem buildCl_y (s : State) : (buildCl s).y = s.y := rfl
@[simp] theorem buildCl_rowPos (s : State) : (buildCl s).rowPos = s.rowPos := rfl
@[simp] theorem buildCl_curF (s : State) : (buildCl s).curF = s.curF := rfl
@[simp] theorem buildCl_cur (s : State) : (buildCl s).cur = s.cur := rfl
@[simp] theorem buildCl_prev (s : State) : (buildCl s).prev = s.prev := rfl
@[simp] theorem buildCl_inMem (s : State) : (buildCl s).inMem = s.inMem := rfl
@[simp] theorem buildCl_inLen (s : State) : (buildCl s).inLen = s.inLen := rfl
@[simp] theorem buildCl_pix (s : State) : (buildCl s).pix = s.pix := rfl
@[simp] theorem buildCl_host (s : State) : (buildCl s).host = s.host := rfl
@[simp] theorem buildCl_rdata (s : State) : (buildCl s).rdata = s.rdata := rfl
@[simp] theorem buildCl_tCL (s : State) : (buildCl s).tCL = build s.clLens := rfl
@[simp] theorem buildCl_nlens (s : State) : (buildCl s).nlens = 0 := rfl
@[simp] theorem buildCl_stage (s : State) : (buildCl s).stage = .clTokens := rfl

/-! ### buildTables -/

@[simp] theorem buildTables_prm (s : State) : (buildTables s).prm = s.prm := rfl
@[simp] theorem buildTables_cfgWidth (s : State) : (buildTables s).cfgWidth = s.cfgWidth := rfl
@[simp] theorem buildTables_cfgHeight (s : State) : (buildTables s).cfgHeight = s.cfgHeight := rfl
@[simp] theorem buildTables_cfgBpp (s : State) : (buildTables s).cfgBpp = s.cfgBpp := rfl
@[simp] theorem buildTables_errCode (s : State) : (buildTables s).errCode = s.errCode := rfl
@[simp] theorem buildTables_errByte (s : State) : (buildTables s).errByte = s.errByte := rfl
@[simp] theorem buildTables_errBit (s : State) : (buildTables s).errBit = s.errBit := rfl
@[simp] theorem buildTables_bytePos (s : State) : (buildTables s).bytePos = s.bytePos := rfl
@[simp] theorem buildTables_curByte (s : State) : (buildTables s).curByte = s.curByte := rfl
@[simp] theorem buildTables_bitCnt (s : State) : (buildTables s).bitCnt = s.bitCnt := rfl
@[simp] theorem buildTables_row (s : State) : (buildTables s).row = s.row := rfl
@[simp] theorem buildTables_bfinal (s : State) : (buildTables s).bfinal = s.bfinal := rfl
@[simp] theorem buildTables_btype (s : State) : (buildTables s).btype = s.btype := rfl
@[simp] theorem buildTables_clLens (s : State) : (buildTables s).clLens = s.clLens := rfl
@[simp] theorem buildTables_tCL (s : State) : (buildTables s).tCL = s.tCL := rfl
@[simp] theorem buildTables_hlit (s : State) : (buildTables s).hlit = s.hlit := rfl
@[simp] theorem buildTables_hdist (s : State) : (buildTables s).hdist = s.hdist := rfl
@[simp] theorem buildTables_hclen (s : State) : (buildTables s).hclen = s.hclen := rfl
@[simp] theorem buildTables_lenSeq (s : State) : (buildTables s).lenSeq = s.lenSeq := rfl
@[simp] theorem buildTables_nlens (s : State) : (buildTables s).nlens = s.nlens := rfl
@[simp] theorem buildTables_storedRem (s : State) : (buildTables s).storedRem = s.storedRem := rfl
@[simp] theorem buildTables_win (s : State) : (buildTables s).win = s.win := rfl
@[simp] theorem buildTables_wpos (s : State) : (buildTables s).wpos = s.wpos := rfl
@[simp] theorem buildTables_produced (s : State) : (buildTables s).produced = s.produced := rfl
@[simp] theorem buildTables_latW (s : State) : (buildTables s).latW = s.latW := rfl
@[simp] theorem buildTables_latH (s : State) : (buildTables s).latH = s.latH := rfl
@[simp] theorem buildTables_latB (s : State) : (buildTables s).latB = s.latB := rfl
@[simp] theorem buildTables_y (s : State) : (buildTables s).y = s.y := rfl
@[simp] theorem buildTables_rowPos (s : State) : (buildTables s).rowPos = s.rowPos := rfl
@[simp] theorem buildTables_curF (s : State) : (buildTables s).curF = s.curF := rfl
@[simp] theorem buildTables_cur (s : State) : (buildTables s).cur = s.cur := rfl
@[simp] theorem buildTables_prev (s : State) : (buildTables s).prev = s.prev := rfl
@[simp] theorem buildTables_inMem (s : State) : (buildTables s).inMem = s.inMem := rfl
@[simp] theorem buildTables_inLen (s : State) : (buildTables s).inLen = s.inLen := rfl
@[simp] theorem buildTables_pix (s : State) : (buildTables s).pix = s.pix := rfl
@[simp] theorem buildTables_host (s : State) : (buildTables s).host = s.host := rfl
@[simp] theorem buildTables_rdata (s : State) : (buildTables s).rdata = s.rdata := rfl
@[simp] theorem buildTables_llLens (s : State) : (buildTables s).llLens = splitLL s := rfl
@[simp] theorem buildTables_dLens (s : State) : (buildTables s).dLens = splitD s := rfl
@[simp] theorem buildTables_tLL (s : State) : (buildTables s).tLL = build (splitLL s) := rfl
@[simp] theorem buildTables_tD (s : State) : (buildTables s).tD = build (splitD s) := rfl
@[simp] theorem buildTables_phase (s : State) : (buildTables s).phase = .symbols := rfl
@[simp] theorem buildTables_stage (s : State) : (buildTables s).stage = .start := rfl

/-! ### resetCore -/

@[simp] theorem resetCore_prm (s : State) : (resetCore s).prm = s.prm := rfl
@[simp] theorem resetCore_cfgWidth (s : State) : (resetCore s).cfgWidth = 0 := rfl
@[simp] theorem resetCore_cfgHeight (s : State) : (resetCore s).cfgHeight = 0 := rfl
@[simp] theorem resetCore_cfgBpp (s : State) : (resetCore s).cfgBpp = 0 := rfl
@[simp] theorem resetCore_errCode (s : State) : (resetCore s).errCode = .none := rfl
@[simp] theorem resetCore_errByte (s : State) : (resetCore s).errByte = 0 := rfl
@[simp] theorem resetCore_errBit (s : State) : (resetCore s).errBit = 0 := rfl
@[simp] theorem resetCore_bytePos (s : State) : (resetCore s).bytePos = 0 := rfl
@[simp] theorem resetCore_curByte (s : State) : (resetCore s).curByte = 0 := rfl
@[simp] theorem resetCore_bitCnt (s : State) : (resetCore s).bitCnt = 0 := rfl
@[simp] theorem resetCore_phase (s : State) : (resetCore s).phase = .idle := rfl
@[simp] theorem resetCore_stage (s : State) : (resetCore s).stage = .start := rfl
@[simp] theorem resetCore_row (s : State) : (resetCore s).row = .clear := rfl
@[simp] theorem resetCore_bfinal (s : State) : (resetCore s).bfinal = 0 := rfl
@[simp] theorem resetCore_btype (s : State) : (resetCore s).btype = 0 := rfl
@[simp] theorem resetCore_llLens (s : State) : (resetCore s).llLens = List.replicate 288 0 := rfl
@[simp] theorem resetCore_dLens (s : State) : (resetCore s).dLens = List.replicate 32 0 := rfl
@[simp] theorem resetCore_clLens (s : State) : (resetCore s).clLens = List.replicate 19 0 := rfl
@[simp] theorem resetCore_tLL (s : State) : (resetCore s).tLL = emptyTable := rfl
@[simp] theorem resetCore_tD (s : State) : (resetCore s).tD = emptyTable := rfl
@[simp] theorem resetCore_tCL (s : State) : (resetCore s).tCL = emptyTable := rfl
@[simp] theorem resetCore_hlit (s : State) : (resetCore s).hlit = 0 := rfl
@[simp] theorem resetCore_hdist (s : State) : (resetCore s).hdist = 0 := rfl
@[simp] theorem resetCore_hclen (s : State) : (resetCore s).hclen = 0 := rfl
@[simp] theorem resetCore_lenSeq (s : State) : (resetCore s).lenSeq = List.replicate 320 0 := rfl
@[simp] theorem resetCore_nlens (s : State) : (resetCore s).nlens = 0 := rfl
@[simp] theorem resetCore_storedRem (s : State) : (resetCore s).storedRem = 0 := rfl
@[simp] theorem resetCore_win (s : State) : (resetCore s).win = [] := rfl
@[simp] theorem resetCore_wpos (s : State) : (resetCore s).wpos = 0 := rfl
@[simp] theorem resetCore_produced (s : State) : (resetCore s).produced = 0 := rfl
@[simp] theorem resetCore_latW (s : State) : (resetCore s).latW = 0 := rfl
@[simp] theorem resetCore_latH (s : State) : (resetCore s).latH = 0 := rfl
@[simp] theorem resetCore_latB (s : State) : (resetCore s).latB = 0 := rfl
@[simp] theorem resetCore_y (s : State) : (resetCore s).y = 0 := rfl
@[simp] theorem resetCore_rowPos (s : State) : (resetCore s).rowPos = 0 := rfl
@[simp] theorem resetCore_curF (s : State) : (resetCore s).curF = .none := rfl
@[simp] theorem resetCore_cur (s : State) : (resetCore s).cur = [] := rfl
@[simp] theorem resetCore_prev (s : State) : (resetCore s).prev = [] := rfl
@[simp] theorem resetCore_inMem (s : State) : (resetCore s).inMem = s.inMem := rfl
@[simp] theorem resetCore_inLen (s : State) : (resetCore s).inLen = s.inLen := rfl
@[simp] theorem resetCore_pix (s : State) : (resetCore s).pix = [] := rfl
@[simp] theorem resetCore_host (s : State) : (resetCore s).host = s.host := rfl
@[simp] theorem resetCore_rdata (s : State) : (resetCore s).rdata = s.rdata := rfl

/-! ### startDecode -/

@[simp] theorem startDecode_prm (s : State) : (startDecode s).prm = s.prm := rfl
@[simp] theorem startDecode_cfgWidth (s : State) : (startDecode s).cfgWidth = s.cfgWidth := rfl
@[simp] theorem startDecode_cfgHeight (s : State) : (startDecode s).cfgHeight = s.cfgHeight := rfl
@[simp] theorem startDecode_cfgBpp (s : State) : (startDecode s).cfgBpp = s.cfgBpp := rfl
@[simp] theorem startDecode_errCode (s : State) : (startDecode s).errCode = .none := rfl
@[simp] theorem startDecode_errByte (s : State) : (startDecode s).errByte = 0 := rfl
@[simp] theorem startDecode_errBit (s : State) : (startDecode s).errBit = 0 := rfl
@[simp] theorem startDecode_bytePos (s : State) : (startDecode s).bytePos = 0 := rfl
@[simp] theorem startDecode_curByte (s : State) : (startDecode s).curByte = 0 := rfl
@[simp] theorem startDecode_bitCnt (s : State) : (startDecode s).bitCnt = 0 := rfl
@[simp] theorem startDecode_phase (s : State) : (startDecode s).phase = .blockHeader := rfl
@[simp] theorem startDecode_stage (s : State) : (startDecode s).stage = .start := rfl
@[simp] theorem startDecode_row (s : State) : (startDecode s).row = .clear := rfl
@[simp] theorem startDecode_bfinal (s : State) : (startDecode s).bfinal = 0 := rfl
@[simp] theorem startDecode_btype (s : State) : (startDecode s).btype = 0 := rfl
@[simp] theorem startDecode_llLens (s : State) : (startDecode s).llLens = List.replicate 288 0 := rfl
@[simp] theorem startDecode_dLens (s : State) : (startDecode s).dLens = List.replicate 32 0 := rfl
@[simp] theorem startDecode_clLens (s : State) : (startDecode s).clLens = List.replicate 19 0 := rfl
@[simp] theorem startDecode_tLL (s : State) : (startDecode s).tLL = emptyTable := rfl
@[simp] theorem startDecode_tD (s : State) : (startDecode s).tD = emptyTable := rfl
@[simp] theorem startDecode_tCL (s : State) : (startDecode s).tCL = emptyTable := rfl
@[simp] theorem startDecode_hlit (s : State) : (startDecode s).hlit = 0 := rfl
@[simp] theorem startDecode_hdist (s : State) : (startDecode s).hdist = 0 := rfl
@[simp] theorem startDecode_hclen (s : State) : (startDecode s).hclen = 0 := rfl
@[simp] theorem startDecode_lenSeq (s : State) : (startDecode s).lenSeq = List.replicate 320 0 := rfl
@[simp] theorem startDecode_nlens (s : State) : (startDecode s).nlens = 0 := rfl
@[simp] theorem startDecode_storedRem (s : State) : (startDecode s).storedRem = 0 := rfl
@[simp] theorem startDecode_win (s : State) : (startDecode s).win = [] := rfl
@[simp] theorem startDecode_wpos (s : State) : (startDecode s).wpos = 0 := rfl
@[simp] theorem startDecode_produced (s : State) : (startDecode s).produced = 0 := rfl
@[simp] theorem startDecode_latW (s : State) : (startDecode s).latW = s.cfgWidth := rfl
@[simp] theorem startDecode_latH (s : State) : (startDecode s).latH = s.cfgHeight := rfl
@[simp] theorem startDecode_latB (s : State) : (startDecode s).latB = s.cfgBpp := rfl
@[simp] theorem startDecode_y (s : State) : (startDecode s).y = 0 := rfl
@[simp] theorem startDecode_rowPos (s : State) : (startDecode s).rowPos = 0 := rfl
@[simp] theorem startDecode_curF (s : State) : (startDecode s).curF = .none := rfl
@[simp] theorem startDecode_cur (s : State) : (startDecode s).cur = List.replicate (s.cfgWidth.toNat * s.cfgBpp.toNat) 0 := rfl
@[simp] theorem startDecode_prev (s : State) : (startDecode s).prev = List.replicate (s.cfgWidth.toNat * s.cfgBpp.toNat) 0 := rfl
@[simp] theorem startDecode_inMem (s : State) : (startDecode s).inMem = s.inMem := rfl
@[simp] theorem startDecode_inLen (s : State) : (startDecode s).inLen = s.inLen := rfl
@[simp] theorem startDecode_pix (s : State) : (startDecode s).pix = [] := rfl
@[simp] theorem startDecode_host (s : State) : (startDecode s).host = s.host := rfl
@[simp] theorem startDecode_rdata (s : State) : (startDecode s).rdata = s.rdata := rfl

/-! ### hostReadReg -/

@[simp] theorem hostReadReg_prm (r : Reg) (s : State) : (hostReadReg r s).prm = s.prm := rfl
@[simp] theorem hostReadReg_cfgWidth (r : Reg) (s : State) : (hostReadReg r s).cfgWidth = s.cfgWidth := rfl
@[simp] theorem hostReadReg_cfgHeight (r : Reg) (s : State) : (hostReadReg r s).cfgHeight = s.cfgHeight := rfl
@[simp] theorem hostReadReg_cfgBpp (r : Reg) (s : State) : (hostReadReg r s).cfgBpp = s.cfgBpp := rfl
@[simp] theorem hostReadReg_errCode (r : Reg) (s : State) : (hostReadReg r s).errCode = s.errCode := rfl
@[simp] theorem hostReadReg_errByte (r : Reg) (s : State) : (hostReadReg r s).errByte = s.errByte := rfl
@[simp] theorem hostReadReg_errBit (r : Reg) (s : State) : (hostReadReg r s).errBit = s.errBit := rfl
@[simp] theorem hostReadReg_bytePos (r : Reg) (s : State) : (hostReadReg r s).bytePos = s.bytePos := rfl
@[simp] theorem hostReadReg_curByte (r : Reg) (s : State) : (hostReadReg r s).curByte = s.curByte := rfl
@[simp] theorem hostReadReg_bitCnt (r : Reg) (s : State) : (hostReadReg r s).bitCnt = s.bitCnt := rfl
@[simp] theorem hostReadReg_phase (r : Reg) (s : State) : (hostReadReg r s).phase = s.phase := rfl
@[simp] theorem hostReadReg_stage (r : Reg) (s : State) : (hostReadReg r s).stage = s.stage := rfl
@[simp] theorem hostReadReg_row (r : Reg) (s : State) : (hostReadReg r s).row = s.row := rfl
@[simp] theorem hostReadReg_bfinal (r : Reg) (s : State) : (hostReadReg r s).bfinal = s.bfinal := rfl
@[simp] theorem hostReadReg_btype (r : Reg) (s : State) : (hostReadReg r s).btype = s.btype := rfl
@[simp] theorem hostReadReg_llLens (r : Reg) (s : State) : (hostReadReg r s).llLens = s.llLens := rfl
@[simp] theorem hostReadReg_dLens (r : Reg) (s : State) : (hostReadReg r s).dLens = s.dLens := rfl
@[simp] theorem hostReadReg_clLens (r : Reg) (s : State) : (hostReadReg r s).clLens = s.clLens := rfl
@[simp] theorem hostReadReg_tLL (r : Reg) (s : State) : (hostReadReg r s).tLL = s.tLL := rfl
@[simp] theorem hostReadReg_tD (r : Reg) (s : State) : (hostReadReg r s).tD = s.tD := rfl
@[simp] theorem hostReadReg_tCL (r : Reg) (s : State) : (hostReadReg r s).tCL = s.tCL := rfl
@[simp] theorem hostReadReg_hlit (r : Reg) (s : State) : (hostReadReg r s).hlit = s.hlit := rfl
@[simp] theorem hostReadReg_hdist (r : Reg) (s : State) : (hostReadReg r s).hdist = s.hdist := rfl
@[simp] theorem hostReadReg_hclen (r : Reg) (s : State) : (hostReadReg r s).hclen = s.hclen := rfl
@[simp] theorem hostReadReg_lenSeq (r : Reg) (s : State) : (hostReadReg r s).lenSeq = s.lenSeq := rfl
@[simp] theorem hostReadReg_nlens (r : Reg) (s : State) : (hostReadReg r s).nlens = s.nlens := rfl
@[simp] theorem hostReadReg_storedRem (r : Reg) (s : State) : (hostReadReg r s).storedRem = s.storedRem := rfl
@[simp] theorem hostReadReg_win (r : Reg) (s : State) : (hostReadReg r s).win = s.win := rfl
@[simp] theorem hostReadReg_wpos (r : Reg) (s : State) : (hostReadReg r s).wpos = s.wpos := rfl
@[simp] theorem hostReadReg_produced (r : Reg) (s : State) : (hostReadReg r s).produced = s.produced := rfl
@[simp] theorem hostReadReg_latW (r : Reg) (s : State) : (hostReadReg r s).latW = s.latW := rfl
@[simp] theorem hostReadReg_latH (r : Reg) (s : State) : (hostReadReg r s).latH = s.latH := rfl
@[simp] theorem hostReadReg_latB (r : Reg) (s : State) : (hostReadReg r s).latB = s.latB := rfl
@[simp] theorem hostReadReg_y (r : Reg) (s : State) : (hostReadReg r s).y = s.y := rfl
@[simp] theorem hostReadReg_rowPos (r : Reg) (s : State) : (hostReadReg r s).rowPos = s.rowPos := rfl
@[simp] theorem hostReadReg_curF (r : Reg) (s : State) : (hostReadReg r s).curF = s.curF := rfl
@[simp] theorem hostReadReg_cur (r : Reg) (s : State) : (hostReadReg r s).cur = s.cur := rfl
@[simp] theorem hostReadReg_prev (r : Reg) (s : State) : (hostReadReg r s).prev = s.prev := rfl
@[simp] theorem hostReadReg_inMem (r : Reg) (s : State) : (hostReadReg r s).inMem = s.inMem := rfl
@[simp] theorem hostReadReg_inLen (r : Reg) (s : State) : (hostReadReg r s).inLen = s.inLen := rfl
@[simp] theorem hostReadReg_pix (r : Reg) (s : State) : (hostReadReg r s).pix = s.pix := rfl
@[simp] theorem hostReadReg_host (r : Reg) (s : State) : (hostReadReg r s).host = s.host := rfl
@[simp] theorem hostReadReg_rdata (r : Reg) (s : State) : (hostReadReg r s).rdata = readReg r s := rfl

/-! ### Updates that branch -/

/-- `RowAccept` discards the byte, leaves its filter-type row due, or stores it (45_controller.md R323, R325). -/
theorem rowAccept_cases (b : Byte) (s : State) :
    (expected s < s.produced ∧ rowAccept b s = s)
    ∨ (s.produced ≤ expected s ∧ s.rowPos = 0 ∧ rowAccept b s = { s with row := .filterByte b })
    ∨ (s.produced ≤ expected s ∧ s.rowPos ≠ 0 ∧ rowAccept b s =
        { s with cur := s.cur.set (s.rowPos - 1) b, rowPos := s.rowPos + 1,
                 row := if s.rowPos = rowLen s then .finishRow else .clear }) := by
  unfold rowAccept
  by_cases h : expected s < s.produced
  · exact .inl ⟨h, if_pos h⟩
  · rw [if_neg h]
    by_cases h0 : s.rowPos = 0
    · exact .inr (.inl ⟨by omega, h0, if_pos h0⟩)
    · exact .inr (.inr ⟨by omega, h0, if_neg h0⟩)

@[simp] theorem rowAccept_prm (b : Byte) (s : State) : (rowAccept b s).prm = s.prm := by
  obtain ⟨-, h⟩ | ⟨-, -, h⟩ | ⟨-, -, h⟩ := rowAccept_cases b s <;> rw [h]
@[simp] theorem rowAccept_cfgWidth (b : Byte) (s : State) : (rowAccept b s).cfgWidth = s.cfgWidth := by
  obtain ⟨-, h⟩ | ⟨-, -, h⟩ | ⟨-, -, h⟩ := rowAccept_cases b s <;> rw [h]
@[simp] theorem rowAccept_cfgHeight (b : Byte) (s : State) : (rowAccept b s).cfgHeight = s.cfgHeight := by
  obtain ⟨-, h⟩ | ⟨-, -, h⟩ | ⟨-, -, h⟩ := rowAccept_cases b s <;> rw [h]
@[simp] theorem rowAccept_cfgBpp (b : Byte) (s : State) : (rowAccept b s).cfgBpp = s.cfgBpp := by
  obtain ⟨-, h⟩ | ⟨-, -, h⟩ | ⟨-, -, h⟩ := rowAccept_cases b s <;> rw [h]
@[simp] theorem rowAccept_errCode (b : Byte) (s : State) : (rowAccept b s).errCode = s.errCode := by
  obtain ⟨-, h⟩ | ⟨-, -, h⟩ | ⟨-, -, h⟩ := rowAccept_cases b s <;> rw [h]
@[simp] theorem rowAccept_errByte (b : Byte) (s : State) : (rowAccept b s).errByte = s.errByte := by
  obtain ⟨-, h⟩ | ⟨-, -, h⟩ | ⟨-, -, h⟩ := rowAccept_cases b s <;> rw [h]
@[simp] theorem rowAccept_errBit (b : Byte) (s : State) : (rowAccept b s).errBit = s.errBit := by
  obtain ⟨-, h⟩ | ⟨-, -, h⟩ | ⟨-, -, h⟩ := rowAccept_cases b s <;> rw [h]
@[simp] theorem rowAccept_bytePos (b : Byte) (s : State) : (rowAccept b s).bytePos = s.bytePos := by
  obtain ⟨-, h⟩ | ⟨-, -, h⟩ | ⟨-, -, h⟩ := rowAccept_cases b s <;> rw [h]
@[simp] theorem rowAccept_curByte (b : Byte) (s : State) : (rowAccept b s).curByte = s.curByte := by
  obtain ⟨-, h⟩ | ⟨-, -, h⟩ | ⟨-, -, h⟩ := rowAccept_cases b s <;> rw [h]
@[simp] theorem rowAccept_bitCnt (b : Byte) (s : State) : (rowAccept b s).bitCnt = s.bitCnt := by
  obtain ⟨-, h⟩ | ⟨-, -, h⟩ | ⟨-, -, h⟩ := rowAccept_cases b s <;> rw [h]
@[simp] theorem rowAccept_phase (b : Byte) (s : State) : (rowAccept b s).phase = s.phase := by
  obtain ⟨-, h⟩ | ⟨-, -, h⟩ | ⟨-, -, h⟩ := rowAccept_cases b s <;> rw [h]
@[simp] theorem rowAccept_stage (b : Byte) (s : State) : (rowAccept b s).stage = s.stage := by
  obtain ⟨-, h⟩ | ⟨-, -, h⟩ | ⟨-, -, h⟩ := rowAccept_cases b s <;> rw [h]
@[simp] theorem rowAccept_bfinal (b : Byte) (s : State) : (rowAccept b s).bfinal = s.bfinal := by
  obtain ⟨-, h⟩ | ⟨-, -, h⟩ | ⟨-, -, h⟩ := rowAccept_cases b s <;> rw [h]
@[simp] theorem rowAccept_btype (b : Byte) (s : State) : (rowAccept b s).btype = s.btype := by
  obtain ⟨-, h⟩ | ⟨-, -, h⟩ | ⟨-, -, h⟩ := rowAccept_cases b s <;> rw [h]
@[simp] theorem rowAccept_llLens (b : Byte) (s : State) : (rowAccept b s).llLens = s.llLens := by
  obtain ⟨-, h⟩ | ⟨-, -, h⟩ | ⟨-, -, h⟩ := rowAccept_cases b s <;> rw [h]
@[simp] theorem rowAccept_dLens (b : Byte) (s : State) : (rowAccept b s).dLens = s.dLens := by
  obtain ⟨-, h⟩ | ⟨-, -, h⟩ | ⟨-, -, h⟩ := rowAccept_cases b s <;> rw [h]
@[simp] theorem rowAccept_clLens (b : Byte) (s : State) : (rowAccept b s).clLens = s.clLens := by
  obtain ⟨-, h⟩ | ⟨-, -, h⟩ | ⟨-, -, h⟩ := rowAccept_cases b s <;> rw [h]
@[simp] theorem rowAccept_tLL (b : Byte) (s : State) : (rowAccept b s).tLL = s.tLL := by
  obtain ⟨-, h⟩ | ⟨-, -, h⟩ | ⟨-, -, h⟩ := rowAccept_cases b s <;> rw [h]
@[simp] theorem rowAccept_tD (b : Byte) (s : State) : (rowAccept b s).tD = s.tD := by
  obtain ⟨-, h⟩ | ⟨-, -, h⟩ | ⟨-, -, h⟩ := rowAccept_cases b s <;> rw [h]
@[simp] theorem rowAccept_tCL (b : Byte) (s : State) : (rowAccept b s).tCL = s.tCL := by
  obtain ⟨-, h⟩ | ⟨-, -, h⟩ | ⟨-, -, h⟩ := rowAccept_cases b s <;> rw [h]
@[simp] theorem rowAccept_hlit (b : Byte) (s : State) : (rowAccept b s).hlit = s.hlit := by
  obtain ⟨-, h⟩ | ⟨-, -, h⟩ | ⟨-, -, h⟩ := rowAccept_cases b s <;> rw [h]
@[simp] theorem rowAccept_hdist (b : Byte) (s : State) : (rowAccept b s).hdist = s.hdist := by
  obtain ⟨-, h⟩ | ⟨-, -, h⟩ | ⟨-, -, h⟩ := rowAccept_cases b s <;> rw [h]
@[simp] theorem rowAccept_hclen (b : Byte) (s : State) : (rowAccept b s).hclen = s.hclen := by
  obtain ⟨-, h⟩ | ⟨-, -, h⟩ | ⟨-, -, h⟩ := rowAccept_cases b s <;> rw [h]
@[simp] theorem rowAccept_lenSeq (b : Byte) (s : State) : (rowAccept b s).lenSeq = s.lenSeq := by
  obtain ⟨-, h⟩ | ⟨-, -, h⟩ | ⟨-, -, h⟩ := rowAccept_cases b s <;> rw [h]
@[simp] theorem rowAccept_nlens (b : Byte) (s : State) : (rowAccept b s).nlens = s.nlens := by
  obtain ⟨-, h⟩ | ⟨-, -, h⟩ | ⟨-, -, h⟩ := rowAccept_cases b s <;> rw [h]
@[simp] theorem rowAccept_storedRem (b : Byte) (s : State) : (rowAccept b s).storedRem = s.storedRem := by
  obtain ⟨-, h⟩ | ⟨-, -, h⟩ | ⟨-, -, h⟩ := rowAccept_cases b s <;> rw [h]
@[simp] theorem rowAccept_win (b : Byte) (s : State) : (rowAccept b s).win = s.win := by
  obtain ⟨-, h⟩ | ⟨-, -, h⟩ | ⟨-, -, h⟩ := rowAccept_cases b s <;> rw [h]
@[simp] theorem rowAccept_wpos (b : Byte) (s : State) : (rowAccept b s).wpos = s.wpos := by
  obtain ⟨-, h⟩ | ⟨-, -, h⟩ | ⟨-, -, h⟩ := rowAccept_cases b s <;> rw [h]
@[simp] theorem rowAccept_produced (b : Byte) (s : State) : (rowAccept b s).produced = s.produced := by
  obtain ⟨-, h⟩ | ⟨-, -, h⟩ | ⟨-, -, h⟩ := rowAccept_cases b s <;> rw [h]
@[simp] theorem rowAccept_latW (b : Byte) (s : State) : (rowAccept b s).latW = s.latW := by
  obtain ⟨-, h⟩ | ⟨-, -, h⟩ | ⟨-, -, h⟩ := rowAccept_cases b s <;> rw [h]
@[simp] theorem rowAccept_latH (b : Byte) (s : State) : (rowAccept b s).latH = s.latH := by
  obtain ⟨-, h⟩ | ⟨-, -, h⟩ | ⟨-, -, h⟩ := rowAccept_cases b s <;> rw [h]
@[simp] theorem rowAccept_latB (b : Byte) (s : State) : (rowAccept b s).latB = s.latB := by
  obtain ⟨-, h⟩ | ⟨-, -, h⟩ | ⟨-, -, h⟩ := rowAccept_cases b s <;> rw [h]
@[simp] theorem rowAccept_y (b : Byte) (s : State) : (rowAccept b s).y = s.y := by
  obtain ⟨-, h⟩ | ⟨-, -, h⟩ | ⟨-, -, h⟩ := rowAccept_cases b s <;> rw [h]
@[simp] theorem rowAccept_curF (b : Byte) (s : State) : (rowAccept b s).curF = s.curF := by
  obtain ⟨-, h⟩ | ⟨-, -, h⟩ | ⟨-, -, h⟩ := rowAccept_cases b s <;> rw [h]
@[simp] theorem rowAccept_prev (b : Byte) (s : State) : (rowAccept b s).prev = s.prev := by
  obtain ⟨-, h⟩ | ⟨-, -, h⟩ | ⟨-, -, h⟩ := rowAccept_cases b s <;> rw [h]
@[simp] theorem rowAccept_inMem (b : Byte) (s : State) : (rowAccept b s).inMem = s.inMem := by
  obtain ⟨-, h⟩ | ⟨-, -, h⟩ | ⟨-, -, h⟩ := rowAccept_cases b s <;> rw [h]
@[simp] theorem rowAccept_inLen (b : Byte) (s : State) : (rowAccept b s).inLen = s.inLen := by
  obtain ⟨-, h⟩ | ⟨-, -, h⟩ | ⟨-, -, h⟩ := rowAccept_cases b s <;> rw [h]
@[simp] theorem rowAccept_pix (b : Byte) (s : State) : (rowAccept b s).pix = s.pix := by
  obtain ⟨-, h⟩ | ⟨-, -, h⟩ | ⟨-, -, h⟩ := rowAccept_cases b s <;> rw [h]
@[simp] theorem rowAccept_host (b : Byte) (s : State) : (rowAccept b s).host = s.host := by
  obtain ⟨-, h⟩ | ⟨-, -, h⟩ | ⟨-, -, h⟩ := rowAccept_cases b s <;> rw [h]
@[simp] theorem rowAccept_rdata (b : Byte) (s : State) : (rowAccept b s).rdata = s.rdata := by
  obtain ⟨-, h⟩ | ⟨-, -, h⟩ | ⟨-, -, h⟩ := rowAccept_cases b s <;> rw [h]

@[simp] theorem emit_prm (b : Byte) (s : State) : (emit b s).prm = s.prm := by simp [emit]
@[simp] theorem emit_cfgWidth (b : Byte) (s : State) : (emit b s).cfgWidth = s.cfgWidth := by simp [emit]
@[simp] theorem emit_cfgHeight (b : Byte) (s : State) : (emit b s).cfgHeight = s.cfgHeight := by simp [emit]
@[simp] theorem emit_cfgBpp (b : Byte) (s : State) : (emit b s).cfgBpp = s.cfgBpp := by simp [emit]
@[simp] theorem emit_errCode (b : Byte) (s : State) : (emit b s).errCode = s.errCode := by simp [emit]
@[simp] theorem emit_errByte (b : Byte) (s : State) : (emit b s).errByte = s.errByte := by simp [emit]
@[simp] theorem emit_errBit (b : Byte) (s : State) : (emit b s).errBit = s.errBit := by simp [emit]
@[simp] theorem emit_bytePos (b : Byte) (s : State) : (emit b s).bytePos = s.bytePos := by simp [emit]
@[simp] theorem emit_curByte (b : Byte) (s : State) : (emit b s).curByte = s.curByte := by simp [emit]
@[simp] theorem emit_bitCnt (b : Byte) (s : State) : (emit b s).bitCnt = s.bitCnt := by simp [emit]
@[simp] theorem emit_phase (b : Byte) (s : State) : (emit b s).phase = s.phase := by simp [emit]
@[simp] theorem emit_stage (b : Byte) (s : State) : (emit b s).stage = s.stage := by simp [emit]
@[simp] theorem emit_bfinal (b : Byte) (s : State) : (emit b s).bfinal = s.bfinal := by simp [emit]
@[simp] theorem emit_btype (b : Byte) (s : State) : (emit b s).btype = s.btype := by simp [emit]
@[simp] theorem emit_llLens (b : Byte) (s : State) : (emit b s).llLens = s.llLens := by simp [emit]
@[simp] theorem emit_dLens (b : Byte) (s : State) : (emit b s).dLens = s.dLens := by simp [emit]
@[simp] theorem emit_clLens (b : Byte) (s : State) : (emit b s).clLens = s.clLens := by simp [emit]
@[simp] theorem emit_tLL (b : Byte) (s : State) : (emit b s).tLL = s.tLL := by simp [emit]
@[simp] theorem emit_tD (b : Byte) (s : State) : (emit b s).tD = s.tD := by simp [emit]
@[simp] theorem emit_tCL (b : Byte) (s : State) : (emit b s).tCL = s.tCL := by simp [emit]
@[simp] theorem emit_hlit (b : Byte) (s : State) : (emit b s).hlit = s.hlit := by simp [emit]
@[simp] theorem emit_hdist (b : Byte) (s : State) : (emit b s).hdist = s.hdist := by simp [emit]
@[simp] theorem emit_hclen (b : Byte) (s : State) : (emit b s).hclen = s.hclen := by simp [emit]
@[simp] theorem emit_lenSeq (b : Byte) (s : State) : (emit b s).lenSeq = s.lenSeq := by simp [emit]
@[simp] theorem emit_nlens (b : Byte) (s : State) : (emit b s).nlens = s.nlens := by simp [emit]
@[simp] theorem emit_storedRem (b : Byte) (s : State) : (emit b s).storedRem = s.storedRem := by simp [emit]
@[simp] theorem emit_latW (b : Byte) (s : State) : (emit b s).latW = s.latW := by simp [emit]
@[simp] theorem emit_latH (b : Byte) (s : State) : (emit b s).latH = s.latH := by simp [emit]
@[simp] theorem emit_latB (b : Byte) (s : State) : (emit b s).latB = s.latB := by simp [emit]
@[simp] theorem emit_y (b : Byte) (s : State) : (emit b s).y = s.y := by simp [emit]
@[simp] theorem emit_curF (b : Byte) (s : State) : (emit b s).curF = s.curF := by simp [emit]
@[simp] theorem emit_prev (b : Byte) (s : State) : (emit b s).prev = s.prev := by simp [emit]
@[simp] theorem emit_inMem (b : Byte) (s : State) : (emit b s).inMem = s.inMem := by simp [emit]
@[simp] theorem emit_inLen (b : Byte) (s : State) : (emit b s).inLen = s.inLen := by simp [emit]
@[simp] theorem emit_pix (b : Byte) (s : State) : (emit b s).pix = s.pix := by simp [emit]
@[simp] theorem emit_host (b : Byte) (s : State) : (emit b s).host = s.host := by simp [emit]
@[simp] theorem emit_rdata (b : Byte) (s : State) : (emit b s).rdata = s.rdata := by simp [emit]
@[simp] theorem emit_win (b : Byte) (s : State) : (emit b s).win = s.win.write s.wpos.toNat b := by simp [emit]
@[simp] theorem emit_wpos (b : Byte) (s : State) : (emit b s).wpos = s.wpos + 1 := by simp [emit]
@[simp] theorem emit_produced (b : Byte) (s : State) : (emit b s).produced = s.produced + 1 := by simp [emit]

/-- A run of lengths changes LENSEQ and NLENS only. -/
theorem pushLens_eq (n v : Nat) (s : State) :
    pushLens n v s = { s with lenSeq := (pushLens n v s).lenSeq, nlens := s.nlens + n } := by
  induction n generalizing s with
  | zero => rfl
  | succ n ih =>
    rw [pushLens, ih (pushLen v s)]
    simp [pushLen, Nat.add_assoc, Nat.add_comm 1 n]

@[simp] theorem pushLens_prm (n v : Nat) (s : State) : (pushLens n v s).prm = s.prm := by rw [pushLens_eq]
@[simp] theorem pushLens_cfgWidth (n v : Nat) (s : State) : (pushLens n v s).cfgWidth = s.cfgWidth := by rw [pushLens_eq]
@[simp] theorem pushLens_cfgHeight (n v : Nat) (s : State) : (pushLens n v s).cfgHeight = s.cfgHeight := by rw [pushLens_eq]
@[simp] theorem pushLens_cfgBpp (n v : Nat) (s : State) : (pushLens n v s).cfgBpp = s.cfgBpp := by rw [pushLens_eq]
@[simp] theorem pushLens_errCode (n v : Nat) (s : State) : (pushLens n v s).errCode = s.errCode := by rw [pushLens_eq]
@[simp] theorem pushLens_errByte (n v : Nat) (s : State) : (pushLens n v s).errByte = s.errByte := by rw [pushLens_eq]
@[simp] theorem pushLens_errBit (n v : Nat) (s : State) : (pushLens n v s).errBit = s.errBit := by rw [pushLens_eq]
@[simp] theorem pushLens_bytePos (n v : Nat) (s : State) : (pushLens n v s).bytePos = s.bytePos := by rw [pushLens_eq]
@[simp] theorem pushLens_curByte (n v : Nat) (s : State) : (pushLens n v s).curByte = s.curByte := by rw [pushLens_eq]
@[simp] theorem pushLens_bitCnt (n v : Nat) (s : State) : (pushLens n v s).bitCnt = s.bitCnt := by rw [pushLens_eq]
@[simp] theorem pushLens_phase (n v : Nat) (s : State) : (pushLens n v s).phase = s.phase := by rw [pushLens_eq]
@[simp] theorem pushLens_stage (n v : Nat) (s : State) : (pushLens n v s).stage = s.stage := by rw [pushLens_eq]
@[simp] theorem pushLens_row (n v : Nat) (s : State) : (pushLens n v s).row = s.row := by rw [pushLens_eq]
@[simp] theorem pushLens_bfinal (n v : Nat) (s : State) : (pushLens n v s).bfinal = s.bfinal := by rw [pushLens_eq]
@[simp] theorem pushLens_btype (n v : Nat) (s : State) : (pushLens n v s).btype = s.btype := by rw [pushLens_eq]
@[simp] theorem pushLens_llLens (n v : Nat) (s : State) : (pushLens n v s).llLens = s.llLens := by rw [pushLens_eq]
@[simp] theorem pushLens_dLens (n v : Nat) (s : State) : (pushLens n v s).dLens = s.dLens := by rw [pushLens_eq]
@[simp] theorem pushLens_clLens (n v : Nat) (s : State) : (pushLens n v s).clLens = s.clLens := by rw [pushLens_eq]
@[simp] theorem pushLens_tLL (n v : Nat) (s : State) : (pushLens n v s).tLL = s.tLL := by rw [pushLens_eq]
@[simp] theorem pushLens_tD (n v : Nat) (s : State) : (pushLens n v s).tD = s.tD := by rw [pushLens_eq]
@[simp] theorem pushLens_tCL (n v : Nat) (s : State) : (pushLens n v s).tCL = s.tCL := by rw [pushLens_eq]
@[simp] theorem pushLens_hlit (n v : Nat) (s : State) : (pushLens n v s).hlit = s.hlit := by rw [pushLens_eq]
@[simp] theorem pushLens_hdist (n v : Nat) (s : State) : (pushLens n v s).hdist = s.hdist := by rw [pushLens_eq]
@[simp] theorem pushLens_hclen (n v : Nat) (s : State) : (pushLens n v s).hclen = s.hclen := by rw [pushLens_eq]
@[simp] theorem pushLens_storedRem (n v : Nat) (s : State) : (pushLens n v s).storedRem = s.storedRem := by rw [pushLens_eq]
@[simp] theorem pushLens_win (n v : Nat) (s : State) : (pushLens n v s).win = s.win := by rw [pushLens_eq]
@[simp] theorem pushLens_wpos (n v : Nat) (s : State) : (pushLens n v s).wpos = s.wpos := by rw [pushLens_eq]
@[simp] theorem pushLens_produced (n v : Nat) (s : State) : (pushLens n v s).produced = s.produced := by rw [pushLens_eq]
@[simp] theorem pushLens_latW (n v : Nat) (s : State) : (pushLens n v s).latW = s.latW := by rw [pushLens_eq]
@[simp] theorem pushLens_latH (n v : Nat) (s : State) : (pushLens n v s).latH = s.latH := by rw [pushLens_eq]
@[simp] theorem pushLens_latB (n v : Nat) (s : State) : (pushLens n v s).latB = s.latB := by rw [pushLens_eq]
@[simp] theorem pushLens_y (n v : Nat) (s : State) : (pushLens n v s).y = s.y := by rw [pushLens_eq]
@[simp] theorem pushLens_rowPos (n v : Nat) (s : State) : (pushLens n v s).rowPos = s.rowPos := by rw [pushLens_eq]
@[simp] theorem pushLens_curF (n v : Nat) (s : State) : (pushLens n v s).curF = s.curF := by rw [pushLens_eq]
@[simp] theorem pushLens_cur (n v : Nat) (s : State) : (pushLens n v s).cur = s.cur := by rw [pushLens_eq]
@[simp] theorem pushLens_prev (n v : Nat) (s : State) : (pushLens n v s).prev = s.prev := by rw [pushLens_eq]
@[simp] theorem pushLens_inMem (n v : Nat) (s : State) : (pushLens n v s).inMem = s.inMem := by rw [pushLens_eq]
@[simp] theorem pushLens_inLen (n v : Nat) (s : State) : (pushLens n v s).inLen = s.inLen := by rw [pushLens_eq]
@[simp] theorem pushLens_pix (n v : Nat) (s : State) : (pushLens n v s).pix = s.pix := by rw [pushLens_eq]
@[simp] theorem pushLens_host (n v : Nat) (s : State) : (pushLens n v s).host = s.host := by rw [pushLens_eq]
@[simp] theorem pushLens_rdata (n v : Nat) (s : State) : (pushLens n v s).rdata = s.rdata := by rw [pushLens_eq]
@[simp] theorem pushLens_nlens (n v : Nat) (s : State) : (pushLens n v s).nlens = s.nlens + n := by rw [pushLens_eq]

end Sys2Proof.Machine
end

