-- ==== Sys2Proof/Laws/Reader.lean ====
section
/-! SUPPORT. The laws of the machine's bit reader: what one bit read does, and what fetching a whole token leaves alone. -/

namespace Sys2Proof.Machine

/-- Everything one `readBit` can do (40_bitreader.md R130). -/
theorem readBit_cases (s : State) :
    (s.bitCnt = 0 ∧ s.inLen ≤ s.bytePos ∧ readBit s = .err .endOfInput s)
    ∨ (s.bitCnt = 0 ∧ s.bytePos < s.inLen ∧ s.inMem.read s.bytePos = none ∧ readBit s = .err .inUnwritten s)
    ∨ (∃ b, s.bitCnt = 0 ∧ s.bytePos < s.inLen ∧ s.inMem.read s.bytePos = some b ∧
        readBit s = .ok (b.getLsbD 0) { s with curByte := b >>> 1, bytePos := s.bytePos + 1, bitCnt := 7 })
    ∨ (s.bitCnt ≠ 0 ∧
        readBit s = .ok (s.curByte.getLsbD 0) { s with curByte := s.curByte >>> 1, bitCnt := s.bitCnt - 1 }) := by
  unfold readBit
  by_cases h0 : s.bitCnt = 0
  · by_cases h1 : s.inLen ≤ s.bytePos
    · exact .inl ⟨h0, h1, by rw [if_pos h0, if_pos h1]⟩
    · cases h2 : s.inMem.read s.bytePos with
      | none => exact .inr (.inl ⟨h0, by omega, rfl, by rw [if_pos h0, if_neg h1]⟩)
      | some b => exact .inr (.inr (.inl ⟨b, h0, by omega, rfl, by rw [if_pos h0, if_neg h1]; rfl⟩))
  · exact .inr (.inr (.inr ⟨h0, by rw [if_neg h0]; rfl⟩))

@[simp] theorem stateSource_bit (s : State) : stateSource.bit s = readBit s := rfl
@[simp] theorem stateSource_align (s : State) : stateSource.align s = byteAlign s := rfl
@[simp] theorem stateSource_latch (l : Latch) (s : State) : stateSource.latch l s = latchField l s := rfl

/-- What a read keeps: all but the bit reader's registers and the header registers a field is latched in. -/
structure ReadFrame (s t : State) : Prop where
  eq : t = { s with bytePos := t.bytePos, curByte := t.curByte, bitCnt := t.bitCnt, hlit := t.hlit, hdist := t.hdist,
                    hclen := t.hclen, clLens := t.clLens }

theorem ReadFrame.refl (s : State) : ReadFrame s s := ⟨rfl⟩

theorem readFrame_keeps (L : Latch → Prop) (s : State) : stateSource.Keeps L (ReadFrame s) where
  bit := by
    intro t ⟨h⟩
    rw [stateSource_bit]
    rcases readBit_cases t with ⟨-, -, e⟩ | ⟨-, -, -, e⟩ | ⟨b, -, -, -, e⟩ | ⟨-, e⟩ <;> rw [e] <;> constructor <;> rw [h] <;> rfl
  align := by
    intro t ⟨h⟩
    constructor
    rw [stateSource_align, h]
    rfl
  latch := by
    intro l t _ ⟨h⟩
    constructor
    rw [stateSource_latch, h]
    cases l <;> rfl

/-- Fetching a token changes the bit reader's registers and the header registers only, whatever it answers. -/
theorem fetch_frame (c : Ctx) (s : State) : ReadFrame s (fetch c s).state :=
  decode_keeps c (readFrame_keeps _ s) s (.refl s)

theorem fetch_ok_frame {c : Ctx} {s t : State} {i : Instr} (h : fetch c s = .ok i t) : ReadFrame s t := by
  have := fetch_frame c s
  rwa [h] at this

theorem fetch_err_frame {c : Ctx} {s t : State} {e : Reject} (h : fetch c s = .err e t) : ReadFrame s t := by
  have := fetch_frame c s
  rwa [h] at this

theorem readBits_frame (n : Nat) (s : State) : ReadFrame s (readBits stateSource n s).state :=
  readBits_keeps (readFrame_keeps (fun _ => True) s) n s (.refl s)

/-- Outside the two header tokens a fetch changes the bit reader's registers only. -/
theorem fetch_frame_plain (c : Ctx) (s : State) (hc : ∀ l, ¬ c.Latches l) :
    ∃ p b n, (fetch c s).state = { s with bytePos := p, curByte := b, bitCnt := n } := by
  refine decode_keeps (P := fun t => ∃ p b n, t = { s with bytePos := p, curByte := b, bitCnt := n }) c
    ⟨?_, ?_, fun l _ hl => absurd hl (hc l)⟩ s ⟨s.bytePos, s.curByte, s.bitCnt, rfl⟩
  · rintro _ ⟨p, b, n, rfl⟩
    rw [stateSource_bit]
    rcases readBit_cases { s with bytePos := p, curByte := b, bitCnt := n } with
      ⟨-, -, e⟩ | ⟨-, -, -, e⟩ | ⟨b, -, -, -, e⟩ | ⟨-, e⟩ <;> rw [e] <;> exact ⟨_, _, _, rfl⟩
  · rintro _ ⟨p, b, n, rfl⟩
    exact ⟨_, _, _, rfl⟩

/-- Only a dynamic header latches HLIT, HDIST and HCLEN (42_blocks.md R167). -/
theorem fetch_header_frame (c : Ctx) (s : State) (hc : c ≠ .dynamic) :
    (fetch c s).state.hlit = s.hlit ∧ (fetch c s).state.hdist = s.hdist ∧ (fetch c s).state.hclen = s.hclen := by
  refine decode_keeps (P := fun t => t.hlit = s.hlit ∧ t.hdist = s.hdist ∧ t.hclen = s.hclen) c ⟨?_, ?_, ?_⟩ s ⟨rfl, rfl, rfl⟩
  · intro t ht
    rw [stateSource_bit]
    rcases readBit_cases t with ⟨-, -, e⟩ | ⟨-, -, -, e⟩ | ⟨b, -, -, -, e⟩ | ⟨-, e⟩ <;> rw [e] <;> exact ht
  · exact fun t ht => ht
  · intro l t hl ht
    rw [stateSource_latch]
    cases l <;> first
      | exact ht
      | (cases c <;> first
          | exact absurd rfl hc
          | cases hl)

/-- Only the code-length code lengths latch CL_LENS (R168). -/
theorem fetch_clLens_frame (c : Ctx) (s : State) (hc : ∀ n, c ≠ .clLengths n) : (fetch c s).state.clLens = s.clLens := by
  refine decode_keeps (P := fun t => t.clLens = s.clLens) c ⟨?_, ?_, ?_⟩ s rfl
  · intro t ht
    rw [stateSource_bit]
    rcases readBit_cases t with ⟨-, -, e⟩ | ⟨-, -, -, e⟩ | ⟨b, -, -, -, e⟩ | ⟨-, e⟩ <;> rw [e] <;> exact ht
  · exact fun t ht => ht
  · intro l t hl ht
    rw [stateSource_latch]
    cases l <;> first
      | exact ht
      | (cases c <;> first
          | exact absurd rfl (hc _)
          | cases hl)

/-! ## The rest of the input as a list of bits -/

/-- The bits of the bytes of IN from `p` on, `n` of them. -/
theorem pendingBytes_succ (m : Memory) (p n : Nat) :
    ((List.range (n + 1)).flatMap fun k => bitsLsb 8 ((m.read (p + k)).getD 0).toNat)
      = bitsLsb 8 ((m.read p).getD 0).toNat
        ++ (List.range n).flatMap fun k => bitsLsb 8 ((m.read (p + 1 + k)).getD 0).toNat := by
  rw [List.range_succ_eq_map, List.flatMap_cons, List.flatMap_map]
  simp only [Nat.add_zero, Nat.succ_eq_add_one]
  congr 2
  funext k
  rw [Nat.add_assoc p 1 k, Nat.add_comm 1 k]

theorem getLsbD_zero_eq (b : Byte) : b.getLsbD 0 = (b.toNat % 2 == 1) := by
  rw [BitVec.getLsbD, Nat.testBit_zero]
  rfl

theorem shiftRight_one_toNat (b : Byte) : (b >>> 1).toNat = b.toNat / 2 := by
  rw [BitVec.toNat_ushiftRight, Nat.shiftRight_one]

/-- The machine's reader hands out the pending bits in order: one bit read takes the first, and fails when none is left. -/
theorem readBit_pending (s : State) (hw : InWritten s) :
    match pendingBits s with
    | [] => readBit s = .err .endOfInput s
    | b :: rest => ∃ t, readBit s = .ok b t ∧ pendingBits t = rest := by
  rcases readBit_cases s with ⟨h0, h1, e⟩ | ⟨h0, h1, h2, e⟩ | ⟨b, h0, h1, h2, e⟩ | ⟨h0, e⟩
  · have hp : pendingBits s = [] := by
      simp [pendingBits, h0, bitsLsb, Nat.sub_eq_zero_of_le h1]
    rw [hp]
    exact e
  · exact absurd (hw _ h1) (by simp [h2])
  · obtain ⟨n, hn⟩ : ∃ n, s.inLen - s.bytePos = n + 1 := ⟨s.inLen - s.bytePos - 1, by omega⟩
    have hn' : s.inLen - (s.bytePos + 1) = n := by omega
    have hp : pendingBits s = b.getLsbD 0 :: (bitsLsb 7 (b.toNat / 2)
        ++ (List.range n).flatMap fun k => bitsLsb 8 ((s.inMem.read (s.bytePos + 1 + k)).getD 0).toNat) := by
      rw [pendingBits, hn, pendingBytes_succ, h2, h0, getLsbD_zero_eq]
      rfl
    rw [hp]
    refine ⟨_, e, ?_⟩
    simp only [pendingBits, hn', shiftRight_one_toNat]
  · obtain ⟨n, hn⟩ : ∃ n, s.bitCnt = n + 1 := ⟨s.bitCnt - 1, by omega⟩
    have hp : pendingBits s = s.curByte.getLsbD 0 :: (bitsLsb n (s.curByte.toNat / 2)
        ++ (List.range (s.inLen - s.bytePos)).flatMap fun k => bitsLsb 8 ((s.inMem.read (s.bytePos + k)).getD 0).toNat) := by
      rw [pendingBits, hn, getLsbD_zero_eq]
      rfl
    rw [hp]
    refine ⟨_, e, ?_⟩
    simp only [pendingBits, shiftRight_one_toNat, hn, Nat.add_sub_cancel]

/-- What a read of the machine says of the same read of a list: the same answer, and the bits that are left. -/
def Matches {α : Type} (r : Rd State α) (l : Rd (List Bool) α) : Prop :=
  match l with
  | .ok a rest => ∃ t, r = .ok a t ∧ pendingBits t = rest ∧ InWritten t
  | .err e rest => ∃ t, r = .err e t ∧ pendingBits t = rest ∧ InWritten t

theorem Matches.ok {α : Type} (a : α) (s : State) (hw : InWritten s) : Matches (.ok a s) (.ok a (pendingBits s)) :=
  ⟨s, rfl, rfl, hw⟩

theorem Matches.bind {α β : Type} {r : Rd State α} {l : Rd (List Bool) α} {k : α → State → Rd State β}
    {k' : α → List Bool → Rd (List Bool) β} (h : Matches r l)
    (hk : ∀ a t, InWritten t → Matches (k a t) (k' a (pendingBits t))) : Matches (r.bind k) (l.bind k') := by
  cases l with
  | ok a rest =>
    obtain ⟨t, rfl, rfl, hw⟩ := h
    exact hk a t hw
  | err e rest =>
    obtain ⟨t, rfl, hp, hw⟩ := h
    exact ⟨t, rfl, hp, hw⟩

theorem readBit_matches (s : State) (hw : InWritten s) : Matches (stateSource.bit s) (listSource.bit (pendingBits s)) := by
  have hk : ∀ t, (readBit s).state = t → InWritten t := by
    rintro t rfl
    rcases readBit_cases s with ⟨-, -, e⟩ | ⟨-, -, -, e⟩ | ⟨b, -, -, -, e⟩ | ⟨-, e⟩ <;> rw [e] <;> exact hw
  have h := readBit_pending s hw
  rw [stateSource_bit]
  cases hp : pendingBits s with
  | nil =>
    rw [hp] at h
    exact ⟨s, h, hp, hw⟩
  | cons b rest =>
    rw [hp] at h
    obtain ⟨t, e, ht⟩ := h
    exact ⟨t, e, ht, hk t (by rw [e]; rfl)⟩

theorem readBits_matches (n : Nat) (s : State) (hw : InWritten s) :
    Matches (readBits stateSource n s) (readBits listSource n (pendingBits s)) := by
  induction n generalizing s with
  | zero => exact .ok 0 s hw
  | succ n ih =>
    exact (readBit_matches s hw).bind fun b t ht => (ih t ht).bind fun v u hu => .ok _ u hu

theorem huffLoop_matches (T : Table) (n l v : Nat) (s : State) (hw : InWritten s) :
    Matches (huffLoop stateSource T n l v s) (huffLoop listSource T n l v (pendingBits s)) := by
  induction n generalizing l v s with
  | zero => exact ⟨s, rfl, rfl, hw⟩
  | succ n ih =>
    refine (readBit_matches s hw).bind fun b t ht => ?_
    split
    · exact .ok _ t ht
    · exact ih _ _ t ht

theorem latchField_pending (l : Latch) (s : State) : pendingBits (latchField l s) = pendingBits s := by
  cases l <;> rfl

theorem latchField_inWritten (l : Latch) (s : State) (hw : InWritten s) : InWritten (latchField l s) := by
  cases l <;> exact hw

theorem readClLengths_matches (n k : Nat) (s : State) (hw : InWritten s) :
    Matches (readClLengths stateSource n k s) (readClLengths listSource n k (pendingBits s)) := by
  induction n generalizing k s with
  | zero => exact .ok _ s hw
  | succ n ih =>
    refine (readBits_matches 3 s hw).bind fun v t ht => ?_
    refine Matches.bind ?_ fun vs u hu => .ok _ u hu
    have := ih (k + 1) _ (latchField_inWritten (.clLen k v) t ht)
    rwa [latchField_pending] at this

end Sys2Proof.Machine
end

