-- ==== Sys2Proof/Laws/Exec.lean ====
section
/-! SUPPORT. What an instruction, a rule between tokens, a host move and a step can do, each said once. -/

namespace Sys2Proof.Machine

/-! ## Instructions -/

/-- Everything an instruction can do: its outcome, by the shared operation it is made of. -/
inductive ExecShape (s : State) : Instr → Host.Outcome State Fault Refusal → Prop
  | blockHeader (f : BitVec 1) (t : BitVec 2) :
      ExecShape s (.blockHeader f t) (.next { s with bfinal := f, btype := t, stage := .dispatch })
  | btypeStored : ExecShape s .btypeStored (.next { s with phase := .stored, stage := .start })
  | btypeFixed : ExecShape s .btypeFixed (.next { s with phase := .fixed, stage := .start })
  | btypeDynamic : ExecShape s .btypeDynamic (.next { s with phase := .dynamic, stage := .start })
  | storedHeader (len nlen : BitVec 16) : ExecShape s (.storedHeader len nlen) (execStoredHeader len nlen s)
  | dynamicHeader (h d : BitVec 5) (n : BitVec 4) :
      ExecShape s (.dynamicHeader h d n)
        (.next { s with hlit := h.toNat + 257, hdist := d.toNat + 1, hclen := n.toNat + 4, stage := .clLengths })
  | clCodeLengths (vals : List (BitVec 3)) :
      ExecShape s (.clCodeLengths vals) (.next { s with clLens := scatterClLens vals, stage := .clBuild })
  | clLit (n : BitVec 4) : ExecShape s (.clLit n) (.next (pushLen n.toNat s))
  | clRep (x : BitVec 2) : ExecShape s (.clRep x) (execClRep x s)
  | clZ3 (x : BitVec 3) : ExecShape s (.clZ3 x) (runLens (3 + x.toNat) 0 s)
  | clZ11 (x : BitVec 7) : ExecShape s (.clZ11 x) (runLens (11 + x.toNat) 0 s)
  | lit (v : BitVec 8) : ExecShape s (.lit v) (.next (emit v s))
  | eob : ExecShape s .eob (.next (endOfBlock s))
  | length (i : Instr) (l : Nat) (h : 3 ≤ l ∧ l ≤ 258) : ExecShape s i (.next { s with stage := .dist l })
  | distance (i : Instr) (d : Nat) (h : 1 ≤ d ∧ d ≤ 32768) : ExecShape s i (distToken d s)
  | error (i : Instr) (e : ErrCode) (h : e ≠ .none) : ExecShape s i (.next (raise e s))
  | filter (f : FilterType) : ExecShape s f.instr (filterRow f f.pred s)

theorem ExecShape.ofLength (s : State) (i : Instr) (base : Nat) {w : Nat} (x : BitVec w)
    (h : 3 ≤ base ∧ base + 2 ^ w ≤ 259) : ExecShape s i (lengthToken (baseExtra base x) s) :=
  .length i _ (by have := x.isLt; simp only [baseExtra]; omega)

theorem ExecShape.ofDistance (s : State) (i : Instr) (base : Nat) {w : Nat} (x : BitVec w)
    (h : 1 ≤ base ∧ base + 2 ^ w ≤ 32769) : ExecShape s i (distToken (baseExtra base x) s) :=
  .distance i _ (by have := x.isLt; simp only [baseExtra]; omega)

/-- Every instruction does one of these things. -/
theorem exec_shape (i : Instr) (s : State) : ExecShape s i (exec i s) := by
  cases i <;> first
    | exact .blockHeader _ _
    | exact .btypeStored
    | exact .btypeFixed
    | exact .btypeDynamic
    | exact .storedHeader _ _
    | exact .dynamicHeader _ _ _
    | exact .clCodeLengths _
    | exact .clLit _
    | exact .clRep _
    | exact .clZ3 _
    | exact .clZ11 _
    | exact .lit _
    | exact .eob
    | exact .length _ _ (by omega)
    | exact .distance _ _ (by omega)
    | exact .ofLength s _ _ _ (by decide)
    | exact .ofDistance s _ _ _ (by decide)
    | exact .error _ .invalidBackReference (by decide)
    | exact .error _ .invalidFilterType (by decide)
    | exact .error _ .invalidBlockType (by decide)
    | exact .filter .none
    | exact .filter .sub
    | exact .filter .up
    | exact .filter .average
    | exact .filter .paeth

/-- A token of the code-length alphabet writes LENSEQ and NLENS, or raises. -/
theorem clInstr_shape {sym x : Nat} {i : Instr} (h : clInstr sym x = some i) :
    (∃ n, i = .clLit n) ∨ (∃ n, i = .clRep n) ∨ (∃ n, i = .clZ3 n) ∨ (∃ n, i = .clZ11 n) := by
  unfold clInstr at h
  split at h
  · exact .inl ⟨_, (Option.some.inj h).symm⟩
  · split at h
    · exact .inr (.inl ⟨_, (Option.some.inj h).symm⟩)
    · exact .inr (.inr (.inl ⟨_, (Option.some.inj h).symm⟩))
    · exact .inr (.inr (.inr ⟨_, (Option.some.inj h).symm⟩))
    · cases h

/-- A fetched token is never a filter type: a filter-type byte comes from the inflated stream. -/
theorem answers_not_filter {c : Ctx} {f : FilterType} (h : Answers c f.instr) : c = .filter := by
  generalize hi : f.instr = i at h
  cases h with
  | filter b => rfl
  | btype t => unfold btypeInstr at hi; cases f <;> split at hi <;> cases hi
  | cl h =>
    rcases clInstr_shape h with ⟨n, rfl⟩ | ⟨n, rfl⟩ | ⟨n, rfl⟩ | ⟨n, rfl⟩ <;> cases f <;> cases hi
  | ll h =>
    subst hi
    unfold llInstr at h
    split at h
    · cases f <;> cases h
    · cases f <;> split at h <;> cases h
  | dist h =>
    subst hi
    unfold distInstr at h
    cases f <;> split at h <;> cases h
  | _ => cases f <;> cases hi

/-- A CL_LIT token is fetched from the code-length alphabet only. -/
theorem answers_clLit {c : Ctx} {n : BitVec 4} (h : Answers c (.clLit n)) : ∃ T p, c = .cl T p := by
  generalize hi : Instr.clLit n = i at h
  cases h with
  | btype t => unfold btypeInstr at hi; split at hi <;> cases hi
  | cl h => exact ⟨_, _, rfl⟩
  | ll h =>
    subst hi
    unfold llInstr at h
    split at h
    · cases h
    · split at h <;> cases h
  | dist h => subst hi; unfold distInstr at h; split at h <;> cases h
  | filter b =>
    unfold filterInstr at hi
    split at hi <;> try cases hi
    split_ifs at hi
  | clFirst => exact ⟨_, _, rfl⟩
  | _ => cases hi

/-- A token is fetched in its own context, up to the table and to the flag of a first code-length token. -/
theorem answers_ctx {c : Ctx} {i : Instr} (h : Answers c i) :
    ∃ k : Codes, c = i.ctx k ∨ (i.ctx k = .cl k.cl true ∧ ∃ p, c = .cl k.cl p) := by
  cases h with
  | btype t => exact ⟨tableCodes, .inl (by unfold btypeInstr; split <;> rfl)⟩
  | clFirst T => exact ⟨⟨T, T, T⟩, .inr ⟨rfl, _, rfl⟩⟩
  | @cl T p sym x i h =>
    rcases clInstr_shape h with ⟨n, rfl⟩ | ⟨n, rfl⟩ | ⟨n, rfl⟩ | ⟨n, rfl⟩ <;> exact ⟨⟨T, T, T⟩, .inr ⟨rfl, _, rfl⟩⟩
  | @ll T sym x i h =>
    refine ⟨⟨T, T, T⟩, .inl ?_⟩
    unfold llInstr at h
    split at h
    · cases h; rfl
    · split at h <;> cases h <;> rfl
  | @dist T sym x i h =>
    refine ⟨⟨T, T, T⟩, .inl ?_⟩
    unfold distInstr at h
    split at h <;> cases h <;> rfl
  | filter b =>
    refine ⟨tableCodes, .inl ?_⟩
    unfold filterInstr
    split <;> first
      | rfl
      | (split_ifs <;> rfl)
  | _ => exact ⟨tableCodes, .inl rfl⟩

/-- A token of the literal/length alphabet emits, ends the block, gives a length, or raises. -/
theorem llInstr_shape {sym x : Nat} {i : Instr} (h : llInstr sym x = some i) (s : State) :
    (∃ v, i = .lit v) ∨ i = .eob
    ∨ (∃ l, 3 ≤ l ∧ l ≤ 258 ∧ exec i s = .next { s with stage := .dist l })
    ∨ exec i s = .next (raise .invalidBackReference s) := by
  unfold llInstr at h
  split at h
  · exact .inl ⟨_, (Option.some.inj h).symm⟩
  · have ext : ∀ (base : Nat) {w : Nat} (y : BitVec w), 3 ≤ base ∧ base + 2 ^ w ≤ 259 →
        ∃ l, 3 ≤ l ∧ l ≤ 258 ∧ lengthToken (baseExtra base y) s = .next { s with stage := .dist l } := by
      intro base w y hb
      have := y.isLt
      exact ⟨_, by simp only [baseExtra]; omega, by simp only [baseExtra]; omega, rfl⟩
    split at h <;> first
      | (cases Option.some.inj h
         first
           | exact .inr (.inl rfl)
           | exact .inr (.inr (.inr rfl))
           | exact .inr (.inr (.inl ⟨_, by omega, by omega, rfl⟩))
           | exact .inr (.inr (.inl (ext _ _ (by decide)))))
      | cases h

/-- A token of the distance alphabet gives a distance, or raises. -/
theorem distInstr_shape {sym x : Nat} {i : Instr} (h : distInstr sym x = some i) (s : State) :
    (∃ d, 1 ≤ d ∧ d ≤ 32768 ∧ exec i s = distToken d s) ∨ exec i s = .next (raise .invalidBackReference s) := by
  have ext : ∀ (base : Nat) {w : Nat} (y : BitVec w), 1 ≤ base ∧ base + 2 ^ w ≤ 32769 →
      ∃ d, 1 ≤ d ∧ d ≤ 32768 ∧ distToken (baseExtra base y) s = distToken d s := by
    intro base w y hb
    have := y.isLt
    exact ⟨_, by simp only [baseExtra]; omega, by simp only [baseExtra]; omega, rfl⟩
  unfold distInstr at h
  split at h <;> first
    | (cases Option.some.inj h
       first
         | exact .inr rfl
         | exact .inl ⟨_, by omega, by omega, rfl⟩
         | exact .inl (ext _ _ (by decide)))
    | cases h

/-- A filter-type byte is accepted or reconstructs its row, or raises. -/
theorem filterInstr_shape (b : Byte) (s : State) :
    (∃ f : FilterType, filterInstr b = f.instr) ∨ exec (filterInstr b) s = .next (raise .invalidFilterType s) := by
  unfold filterInstr
  split
  · exact .inl ⟨.none, rfl⟩
  · exact .inl ⟨.sub, rfl⟩
  · exact .inl ⟨.up, rfl⟩
  · exact .inl ⟨.average, rfl⟩
  · exact .inl ⟨.paeth, rfl⟩
  · exact .inr rfl
  · split_ifs <;> exact .inr rfl

/-- The instruction of a filter type works on the row. -/
theorem filterType_exec (f : FilterType) (s : State) : exec f.instr s = filterRow f f.pred s := by
  cases f <;> rfl

/-- A block type selects its phase, or raises. -/
theorem btypeInstr_shape (t : BitVec 2) (s : State) :
    (∃ p, (p = .stored ∨ p = .fixed ∨ p = .dynamic) ∧ exec (btypeInstr t) s = .next { s with phase := p, stage := .start })
    ∨ exec (btypeInstr t) s = .next (raise .invalidBlockType s) := by
  unfold btypeInstr
  split
  · exact .inl ⟨.stored, .inl rfl, rfl⟩
  · exact .inl ⟨.fixed, .inr (.inl rfl), rfl⟩
  · exact .inl ⟨.dynamic, .inr (.inr rfl), rfl⟩
  · exact .inr rfl

/-! ## Shared operations -/

theorem distToken_cases (d : Nat) (s : State) :
    (s.produced < d ∧ distToken d s = .next (raise .invalidBackReference s))
    ∨ (d ≤ s.produced ∧ distToken d s = .next { s with stage := .copy (pendingLen s) d }) := by
  unfold distToken
  split
  · exact .inl ⟨by omega, rfl⟩
  · exact .inr ⟨by omega, rfl⟩

theorem runLens_cases (r v : Nat) (s : State) :
    (s.hlit + s.hdist < s.nlens + r ∧ runLens r v s = .next (raise .invalidHuffmanCode s))
    ∨ (s.nlens + r ≤ s.hlit + s.hdist ∧ runLens r v s = .next (pushLens r v s)) := by
  unfold runLens
  split
  · exact .inl ⟨by omega, rfl⟩
  · exact .inr ⟨by omega, rfl⟩

theorem execClRep_cases (x : BitVec 2) (s : State) :
    execClRep x s = .next (raise .invalidHuffmanCode s)
    ∨ (s.nlens ≠ 0 ∧ s.nlens + (3 + x.toNat) ≤ s.hlit + s.hdist
        ∧ execClRep x s = .next (pushLens (3 + x.toNat) (prevLen s) s)) := by
  unfold execClRep
  split
  · exact .inl rfl
  · rcases runLens_cases (3 + x.toNat) (prevLen s) s with ⟨-, h⟩ | ⟨h1, h⟩
    · exact .inl h
    · exact .inr ⟨by assumption, h1, h⟩

theorem storedHeader_cases (len nlen : BitVec 16) (s : State) :
    (nlen ≠ complement16 len ∧ execStoredHeader len nlen s = .next (raise .invalidStoredBlock s))
    ∨ (nlen = complement16 len ∧ len = 0 ∧ execStoredHeader len nlen s = .next (endOfBlock { s with storedRem := 0 }))
    ∨ (nlen = complement16 len ∧ len ≠ 0
        ∧ execStoredHeader len nlen s = .next { s with storedRem := len.toNat, stage := .raw }) := by
  unfold execStoredHeader
  split
  · split
    · exact .inr (.inl ⟨by assumption, by assumption, rfl⟩)
    · exact .inr (.inr ⟨by assumption, by assumption, rfl⟩)
  · exact .inl ⟨by assumption, rfl⟩

theorem filterRow_cases (f : FilterType) (pred : Nat → Nat → Nat → Nat) (s : State) :
    (s.row ≠ .finishRow ∧ filterRow f pred s = .next (acceptFilter f s))
    ∨ (s.row = .finishRow ∧ s.latH.toNat ≤ s.y ∧ filterRow f pred s = .fault .pixOutOfRange)
    ∨ (s.row = .finishRow ∧ s.y < s.latH.toNat ∧ filterRow f pred s = .next { s with
        pix := s.pix.writeList (s.y * rowLen s) (rebuiltRow pred s), prev := rebuiltRow pred s,
        cur := List.replicate (rowLen s) 0, rowPos := 0, y := s.y + 1, row := .clear }) := by
  unfold filterRow finishRow
  split
  · split
    · exact .inr (.inr ⟨by assumption, by assumption, rfl⟩)
    · exact .inr (.inl ⟨by assumption, by omega, rfl⟩)
  · exact .inl ⟨by assumption, rfl⟩

theorem copyByte_cases (s : State) :
    (∃ left d b, s.stage = .copy (left + 1) d ∧ winRead d s = some b
        ∧ copyByte s = .next (emit b { s with stage := if left = 0 then .start else .copy left d }))
    ∨ (∃ left d, s.stage = .copy (left + 1) d ∧ winRead d s = none ∧ copyByte s = .fault .winUnwritten)
    ∨ copyByte s = .next { s with stage := .start } := by
  unfold copyByte
  split
  · split
    · exact .inl ⟨_, _, _, by assumption, by assumption, rfl⟩
    · exact .inr (.inl ⟨_, _, by assumption, by assumption, rfl⟩)
  all_goals exact .inr (.inr rfl)

theorem rawByte_cases (s : State) :
    (∃ b t, readBits stateSource 8 s = .ok b t ∧ rawByte s = .next (emit (BitVec.ofNat 8 b) { t with stage := .rawNext }))
    ∨ (∃ e t, readBits stateSource 8 s = .err e t ∧ rawByte s = reject e t) := by
  unfold rawByte
  split
  · exact .inl ⟨_, _, by assumption, rfl⟩
  · exact .inr ⟨_, _, by assumption, rfl⟩

theorem finishDecode_cases (s : State) :
    (s.produced < expected s ∧ finishDecode s = raise .truncatedInput s)
    ∨ (expected s ≤ s.produced ∧ finishDecode s = { s with phase := .complete, stage := .start }) := by
  unfold finishDecode
  split
  · exact .inl ⟨by omega, rfl⟩
  · exact .inr ⟨by omega, rfl⟩

/-- Everything an instruction's next state can be, each case with what made it possible. -/
inductive ExecNext (s : State) : Instr → State → Prop
  | header (f : BitVec 1) (t : BitVec 2) :
      ExecNext s (.blockHeader f t) { s with bfinal := f, btype := t, stage := .dispatch }
  | blockType (i : Instr) (p : Phase)
      (h : (i = .btypeStored ∧ p = .stored) ∨ (i = .btypeFixed ∧ p = .fixed) ∨ (i = .btypeDynamic ∧ p = .dynamic)) :
      ExecNext s i { s with phase := p, stage := .start }
  | storedEmpty (len nlen : BitVec 16) : ExecNext s (.storedHeader len nlen) (endOfBlock { s with storedRem := 0 })
  | stored (len nlen : BitVec 16) (h : len ≠ 0) :
      ExecNext s (.storedHeader len nlen) { s with storedRem := len.toNat, stage := .raw }
  | dynamicHeader (h d : BitVec 5) (n : BitVec 4) :
      ExecNext s (.dynamicHeader h d n)
        { s with hlit := h.toNat + 257, hdist := d.toNat + 1, hclen := n.toNat + 4, stage := .clLengths }
  | clCodeLengths (vals : List (BitVec 3)) :
      ExecNext s (.clCodeLengths vals) { s with clLens := scatterClLens vals, stage := .clBuild }
  | clLit (n : BitVec 4) : ExecNext s (.clLit n) (pushLen n.toNat s)
  | clRun (i : Instr) (r v : Nat) (hi : (∃ x, i = .clRep x) ∨ (∃ x, i = .clZ3 x) ∨ ∃ x, i = .clZ11 x)
      (hv : v = 0 ∨ (v = prevLen s ∧ s.nlens ≠ 0)) (h : s.nlens + r ≤ s.hlit + s.hdist) :
      ExecNext s i (pushLens r v s)
  | lit (v : BitVec 8) : ExecNext s (.lit v) (emit v s)
  | eob : ExecNext s .eob (endOfBlock s)
  | length (i : Instr) (l : Nat) (h : 3 ≤ l ∧ l ≤ 258) : ExecNext s i { s with stage := .dist l }
  | distance (i : Instr) (d : Nat) (h : 1 ≤ d ∧ d ≤ 32768) (hp : d ≤ s.produced) :
      ExecNext s i { s with stage := .copy (pendingLen s) d }
  | accept (f : FilterType) (h : s.row ≠ .finishRow) : ExecNext s f.instr (acceptFilter f s)
  | finishRow (f : FilterType) (h : s.row = .finishRow) (hy : s.y < s.latH.toNat) :
      ExecNext s f.instr { s with
        pix := s.pix.writeList (s.y * rowLen s) (rebuiltRow f.pred s), prev := rebuiltRow f.pred s,
        cur := List.replicate (rowLen s) 0, rowPos := 0, y := s.y + 1, row := .clear }
  | error (i : Instr) (e : ErrCode) (h : e ≠ .none) : ExecNext s i (raise e s)

theorem exec_next {i : Instr} {s t : State} (h : exec i s = .next t) : ExecNext s i t := by
  have hsh := exec_shape i s
  rw [h] at hsh
  generalize ho : Host.Outcome.next t = o at hsh
  cases hsh with
  | blockHeader f t => cases ho; exact .header f t
  | btypeStored => cases ho; exact .blockType _ _ (.inl ⟨rfl, rfl⟩)
  | btypeFixed => cases ho; exact .blockType _ _ (.inr (.inl ⟨rfl, rfl⟩))
  | btypeDynamic => cases ho; exact .blockType _ _ (.inr (.inr ⟨rfl, rfl⟩))
  | storedHeader len nlen =>
    rcases storedHeader_cases len nlen s with ⟨-, e⟩ | ⟨-, -, e⟩ | ⟨-, hl, e⟩ <;> cases ho.trans e
    · exact .error _ _ (by decide)
    · exact .storedEmpty _ _
    · exact .stored _ _ hl
  | dynamicHeader a d n => cases ho; exact .dynamicHeader a d n
  | clCodeLengths vals => cases ho; exact .clCodeLengths vals
  | clLit n => cases ho; exact .clLit n
  | clRep x =>
    rcases execClRep_cases x s with e | ⟨h0, hr, e⟩ <;> cases ho.trans e
    · exact .error _ _ (by decide)
    · exact .clRun _ _ _ (.inl ⟨_, rfl⟩) (.inr ⟨rfl, h0⟩) hr
  | clZ3 x =>
    rcases runLens_cases (3 + x.toNat) 0 s with ⟨-, e⟩ | ⟨hr, e⟩ <;> cases ho.trans e
    · exact .error _ _ (by decide)
    · exact .clRun _ _ _ (.inr (.inl ⟨_, rfl⟩)) (.inl rfl) hr
  | clZ11 x =>
    rcases runLens_cases (11 + x.toNat) 0 s with ⟨-, e⟩ | ⟨hr, e⟩ <;> cases ho.trans e
    · exact .error _ _ (by decide)
    · exact .clRun _ _ _ (.inr (.inr ⟨_, rfl⟩)) (.inl rfl) hr
  | lit v => cases ho; exact .lit v
  | eob => cases ho; exact .eob
  | length i l hl => cases ho; exact .length _ _ hl
  | distance i d hd =>
    rcases distToken_cases d s with ⟨-, e⟩ | ⟨hp, e⟩ <;> cases ho.trans e
    · exact .error _ _ (by decide)
    · exact .distance _ _ hd hp
  | error i e he => cases ho; exact .error _ _ he
  | filter f =>
    rcases filterRow_cases f f.pred s with ⟨hr, e⟩ | ⟨-, -, e⟩ | ⟨hr, hy, e⟩ <;> cases ho.trans e
    · exact .accept _ hr
    · exact .finishRow _ hr hy

/-- Everything the next state of a rule between tokens can be. -/
inductive MicroNext (s : State) : Micro → State → Prop
  | selectFixed : MicroNext s .selectFixed (selectFixed s)
  | buildCl : MicroNext s .buildCl (buildCl s)
  | buildTables : MicroNext s .buildTables (buildTables s)
  | raw (b : Byte) (t : State) (hf : ReadFrame s t) (ht : ∃ v, readBits stateSource 8 s = .ok v t) :
      MicroNext s .rawByte (emit b { t with stage := .rawNext })
  | rawFailed (e : ErrCode) (t : State) (hf : ReadFrame s t) (he : e ≠ .none) (ht : t = (readBits stateSource 8 s).state) :
      MicroNext s .rawByte (raise e t)
  | rawLast (h : s.storedRem ≤ 1) : MicroNext s .rawNext (endOfBlock { s with storedRem := s.storedRem - 1 })
  | rawMore (h : 1 < s.storedRem) : MicroNext s .rawNext { s with storedRem := s.storedRem - 1, stage := .raw }
  | copied (left d : Nat) (b : Byte) (hs : s.stage = .copy (left + 1) d) (hb : winRead d s = some b) :
      MicroNext s .copyByte (emit b { s with stage := if left = 0 then .start else .copy left d })
  | copyDone : MicroNext s .copyByte { s with stage := .start }
  | truncated (h : s.produced < expected s) : MicroNext s .finish (raise .truncatedInput s)
  | complete (h : expected s ≤ s.produced) : MicroNext s .finish { s with phase := .complete, stage := .start }

theorem micro_next {m : Micro} {s t : State} (h : microStep m s = .next t) : MicroNext s m t := by
  cases m with
  | selectFixed => cases h; exact .selectFixed
  | buildCl => cases h; exact .buildCl
  | buildTables => cases h; exact .buildTables
  | rawByte =>
    have hf := readBits_frame 8 s
    rcases rawByte_cases s with ⟨b, u, hr, e⟩ | ⟨er, u, hr, e⟩
    · have h := e.symm.trans h
      cases h
      rw [hr] at hf
      exact .raw _ u hf ⟨b, hr⟩
    · have h := e.symm.trans h
      rw [hr] at hf
      cases er <;> cases h
      · exact .rawFailed _ u hf (by decide) (by rw [hr]; rfl)
      · exact .rawFailed _ u hf (by decide) (by rw [hr]; rfl)
  | rawNext =>
    cases h
    unfold rawNext
    split
    · exact .rawLast (by assumption)
    · exact .rawMore (by omega)
  | copyByte =>
    rcases copyByte_cases s with ⟨left, d, b, hs, hb, e⟩ | ⟨left, d, -, -, e⟩ | e <;> cases e.symm.trans h
    · exact .copied left d b hs hb
    · exact .copyDone
  | finish =>
    cases h
    rcases finishDecode_cases s with ⟨hp, e⟩ | ⟨hp, e⟩ <;> rw [e]
    · exact .truncated hp
    · exact .complete hp

theorem defilterFrom_length (pred : Nat → Nat → Nat → Nat) (bpp : Nat) (prev done cur : List Byte) :
    (defilterFrom pred bpp prev done cur).length = done.length + cur.length := by
  induction cur generalizing done with
  | nil => rfl
  | cons x cur ih => rw [defilterFrom, ih]; simp; omega

/-- A reconstructed row is as long as the assembled row. -/
theorem rebuiltRow_length (pred : Nat → Nat → Nat → Nat) (s : State) : (rebuiltRow pred s).length = s.cur.length := by
  rw [rebuiltRow, defilter, defilterFrom_length]
  simp

/-! ## Steps -/

/-- Everything a CORE step can do, by the operation it is made of. -/
inductive CoreShape (s : State) : Host.Outcome State Fault Refusal → Prop
  | idle (h : nextOp s = .idle) : CoreShape s (.next s)
  | run (i : Instr) (h : nextOp s = .run i) : CoreShape s (exec i s)
  | micro (m : Micro) (h : nextOp s = .micro m) : CoreShape s (microStep m s)
  | token (c : Ctx) (i : Instr) (t : State) (h : nextOp s = .fetch c) (hf : fetch c s = .ok i t) : CoreShape s (exec i t)
  | failed (c : Ctx) (e : Reject) (t : State) (h : nextOp s = .fetch c) (hf : fetch c s = .err e t) :
      CoreShape s (reject e t)

theorem coreStep_shape (s : State) : CoreShape s (coreStep s) := by
  unfold coreStep
  split
  · exact .idle (by assumption)
  · exact .run _ (by assumption)
  · exact .micro _ (by assumption)
  · split
    · exact .token _ _ _ (by assumption) (by assumption)
    · exact .failed _ _ _ (by assumption) (by assumption)

/-- Whose turn it is: a step is a CORE step, or the host's move that is due, from the state with the host's list advanced. -/
theorem step_shape (s : State) :
    (∃ rest, step s = coreStep { s with host := rest }) ∨ (∃ m rest, step s = hostMove m { s with host := rest }) := by
  unfold step agentStep
  split
  · rename_i h
    exact .inl ⟨[], by rw [← h]⟩
  · exact .inr ⟨_, _, rfl⟩
  · exact .inl ⟨_, rfl⟩

/-- While the CORE is busy, a filter-type row that is due comes first. -/
theorem nextOp_busy (s : State) (h : s.phase.busy = true) :
    (∃ b, s.row = .filterByte b ∧ nextOp s = .run (filterInstr b))
    ∨ (s.row = .finishRow ∧ nextOp s = .run s.curF.instr)
    ∨ (s.row = .clear ∧ nextOp s = phaseOp s) := by
  unfold nextOp
  rw [if_pos h]
  cases hr : s.row with
  | clear => exact .inr (.inr ⟨rfl, rfl⟩)
  | filterByte b => exact .inl ⟨b, rfl, rfl⟩
  | finishRow => exact .inr (.inl ⟨rfl, rfl⟩)

theorem nextOp_not_busy (s : State) (h : s.phase.busy = false) : nextOp s = .idle := by
  simp [nextOp, h]

theorem coreStep_not_busy (s : State) (h : s.phase.busy = false) : coreStep s = .next s := by
  simp [coreStep, nextOp_not_busy s h]

/-- A token is fetched only when no filter-type row is due, by the part of the phase's rule that is next. -/
theorem nextOp_fetch {s : State} {c : Ctx} (h : nextOp s = .fetch c) :
    s.phase.busy = true ∧ s.row = .clear ∧ phaseOp s = .fetch c := by
  by_cases hb : s.phase.busy = true
  · rcases nextOp_busy s hb with ⟨b, -, e⟩ | ⟨-, e⟩ | ⟨hr, e⟩
    · rw [e] at h; cases h
    · rw [e] at h; cases h
    · exact ⟨hb, hr, e ▸ h⟩
  · rw [nextOp_not_busy s (Bool.eq_false_of_not_eq_true hb)] at h; cases h

/-- A rule between tokens runs only when no filter-type row is due. -/
theorem nextOp_micro {s : State} {m : Micro} (h : nextOp s = .micro m) :
    s.phase.busy = true ∧ s.row = .clear ∧ phaseOp s = .micro m := by
  by_cases hb : s.phase.busy = true
  · rcases nextOp_busy s hb with ⟨b, -, e⟩ | ⟨-, e⟩ | ⟨hr, e⟩
    · rw [e] at h; cases h
    · rw [e] at h; cases h
    · exact ⟨hb, hr, e ▸ h⟩
  · rw [nextOp_not_busy s (Bool.eq_false_of_not_eq_true hb)] at h; cases h

/-- Where each token is fetched: the phase, the stage and the table. -/
theorem phaseOp_fetch {s : State} {c : Ctx} (h : phaseOp s = .fetch c) :
    (s.phase = .blockHeader ∧ c = .blockHeader) ∨ (s.phase = .stored ∧ c = .stored)
    ∨ (s.phase = .dynamic ∧ c = .dynamic) ∨ (s.phase = .dynamic ∧ s.stage = .clLengths ∧ c = .clLengths s.hclen)
    ∨ (s.phase = .dynamic ∧ s.stage = .clTokens ∧ s.nlens < s.hlit + s.hdist ∧ c = .cl s.tCL (decide (s.nlens ≠ 0)))
    ∨ (s.phase = .symbols ∧ (∃ l, s.stage = .dist l) ∧ c = .dist s.tD) ∨ (s.phase = .symbols ∧ c = .ll s.tLL) := by
  unfold phaseOp at h
  split at h
  · cases h
  · cases h
  · cases h
  · split at h <;> cases h <;> simp_all
  · split at h <;> cases h <;> simp_all
  · cases h
  · split at h
    · cases h; simp_all
    · cases h
    · split at h <;> cases h; simp_all
    all_goals cases h; simp_all
  · split at h <;> cases h <;> simp_all
  · cases h

/-- Where each rule between tokens runs. -/
theorem phaseOp_micro {s : State} {m : Micro} (h : phaseOp s = .micro m) :
    (s.phase = .stored ∧ s.stage = .raw ∧ m = .rawByte) ∨ (s.phase = .stored ∧ s.stage = .rawNext ∧ m = .rawNext)
    ∨ (s.phase = .fixed ∧ m = .selectFixed) ∨ (s.phase = .dynamic ∧ s.stage = .clBuild ∧ m = .buildCl)
    ∨ (s.phase = .dynamic ∧ s.stage = .clTokens ∧ s.hlit + s.hdist ≤ s.nlens ∧ m = .buildTables)
    ∨ (s.phase = .symbols ∧ (∃ n d, s.stage = .copy n d) ∧ m = .copyByte) ∨ (s.phase = .finish ∧ m = .finish) := by
  unfold phaseOp at h
  split at h
  · cases h
  · cases h
  · cases h
  · split at h <;> cases h
  · split at h <;> cases h <;> simp_all
  · cases h; simp_all
  · split at h
    · cases h
    · cases h; simp_all
    · split at h <;> cases h; simp_all
    all_goals cases h
  · split at h <;> cases h; simp_all
  · cases h; simp_all

/-- A filter-type row or a block type is what can be selected without reading a token. -/
theorem nextOp_run {s : State} {i : Instr} (h : nextOp s = .run i) :
    s.phase.busy = true ∧ ((∃ b, s.row = .filterByte b ∧ i = filterInstr b) ∨ (s.row = .finishRow ∧ i = s.curF.instr)
      ∨ (s.row = .clear ∧ s.phase = .blockHeader ∧ s.stage = .dispatch ∧ i = btypeInstr s.btype)) := by
  by_cases hb : s.phase.busy = true
  · refine ⟨hb, ?_⟩
    rcases nextOp_busy s hb with ⟨b, hr, e⟩ | ⟨hr, e⟩ | ⟨hr, e⟩
    · rw [e] at h; cases h; exact .inl ⟨b, hr, rfl⟩
    · rw [e] at h; cases h; exact .inr (.inl ⟨hr, rfl⟩)
    · refine .inr (.inr ⟨hr, ?_⟩)
      rw [e] at h
      unfold phaseOp at h
      split at h
      · cases h
      · cases h
      · cases h
      · split at h <;> cases h; exact ⟨by assumption, by assumption, rfl⟩
      · split at h <;> cases h
      · cases h
      · split at h <;> first
          | cases h
          | (split at h <;> cases h)
      · split at h <;> cases h
      · cases h
  · rw [nextOp_not_busy s (Bool.eq_false_of_not_eq_true hb)] at h; cases h

/-- Where an instruction of a CORE step comes from: a row that is due, the dispatch of a block type, or a token of the context that
is next. -/
theorem instr_source {s u : State} {i : Instr}
    (h : (u = s ∧ nextOp s = .run i) ∨ (∃ c, nextOp s = .fetch c ∧ fetch c s = .ok i u)) :
    (u = s ∧ Answers .filter i) ∨ (u = s ∧ s.phase = .blockHeader ∧ s.stage = .dispatch ∧ i = btypeInstr s.btype)
      ∨ ∃ c, nextOp s = .fetch c ∧ fetch c s = .ok i u ∧ Answers c i := by
  rcases h with ⟨rfl, h⟩ | ⟨c, h, hf⟩
  · rcases (nextOp_run h).2 with ⟨b, -, rfl⟩ | ⟨-, rfl⟩ | ⟨-, hp, hs, e⟩
    · exact .inl ⟨rfl, .filter b⟩
    · have e : u.curF.instr = filterInstr u.curF.byte := by cases u.curF <;> rfl
      exact .inl ⟨rfl, e ▸ .filter _⟩
    · exact .inr (.inl ⟨rfl, hp, hs, e⟩)
  · exact .inr (.inr ⟨c, h, hf, decode_answers _ _ _ _ _ hf⟩)

/-- Everything a host move can do. -/
inductive HostShape (s : State) : Host.Outcome State Fault Refusal → Prop
  | same (r : Nat) : HostShape s (.next { s with rdata := r })
  | cfg (w h : Reg32) (b : BitVec 3) (hb : s.phase.busy = false) :
      HostShape s (.next { s with cfgWidth := w, cfgHeight := h, cfgBpp := b })
  | reset : HostShape s (.next (resetCore s))
  | started (hb : s.phase.busy = false) (hc : configOk s = true) : HostShape s (.next (startDecode s))
  | startFailed (hb : s.phase.busy = false) : HostShape s (.next (raiseAt .unsupportedFeature 0 0 s))
  | input (a : Nat) (b : Byte) (hb : s.phase.busy = false) : HostShape s (.next { s with inMem := s.inMem.write a b })
  | inputLen (n : Nat) (hb : s.phase.busy = false) : HostShape s (.next { s with inLen := n })
  | badRead : HostShape s (.fault .pixNotReadable)
  | refused : HostShape s (.refused .hostWriteWhileBusy)
  | noRegister : HostShape s (.refused .noRegister)

theorem writeReg_shape (r : Reg) (v : Reg32) (s : State) : HostShape s (.next (writeReg r v s)) := by
  cases r <;> simp only [writeReg]
  case cfgWidth =>
    split
    · exact .same s.rdata
    · exact .cfg v s.cfgHeight s.cfgBpp (Bool.eq_false_of_not_eq_true ‹_›)
  case cfgHeight =>
    split
    · exact .same s.rdata
    · exact .cfg s.cfgWidth v s.cfgBpp (Bool.eq_false_of_not_eq_true ‹_›)
  case cfgBpp =>
    split
    · exact .same s.rdata
    · exact .cfg s.cfgWidth s.cfgHeight _ (Bool.eq_false_of_not_eq_true ‹_›)
  case ctrl =>
    unfold writeCtrl
    split
    · exact .reset
    · split
      · split
        · exact .same s.rdata
        · rename_i hb
          unfold start
          split
          · exact .started (by simpa using hb) (by assumption)
          · exact .startFailed (by simpa using hb)
      · exact .same s.rdata
  all_goals exact .same s.rdata

/-- An access at a register's bus address is the access of that register; elsewhere it is refused. -/
theorem atRegister_shape (a : Nat) (access : Reg → State → State) (s : State)
    (h : ∀ r, HostShape s (.next (access r s))) : HostShape s (atRegister a access s) := by
  unfold atRegister
  split
  · exact h _
  · exact .noRegister

/-- Where the registers' addresses are distinct, each register is found at its own. -/
theorem regAt_regAddr {p : Params} (hd : ∀ r r', regAddr p r = regAddr p r' → r = r') (r : Reg) :
    regAt p (regAddr p r) = some r := by
  cases h : regAt p (regAddr p r) with
  | none =>
    have := List.find?_eq_none.mp h r (by cases r <;> decide)
    simp at this
  | some r' =>
    have := List.find?_some h
    exact congrArg some (hd r' r (by simpa using this))

theorem hostMove_shape (m : HostMove) (s : State) : HostShape s (hostMove m s) := by
  cases m with
  | writeReg r v => exact writeReg_shape r v s
  | readReg r => exact .same _
  | busWrite a v => exact atRegister_shape a _ s fun r => writeReg_shape r v s
  | busRead a => exact atRegister_shape a _ s fun r => .same _
  | writeIn a b =>
    simp only [hostMove]
    split
    · exact .refused
    · exact .input a b (Bool.eq_false_of_not_eq_true ‹_›)
  | setInLen n =>
    simp only [hostMove]
    split
    · exact .refused
    · exact .inputLen n (Bool.eq_false_of_not_eq_true ‹_›)
  | readPix a =>
    simp only [hostMove, hostReadPix]
    split
    · split
      · exact .same _
      · exact .badRead
    · exact .badRead

/-! ## Induction over a step -/

/-- To show that every step keeps a property: it does not look at the host's list, and the host's moves and the CORE's steps
keep it. -/
theorem step_preserves {P : State → Prop} (hl : ∀ s rest, P s → P { s with host := rest })
    (hh : ∀ s o t, P s → HostShape s o → o = .next t → P t) (hc : ∀ s t, P s → coreStep s = .next t → P t)
    {s t : State} (hs : P s) (h : step s = .next t) : P t := by
  rcases step_shape s with ⟨rest, e⟩ | ⟨m, rest, e⟩
  · exact hc _ _ (hl s rest hs) (e ▸ h)
  · exact hh _ _ _ (hl s rest hs) (hostMove_shape m _) (e ▸ h)

/-- To show that every CORE step keeps a property: reading a token keeps it, an instruction that can come next keeps it, and so
do the rules between tokens and the raising of an error. -/
theorem coreStep_preserves {P : State → Prop} {s t : State}
    (hread : ∀ c, nextOp s = .fetch c → P (fetch c s).state)
    (hexec : ∀ i u, P u → ExecNext u i t
      → (u = s ∧ nextOp s = .run i) ∨ (∃ c, nextOp s = .fetch c ∧ fetch c s = .ok i u) → P t)
    (hmicro : ∀ m, nextOp s = .micro m → MicroNext s m t → P t)
    (herr : ∀ e u, P u → t = raise e u → e ≠ .none → P t)
    (hs : P s) (h : coreStep s = .next t) : P t := by
  have hsh := coreStep_shape s
  rw [h] at hsh
  generalize ho : Host.Outcome.next t = o at hsh
  cases hsh with
  | idle _ => cases ho; exact hs
  | run i hn => exact hexec i s hs (exec_next ho.symm) (.inl ⟨rfl, hn⟩)
  | micro m hn => exact hmicro m hn (micro_next ho.symm)
  | token c i u hn hf =>
    have := hread c hn
    rw [hf] at this
    exact hexec i u this (exec_next ho.symm) (.inr ⟨c, hn, hf⟩)
  | failed c e u hn hf =>
    have := hread c hn
    rw [hf] at this
    cases e <;> simp only [reject] at ho
    · cases ho; exact herr _ u this rfl (by decide)
    · cases ho; exact herr _ u this rfl (by decide)
    · cases ho
    · cases ho

end Sys2Proof.Machine
end

