-- ==== Sys2Proof/Laws/Huffman.lean ====
section
/-! SUPPORT. The laws of codes as lists of bits, and of looking a code up. -/

namespace Sys2Proof

theorem bitsLsb_succ_last (n v : Nat) : bitsLsb (n + 1) v = bitsLsb n v ++ [v.testBit n] := by
  induction n generalizing v with
  | zero => simp only [bitsLsb, List.nil_append, Nat.testBit_zero]; congr 1
  | succ n ih => rw [bitsLsb, ih, bitsLsb, List.cons_append, Nat.testBit_succ]

/-- A code from its most significant bit on. -/
theorem bitsMsb_succ (n v : Nat) : bitsMsb (n + 1) v = v.testBit n :: bitsMsb n v := by
  simp [bitsMsb, bitsLsb_succ_last]

/-- A code up to its least significant bit. -/
theorem bitsMsb_succ' (n v : Nat) : bitsMsb (n + 1) v = bitsMsb n (v / 2) ++ [v % 2 == 1] := by
  simp [bitsMsb, bitsLsb]

/-- The first bits of a code are the code of its leading part. -/
theorem bitsMsb_prefix (l k v : Nat) : bitsMsb l (v / 2 ^ k) <+: bitsMsb (l + k) v := by
  induction k generalizing v with
  | zero => simp
  | succ k ih =>
    rw [← Nat.add_assoc, bitsMsb_succ']
    have := ih (v / 2)
    rw [Nat.div_div_eq_div_mul, ← Nat.pow_succ'] at this
    exact this.trans (List.prefix_append _ _)

/-- Codes of one length that fit it differ when their values do. -/
theorem bitsMsb_inj {n v w : Nat} (hv : v < 2 ^ n) (hw : w < 2 ^ n) (h : bitsMsb n v = bitsMsb n w) : v = w := by
  induction n generalizing v w with
  | zero => simp at hv hw; omega
  | succ n ih =>
    rw [bitsMsb_succ', bitsMsb_succ'] at h
    rw [Nat.pow_succ] at hv hw
    have h := List.append_inj h (by simp [bitsMsb_length])
    have h1 := ih (v := v / 2) (w := w / 2) (by omega) (by omega) h.1
    have h2 : v % 2 = w % 2 := by
      have := h.2
      simp only [List.cons.injEq, and_true] at this
      have := Bool.eq_iff_iff.mp this
      simp only [beq_iff_eq] at this
      omega
    omega

/-- The candidate after one more bit of a code (20_memory.md R76). -/
theorem candidate_step (v k : Nat) : 2 * (v / 2 ^ (k + 1)) + (v.testBit k).toNat = v / 2 ^ k := by
  have : (v.testBit k).toNat = v / 2 ^ k % 2 := by
    rw [Nat.testBit_eq_decide_div_mod_eq]
    rcases Nat.mod_two_eq_zero_or_one (v / 2 ^ k) with h | h <;> simp [h]
  rw [this, Nat.pow_succ, ← Nat.div_div_eq_div_mul]
  omega

theorem lookup_self {T : Table} (hT : PrefixFree T) {e : CodeEntry} (he : e ∈ T.code) :
    T.lookup e.len e.val = some e.sym := by
  simp only [Table.lookup]
  cases hf : T.code.find? (fun f => f.len == e.len && f.val == e.val) with
  | none =>
    have := List.find?_eq_none.mp hf e he
    simp at this
  | some f =>
    have hp := List.find?_some hf
    simp only [Bool.and_eq_true, beq_iff_eq] at hp
    have := hT.noPrefix f (List.mem_of_find?_eq_some hf) e he (by rw [hp.1, hp.2])
    rw [this]; rfl

theorem huffLoop_code {T : Table} (hT : PrefixFree T) {e : CodeEntry} (he : e ∈ T.code) (rest : List Bool) (k n l : Nat)
    (hn : k + 1 ≤ n) (hl : l + k = e.len) :
    huffLoop listSource T n l (e.val / 2 ^ (k + 1)) (bitsMsb (k + 1) e.val ++ rest) = .ok e.sym rest := by
  obtain ⟨n, rfl⟩ : ∃ m, n = m + 1 := ⟨n - 1, by omega⟩
  rw [huffLoop, bitsMsb_succ, List.cons_append, listSource_bit_cons, Rd.bind_ok, candidate_step]
  induction k generalizing n l with
  | zero =>
    simp only [Nat.pow_zero, Nat.div_one]
    rw [show l = e.len by omega, lookup_self hT he]
    simp [bitsMsb, bitsLsb]
  | succ k ih =>
    have hno : T.lookup l (e.val / 2 ^ (k + 1)) = none := by
      cases hlk : T.lookup l (e.val / 2 ^ (k + 1)) with
      | none => rfl
      | some sym =>
        obtain ⟨f, hf, h1, h2, -⟩ := Table.lookup_mem hlk
        have := hT.noPrefix f hf e he (by rw [h1, h2, ← hl]; exact bitsMsb_prefix l (k + 1) e.val)
        rw [this] at h1; omega
    rw [hno]
    obtain ⟨n, rfl⟩ : ∃ m, n = m + 1 := ⟨n - 1, by omega⟩
    simp only
    rw [huffLoop, bitsMsb_succ, List.cons_append, listSource_bit_cons, Rd.bind_ok, candidate_step]
    exact ih (l + 1) (by omega) n (by omega)

/-- `Build` of an array of zeros is the empty table (41_huffman.md R144). -/
theorem build_zeros (n : Nat) : build (List.replicate n 0) = Machine.emptyTable := by
  have hm : maxLen (List.replicate n 0) = 0 := by
    induction n with
    | zero => rfl
    | succ n ih => rw [List.replicate_succ]; simp only [maxLen, List.foldr_cons] at *; rw [ih]; rfl
  have ha : ∀ s next, assignCodes (List.replicate n 0) s next = [] := by
    clear hm
    induction n with
    | zero => intros; rfl
    | succ n ih => intro s next; rw [List.replicate_succ, assignCodes, if_pos rfl, ih]
  simp only [build, Machine.emptyTable, hm, ha]

end Sys2Proof
end

