-- ==== Sys2Proof/Tests/Slice0.lean ====
section
/-! SUPPORT. Tests: the encodings and worked examples of the spec (30_encoding.md, 43_symbols_lz77.md, 95_test_vectors.md), and for
each statement with hypotheses a state that meets them. Expected values are the spec's. -/

namespace Sys2Proof.Tests

open Sys2Proof Sys2Proof.Machine

set_option Elab.async false

/-! ## Helpers -/

/-- Bits in read order. -/
def bits (l : List Nat) : List Bool := l.map (· == 1)

/-- The instruction the decoder reads and the number of bits it leaves. -/
def reads (c : Ctx) (l : List Nat) : Option (Instr × Nat) :=
  match decode listSource c (bits l) with
  | .ok i rest => some (i, rest.length)
  | .err _ _ => none

/-- Why the decoder stops, and the number of bits it leaves. -/
def stops (c : Ctx) (l : List Nat) : Option (Reject × Nat) :=
  match decode listSource c (bits l) with
  | .ok _ _ => none
  | .err e rest => some (e, rest.length)

/-- What is seen of the next state. -/
def after {α : Type} (o : Host.Outcome State Fault Refusal) (f : State → α) : Option α :=
  match o with
  | .next s => some (f s)
  | .fault _ => none
  | .refused _ => none

theorem after_some {α : Type} {o : Host.Outcome State Fault Refusal} {f : State → α} {a : α} (h : after o f = some a) :
    ∃ t, o = .next t ∧ f t = a := by
  cases o with
  | next t => exact ⟨t, rfl, Option.some.inj h⟩
  | fault _ => cases h
  | refused _ => cases h

/-- The instruction a read of the machine gives, or why it gives none. -/
def got (r : Rd State Instr) : Instr ⊕ Reject :=
  match r with
  | .ok i _ => .inl i
  | .err e _ => .inr e

theorem got_ok {r : Rd State Instr} {i : Instr} (h : got r = .inl i) : ∃ t, r = .ok i t := by
  cases r with
  | ok j t => cases h; exact ⟨t, rfl⟩
  | err _ _ => cases h

theorem got_err {r : Rd State Instr} {e : Reject} (h : got r = .inr e) : ∃ t, r = .err e t := by
  cases r with
  | ok _ _ => cases h
  | err j t => cases h; exact ⟨t, rfl⟩

/-- The value read and the cursor after it. -/
def cursor (r : Rd State Nat) : Option (Nat × Nat × Nat) :=
  match r with
  | .ok v s => some (v, s.bytePos, s.bitCnt)
  | .err _ _ => none

/-- A machine with a configuration and an input, before START. -/
def loaded (w h : Nat) (bpp : Nat) (bytes : List Byte) : State :=
  { State.reset with
    cfgWidth := BitVec.ofNat 32 w, cfgHeight := BitVec.ofNat 32 h, cfgBpp := BitVec.ofNat 3 bpp
    inMem := Memory.writeList [] 0 bytes, inLen := bytes.length }

/-- The same after START. -/
def begun (w h : Nat) (bpp : Nat) (bytes : List Byte) : State := startDecode (loaded w h bpp bytes)

/-- In SYMBOLS with the fixed tables, the next token at the first bit of these bytes. -/
def inSymbols (bytes : List Byte) : State :=
  { begun 1 1 3 bytes with phase := .symbols, tLL := fixedLL, tD := fixedD, bfinal := 1 }

/-- The error state's registers. -/
def errorOf (s : State) : Phase × ErrCode × Nat × Nat := (s.phase, s.errCode, s.errByte, s.errBit)

/-- The host writes a register next. -/
def hostWrites (r : Reg) (v : Reg32) (s : State) : State := { s with host := [⟨0, .writeReg r v⟩] }

/-! ## Well-formedness: HCLEN is 4 to 19 -/

theorem test_wf_refuses_three_values : (Instr.clCodeLengths (List.replicate 3 0)).wellFormed = false := by decide
theorem test_wf_refuses_twenty_values : (Instr.clCodeLengths (List.replicate 20 0)).wellFormed = false := by decide
theorem test_wf_accepts_bounds : (Instr.clCodeLengths (List.replicate 4 0)).wellFormed = true
    ∧ (Instr.clCodeLengths (List.replicate 19 0)).wellFormed = true := by decide

/-! ## Decoding: words written out from the spec's encodings -/

/-- 42_blocks.md R160 to R164 and 95_test_vectors.md L2.3. -/
theorem test_decode_block_header :
    reads .blockHeader [1, 0, 0] = some (.blockHeader 1 0, 0) ∧ reads .blockHeader [0, 0, 0] = some (.blockHeader 0 0, 0)
    ∧ reads .blockHeader [1, 1, 0] = some (.blockHeader 1 1, 0) ∧ reads .blockHeader [1, 0, 1] = some (.blockHeader 1 2, 0)
    ∧ reads .blockHeader [0, 1, 1] = some (.blockHeader 0 3, 0) ∧ stops .blockHeader [1, 0] = some (.endOfInput, 0) := by
  decide +kernel

/-- 30_encoding.md R113, the BTYPE field alone. -/
theorem test_decode_btype :
    reads .btype [0, 0] = some (.btypeStored, 0) ∧ reads .btype [1, 0] = some (.btypeFixed, 0)
    ∧ reads .btype [0, 1] = some (.btypeDynamic, 0) ∧ reads .btype [1, 1] = some (.btypeReserved, 0) := by decide +kernel

/-- 95_test_vectors.md L2.1 #5: the bytes 34 12 CB ED are LEN 0x1234 and NLEN 0xEDCB. -/
theorem test_decode_stored_header :
    reads .stored [0, 0, 1, 0, 1, 1, 0, 0, 0, 1, 0, 0, 1, 0, 0, 0, 1, 1, 0, 1, 0, 0, 1, 1, 1, 0, 1, 1, 0, 1, 1, 1]
      = some (.storedHeader 0x1234 0xEDCB, 0) := by decide +kernel

/-- 42_blocks.md R167: the fields 2, 0, 14. -/
theorem test_decode_dynamic_header :
    reads .dynamic [0, 1, 0, 0, 0, 0, 0, 0, 0, 0, 0, 1, 1, 1] = some (.dynamicHeader 2 0 14, 0) := by decide +kernel

/-- 95_test_vectors.md L2.5 #4: CLL 1 0 0 1, each of three bits. -/
theorem test_decode_cl_code_lengths :
    reads (.clLengths 4) [1, 0, 0, 0, 0, 0, 0, 0, 0, 1, 0, 0] = some (.clCodeLengths [1, 0, 0, 1], 0) := by decide +kernel

/-- The code-length codes of 95_test_vectors.md L2.5 #2: 2 is 0, 18 is 10, 0 is 110, 1 is 1110, 17 is 1111. -/
def p3Cl : Table := build [3, 4, 1, 0, 0, 0, 0, 0, 0, 0, 0, 0, 0, 0, 0, 0, 0, 4, 2]

/-- Program P3's code-length tokens: CL 2, CL 0, CL 1, CL17 3, and CL18 124 with extra value 113. -/
theorem test_decode_cl_tokens :
    reads (.cl p3Cl true) [0] = some (.clLit 2, 0) ∧ reads (.cl p3Cl true) [1, 1, 0] = some (.clLit 0, 0)
    ∧ reads (.cl p3Cl false) [1, 1, 1, 0] = some (.clLit 1, 0)
    ∧ reads (.cl p3Cl false) [1, 1, 1, 1, 0, 0, 0] = some (.clZ3 0, 0)
    ∧ reads (.cl p3Cl true) [1, 0, 1, 0, 0, 0, 1, 1, 1] = some (.clZ11 113, 0) := by decide +kernel

/-- 95_test_vectors.md L2.5 #4: 16 is the code 1; its extra bits are read only when there is a previous length. -/
theorem test_decode_cl_rep :
    reads (.cl (build ([1] ++ List.replicate 15 0 ++ [1])) true) [1, 0, 1] = some (.clRep 2, 0)
    ∧ reads (.cl (build ([1] ++ List.replicate 15 0 ++ [1])) false) [1, 0, 1] = some (.clRep 0, 2) := by decide +kernel

/-- 30_encoding.md R109: literals 0, 143, 144 and 255, EOB, and the two invalid symbols. -/
theorem test_decode_literals :
    reads (.ll fixedLL) [0, 0, 1, 1, 0, 0, 0, 0] = some (.lit 0, 0) ∧ reads (.ll fixedLL) [1, 0, 1, 1, 1, 1, 1, 1] = some (.lit 143, 0)
    ∧ reads (.ll fixedLL) [1, 1, 0, 0, 1, 0, 0, 0, 0] = some (.lit 144, 0)
    ∧ reads (.ll fixedLL) [1, 1, 1, 1, 1, 1, 1, 1, 1] = some (.lit 255, 0)
    ∧ reads (.ll fixedLL) [0, 0, 0, 0, 0, 0, 0, 1] = some (.eob, 1)
    ∧ reads (.ll fixedLL) [1, 1, 0, 0, 0, 1, 1, 0] = some (.ll286Invalid, 0)
    ∧ reads (.ll fixedLL) [1, 1, 0, 0, 0, 1, 1, 1] = some (.ll287Invalid, 0) := by decide +kernel

/-- 30_encoding.md R110: the fixed codes of the length symbols 257 to 271, each with extra value 1 where it has extra bits. -/
theorem test_decode_lengths_0 :
    reads (.ll fixedLL) [0, 0, 0, 0, 0, 0, 1] = some (.len257, 0)
    ∧ reads (.ll fixedLL) [0, 0, 0, 0, 0, 1, 0] = some (.len258, 0)
    ∧ reads (.ll fixedLL) [0, 0, 0, 0, 0, 1, 1] = some (.len259, 0)
    ∧ reads (.ll fixedLL) [0, 0, 0, 0, 1, 0, 0] = some (.len260, 0)
    ∧ reads (.ll fixedLL) [0, 0, 0, 0, 1, 0, 1] = some (.len261, 0)
    ∧ reads (.ll fixedLL) [0, 0, 0, 0, 1, 1, 0] = some (.len262, 0)
    ∧ reads (.ll fixedLL) [0, 0, 0, 0, 1, 1, 1] = some (.len263, 0)
    ∧ reads (.ll fixedLL) [0, 0, 0, 1, 0, 0, 0] = some (.len264, 0)
    ∧ reads (.ll fixedLL) [0, 0, 0, 1, 0, 0, 1, 1] = some (.len265 1, 0)
    ∧ reads (.ll fixedLL) [0, 0, 0, 1, 0, 1, 0, 1] = some (.len266 1, 0)
    ∧ reads (.ll fixedLL) [0, 0, 0, 1, 0, 1, 1, 1] = some (.len267 1, 0)
    ∧ reads (.ll fixedLL) [0, 0, 0, 1, 1, 0, 0, 1] = some (.len268 1, 0)
    ∧ reads (.ll fixedLL) [0, 0, 0, 1, 1, 0, 1, 1, 0] = some (.len269 1, 0)
    ∧ reads (.ll fixedLL) [0, 0, 0, 1, 1, 1, 0, 1, 0] = some (.len270 1, 0)
    ∧ reads (.ll fixedLL) [0, 0, 0, 1, 1, 1, 1, 1, 0] = some (.len271 1, 0) := by decide +kernel

/-- 30_encoding.md R110: the fixed codes of the length symbols 272 to 285, each with extra value 1 where it has extra bits. -/
theorem test_decode_lengths_1 :
    reads (.ll fixedLL) [0, 0, 1, 0, 0, 0, 0, 1, 0] = some (.len272 1, 0)
    ∧ reads (.ll fixedLL) [0, 0, 1, 0, 0, 0, 1, 1, 0, 0] = some (.len273 1, 0)
    ∧ reads (.ll fixedLL) [0, 0, 1, 0, 0, 1, 0, 1, 0, 0] = some (.len274 1, 0)
    ∧ reads (.ll fixedLL) [0, 0, 1, 0, 0, 1, 1, 1, 0, 0] = some (.len275 1, 0)
    ∧ reads (.ll fixedLL) [0, 0, 1, 0, 1, 0, 0, 1, 0, 0] = some (.len276 1, 0)
    ∧ reads (.ll fixedLL) [0, 0, 1, 0, 1, 0, 1, 1, 0, 0, 0] = some (.len277 1, 0)
    ∧ reads (.ll fixedLL) [0, 0, 1, 0, 1, 1, 0, 1, 0, 0, 0] = some (.len278 1, 0)
    ∧ reads (.ll fixedLL) [0, 0, 1, 0, 1, 1, 1, 1, 0, 0, 0] = some (.len279 1, 0)
    ∧ reads (.ll fixedLL) [1, 1, 0, 0, 0, 0, 0, 0, 1, 0, 0, 0] = some (.len280 1, 0)
    ∧ reads (.ll fixedLL) [1, 1, 0, 0, 0, 0, 0, 1, 1, 0, 0, 0, 0] = some (.len281 1, 0)
    ∧ reads (.ll fixedLL) [1, 1, 0, 0, 0, 0, 1, 0, 1, 0, 0, 0, 0] = some (.len282 1, 0)
    ∧ reads (.ll fixedLL) [1, 1, 0, 0, 0, 0, 1, 1, 1, 0, 0, 0, 0] = some (.len283 1, 0)
    ∧ reads (.ll fixedLL) [1, 1, 0, 0, 0, 1, 0, 0, 1, 0, 0, 0, 0] = some (.len284 1, 0)
    ∧ reads (.ll fixedLL) [1, 1, 0, 0, 0, 1, 0, 1] = some (.len285, 0) := by decide +kernel

/-- 30_encoding.md R111: the fixed codes of the distance symbols 0 to 15, each with extra value 1 where it has extra bits. -/
theorem test_decode_distances_0 :
    reads (.dist fixedD) [0, 0, 0, 0, 0] = some (.dist0, 0)
    ∧ reads (.dist fixedD) [0, 0, 0, 0, 1] = some (.dist1, 0)
    ∧ reads (.dist fixedD) [0, 0, 0, 1, 0] = some (.dist2, 0)
    ∧ reads (.dist fixedD) [0, 0, 0, 1, 1] = some (.dist3, 0)
    ∧ reads (.dist fixedD) [0, 0, 1, 0, 0, 1] = some (.dist4 1, 0)
    ∧ reads (.dist fixedD) [0, 0, 1, 0, 1, 1] = some (.dist5 1, 0)
    ∧ reads (.dist fixedD) [0, 0, 1, 1, 0, 1, 0] = some (.dist6 1, 0)
    ∧ reads (.dist fixedD) [0, 0, 1, 1, 1, 1, 0] = some (.dist7 1, 0)
    ∧ reads (.dist fixedD) [0, 1, 0, 0, 0, 1, 0, 0] = some (.dist8 1, 0)
    ∧ reads (.dist fixedD) [0, 1, 0, 0, 1, 1, 0, 0] = some (.dist9 1, 0)
    ∧ reads (.dist fixedD) [0, 1, 0, 1, 0, 1, 0, 0, 0] = some (.dist10 1, 0)
    ∧ reads (.dist fixedD) [0, 1, 0, 1, 1, 1, 0, 0, 0] = some (.dist11 1, 0)
    ∧ reads (.dist fixedD) [0, 1, 1, 0, 0, 1, 0, 0, 0, 0] = some (.dist12 1, 0)
    ∧ reads (.dist fixedD) [0, 1, 1, 0, 1, 1, 0, 0, 0, 0] = some (.dist13 1, 0)
    ∧ reads (.dist fixedD) [0, 1, 1, 1, 0, 1, 0, 0, 0, 0, 0] = some (.dist14 1, 0)
    ∧ reads (.dist fixedD) [0, 1, 1, 1, 1, 1, 0, 0, 0, 0, 0] = some (.dist15 1, 0) := by decide +kernel

/-- 30_encoding.md R111: the fixed codes of the distance symbols 16 to 31, each with extra value 1 where it has extra bits. -/
theorem test_decode_distances_1 :
    reads (.dist fixedD) [1, 0, 0, 0, 0, 1, 0, 0, 0, 0, 0, 0] = some (.dist16 1, 0)
    ∧ reads (.dist fixedD) [1, 0, 0, 0, 1, 1, 0, 0, 0, 0, 0, 0] = some (.dist17 1, 0)
    ∧ reads (.dist fixedD) [1, 0, 0, 1, 0, 1, 0, 0, 0, 0, 0, 0, 0] = some (.dist18 1, 0)
    ∧ reads (.dist fixedD) [1, 0, 0, 1, 1, 1, 0, 0, 0, 0, 0, 0, 0] = some (.dist19 1, 0)
    ∧ reads (.dist fixedD) [1, 0, 1, 0, 0, 1, 0, 0, 0, 0, 0, 0, 0, 0] = some (.dist20 1, 0)
    ∧ reads (.dist fixedD) [1, 0, 1, 0, 1, 1, 0, 0, 0, 0, 0, 0, 0, 0] = some (.dist21 1, 0)
    ∧ reads (.dist fixedD) [1, 0, 1, 1, 0, 1, 0, 0, 0, 0, 0, 0, 0, 0, 0] = some (.dist22 1, 0)
    ∧ reads (.dist fixedD) [1, 0, 1, 1, 1, 1, 0, 0, 0, 0, 0, 0, 0, 0, 0] = some (.dist23 1, 0)
    ∧ reads (.dist fixedD) [1, 1, 0, 0, 0, 1, 0, 0, 0, 0, 0, 0, 0, 0, 0, 0] = some (.dist24 1, 0)
    ∧ reads (.dist fixedD) [1, 1, 0, 0, 1, 1, 0, 0, 0, 0, 0, 0, 0, 0, 0, 0] = some (.dist25 1, 0)
    ∧ reads (.dist fixedD) [1, 1, 0, 1, 0, 1, 0, 0, 0, 0, 0, 0, 0, 0, 0, 0, 0] = some (.dist26 1, 0)
    ∧ reads (.dist fixedD) [1, 1, 0, 1, 1, 1, 0, 0, 0, 0, 0, 0, 0, 0, 0, 0, 0] = some (.dist27 1, 0)
    ∧ reads (.dist fixedD) [1, 1, 1, 0, 0, 1, 0, 0, 0, 0, 0, 0, 0, 0, 0, 0, 0, 0] = some (.dist28 1, 0)
    ∧ reads (.dist fixedD) [1, 1, 1, 0, 1, 1, 0, 0, 0, 0, 0, 0, 0, 0, 0, 0, 0, 0] = some (.dist29 1, 0)
    ∧ reads (.dist fixedD) [1, 1, 1, 1, 0] = some (.dist30Invalid, 0)
    ∧ reads (.dist fixedD) [1, 1, 1, 1, 1] = some (.dist31Invalid, 0) := by decide +kernel

/-- 44_defilter.md R301 to R306: the filter-type bytes, bit 0 first; each invalid row at its first byte plus 1 where it has one. -/
theorem test_decode_filters :
    reads .filter [0, 0, 0, 0, 0, 0, 0, 0] = some (.filterNone, 0) ∧ reads .filter [1, 0, 0, 0, 0, 0, 0, 0] = some (.filterSub, 0)
    ∧ reads .filter [0, 1, 0, 0, 0, 0, 0, 0] = some (.filterUp, 0) ∧ reads .filter [1, 1, 0, 0, 0, 0, 0, 0] = some (.filterAverage, 0)
    ∧ reads .filter [0, 0, 1, 0, 0, 0, 0, 0] = some (.filterPaeth, 0)
    ∧ reads .filter [1, 0, 1, 0, 0, 0, 0, 0] = some (.filterInvalid05, 0)
    ∧ reads .filter [1, 1, 1, 0, 0, 0, 0, 0] = some (.filterInvalid06 1, 0)
    ∧ reads .filter [1, 0, 0, 1, 0, 0, 0, 0] = some (.filterInvalid08 1, 0)
    ∧ reads .filter [1, 0, 0, 0, 1, 0, 0, 0] = some (.filterInvalid10 1, 0)
    ∧ reads .filter [1, 0, 0, 0, 0, 1, 0, 0] = some (.filterInvalid20 1, 0)
    ∧ reads .filter [1, 0, 0, 0, 0, 0, 1, 0] = some (.filterInvalid40 1, 0)
    ∧ reads .filter [1, 0, 0, 0, 0, 0, 0, 1] = some (.filterInvalid80 1, 0) := by decide +kernel

/-- 95_test_vectors.md L2.2: the codes of the vectors 1, 2, 4 and 6. -/
theorem test_build :
    (List.range 4).map (build [2, 1, 3, 3]).codeBits = [some (bits [1, 0]), some (bits [0]), some (bits [1, 1, 0]), some (bits [1, 1, 1])]
    ∧ (build [3, 3, 3, 3, 3, 2, 4, 4]).codeBits 4 = some (bits [1, 1, 0])
    ∧ (build [3, 3, 3, 3, 3, 2, 4, 4]).codeBits 5 = some (bits [0, 0])
    ∧ (build [3, 3, 3, 3, 3, 2, 4, 4]).codeBits 7 = some (bits [1, 1, 1, 1])
    ∧ (build [1, 1, 1]).lookup 1 2 = some 2
    ∧ (List.range 5).map (build [0, 2, 2, 0, 1]).codeBits = [none, some (bits [1, 0]), some (bits [1, 1]), none, some (bits [0])] := by
  decide +kernel

/-- 95_test_vectors.md L2.2 #9 to #13 and #16: symbol or error, and the bits left. -/
theorem test_huff_decode :
    huffDecode listSource (build [2, 1, 3, 3]) (bits [1, 1, 0]) = .ok 2 []
    ∧ huffDecode listSource (build [2, 1, 3, 3]) (bits [0, 1]) = .ok 1 (bits [1])
    ∧ huffDecode listSource (build [1]) (bits [1, 1]) = .err .noCode (bits [1])
    ∧ huffDecode listSource (build [1, 1, 1]) (bits [1]) = .ok 1 []
    ∧ huffDecode listSource (build [0, 0]) (bits [1]) = .err .noCode (bits [1])
    ∧ huffDecode listSource fixedLL (bits [0, 0, 0, 0, 0]) = .err .endOfInput [] := by decide +kernel

/-! ## The opcode table's words -/

/-- A word of 9 bits is a literal/length symbol, a shorter one a distance symbol or a filter-type byte (Log 7). -/
theorem test_table_words :
    decodeTableWord 16 0x100 = some .eob ∧ decodeTableWord 16 0x109 = some (.len265 0)
    ∧ decodeTableWord 8 0x1D = some (.dist29 0) ∧ decodeTableWord 8 0x80 = some (.filterInvalid80 0) := by decide +kernel

theorem test_fetch_word_eob : after (step (State.reset.withFetchWord 16 0x100)) (·.phase) = some .blockHeader := by decide +kernel
theorem test_fetch_word_len265 : after (step (State.reset.withFetchWord 16 0x109)) (·.stage) = some (.dist 11) := by decide +kernel

/-! ## The bit reader: 95_test_vectors.md L2.1 -/

/-- #1 and #2: 5 with cursor (1, 5), then 54 with cursor (2, 6). -/
theorem test_read_bits :
    cursor (readBits stateSource 3 (loaded 1 1 1 [0xB5, 0x01])) = some (5, 1, 5)
    ∧ cursor (readBits stateSource 7 { loaded 1 1 1 [0xB5, 0x01] with bytePos := 1, curByte := 0x16, bitCnt := 5 })
      = some (54, 2, 6) := by decide +kernel

/-- #8: nothing to read. -/
theorem test_read_bits_empty : cursor (readBits stateSource 1 (loaded 1 1 1 [])) = none := by decide +kernel

/-! ## Single steps -/

/-- L2.3 #5: the three bits are latched; then the reserved type raises at byte 1 with 5 bits left. -/
theorem test_reserved_block :
    after (step (begun 1 1 1 [0x07])) (fun s => (s.bfinal, s.btype, s.phase)) = some (1, 3, .blockHeader)
    ∧ after (step { begun 1 1 1 [0x07] with btype := 3, stage := .dispatch, bytePos := 1, bitCnt := 5 }) errorOf
      = some (.error, .invalidBlockType, 1, 5) := by decide +kernel

/-- L2.3 #7. -/
theorem test_header_without_input :
    after (step (begun 1 1 1 [])) errorOf = some (.error, .endOfInput, 0, 0) := by decide +kernel

/-- L2.4 #1: LEN 1 with NLEN 0xFFFF, read from bytes 1 to 4. -/
theorem test_stored_header_bad :
    after (step { begun 1 1 1 [0x01, 0x01, 0x00, 0xFF, 0xFF, 0x00] with phase := .stored, bytePos := 1, bitCnt := 5 }) errorOf
      = some (.error, .invalidStoredBlock, 5, 0) := by decide +kernel

/-- L2.4 #3: the input ends inside LEN. -/
theorem test_stored_header_short :
    after (step { begun 1 1 1 [0x01, 0x0E] with phase := .stored, bytePos := 1, bitCnt := 5 }) errorOf
      = some (.error, .endOfInput, 2, 0) := by decide +kernel

/-- L2.5 #1: the counts; #2: the scatter over PERM. -/
theorem test_dynamic_header :
    after (exec (.dynamicHeader 2 0 14) State.reset) (fun s => (s.hlit, s.hdist, s.hclen)) = some (259, 1, 18)
    ∧ after (exec (.clCodeLengths [0, 4, 2, 3, 0, 0, 0, 0, 0, 0, 0, 0, 0, 0, 0, 1, 0, 4]) State.reset) (·.clLens)
      = some [3, 4, 1, 0, 0, 0, 0, 0, 0, 0, 0, 0, 0, 0, 0, 0, 0, 4, 2] := by decide +kernel

/-- L2.5 #3: a repeat of 6. -/
theorem test_cl_rep :
    after (exec (.clRep 3) { State.reset with hlit := 257, hdist := 1, nlens := 1, lenSeq := State.reset.lenSeq.set 0 5 })
      (fun s => (s.lenSeq.take 8, s.nlens)) = some ([5, 5, 5, 5, 5, 5, 5, 0], 7) := by decide +kernel

/-- L2.5 #4: the repeat with no previous length is reported before its extra bits are read. -/
theorem test_cl_rep_first :
    after (step { begun 1 1 1 [0x05, 0x00, 0x02, 0x24] with
        phase := .dynamic, stage := .clTokens, tCL := build ([1] ++ List.replicate 15 0 ++ [1]), hlit := 257, hdist := 1,
        bytePos := 4, curByte := 0x01, bitCnt := 3 }) errorOf
      = some (.error, .invalidHuffmanCode, 4, 2) := by decide +kernel

/-- L2.5 #5: the second run of 138 passes 258 entries. -/
theorem test_cl_run_over :
    after (exec (.clZ11 127) { State.reset with hlit := 257, hdist := 1, nlens := 138 }) (·.errCode)
      = some .invalidHuffmanCode := by decide +kernel

/-- L2.5 #6: a distance code in an empty table raises at once, with no bit read. -/
theorem test_empty_distance_table :
    after (step { inSymbols [0xFF] with tD := emptyTable, stage := .dist 3 }) errorOf
      = some (.error, .invalidHuffmanCode, 0, 0) := by decide +kernel

/-- The examples of 43_symbols_lz77.md R204 to R232: the length of each length symbol. -/
theorem test_length_examples :
    after (exec (.len257) State.reset) (·.stage) = some (.dist 3)
    ∧ after (exec (.len258) State.reset) (·.stage) = some (.dist 4)
    ∧ after (exec (.len259) State.reset) (·.stage) = some (.dist 5)
    ∧ after (exec (.len260) State.reset) (·.stage) = some (.dist 6)
    ∧ after (exec (.len261) State.reset) (·.stage) = some (.dist 7)
    ∧ after (exec (.len262) State.reset) (·.stage) = some (.dist 8)
    ∧ after (exec (.len263) State.reset) (·.stage) = some (.dist 9)
    ∧ after (exec (.len264) State.reset) (·.stage) = some (.dist 10)
    ∧ after (exec (.len265 1) State.reset) (·.stage) = some (.dist 12)
    ∧ after (exec (.len266 1) State.reset) (·.stage) = some (.dist 14)
    ∧ after (exec (.len267 1) State.reset) (·.stage) = some (.dist 16)
    ∧ after (exec (.len268 1) State.reset) (·.stage) = some (.dist 18)
    ∧ after (exec (.len269 3) State.reset) (·.stage) = some (.dist 22)
    ∧ after (exec (.len270 3) State.reset) (·.stage) = some (.dist 26)
    ∧ after (exec (.len271 3) State.reset) (·.stage) = some (.dist 30)
    ∧ after (exec (.len272 3) State.reset) (·.stage) = some (.dist 34)
    ∧ after (exec (.len273 7) State.reset) (·.stage) = some (.dist 42)
    ∧ after (exec (.len274 7) State.reset) (·.stage) = some (.dist 50)
    ∧ after (exec (.len275 7) State.reset) (·.stage) = some (.dist 58)
    ∧ after (exec (.len276 7) State.reset) (·.stage) = some (.dist 66)
    ∧ after (exec (.len277 15) State.reset) (·.stage) = some (.dist 82)
    ∧ after (exec (.len278 15) State.reset) (·.stage) = some (.dist 98)
    ∧ after (exec (.len279 15) State.reset) (·.stage) = some (.dist 114)
    ∧ after (exec (.len280 15) State.reset) (·.stage) = some (.dist 130)
    ∧ after (exec (.len281 31) State.reset) (·.stage) = some (.dist 162)
    ∧ after (exec (.len282 31) State.reset) (·.stage) = some (.dist 194)
    ∧ after (exec (.len283 31) State.reset) (·.stage) = some (.dist 226)
    ∧ after (exec (.len284 31) State.reset) (·.stage) = some (.dist 258)
    ∧ after (exec (.len285) State.reset) (·.stage) = some (.dist 258) := by decide +kernel

/-- Waiting for the distance of a copy of 3, with this many bytes produced. -/
def awaiting (n : Nat) : State := { State.reset with phase := .symbols, stage := .dist 3, produced := n }

/-- The examples of 43_symbols_lz77.md R236 to R265: D = PRODUCED is copied. -/
theorem test_distance_examples :
    after (exec (.dist0) (awaiting 1)) (·.stage) = some (.copy 3 1)
    ∧ after (exec (.dist1) (awaiting 2)) (·.stage) = some (.copy 3 2)
    ∧ after (exec (.dist2) (awaiting 3)) (·.stage) = some (.copy 3 3)
    ∧ after (exec (.dist3) (awaiting 4)) (·.stage) = some (.copy 3 4)
    ∧ after (exec (.dist4 0) (awaiting 5)) (·.stage) = some (.copy 3 5)
    ∧ after (exec (.dist5 0) (awaiting 7)) (·.stage) = some (.copy 3 7)
    ∧ after (exec (.dist6 0) (awaiting 9)) (·.stage) = some (.copy 3 9)
    ∧ after (exec (.dist7 0) (awaiting 13)) (·.stage) = some (.copy 3 13)
    ∧ after (exec (.dist8 0) (awaiting 17)) (·.stage) = some (.copy 3 17)
    ∧ after (exec (.dist9 0) (awaiting 25)) (·.stage) = some (.copy 3 25)
    ∧ after (exec (.dist10 0) (awaiting 33)) (·.stage) = some (.copy 3 33)
    ∧ after (exec (.dist11 0) (awaiting 49)) (·.stage) = some (.copy 3 49)
    ∧ after (exec (.dist12 0) (awaiting 65)) (·.stage) = some (.copy 3 65)
    ∧ after (exec (.dist13 0) (awaiting 97)) (·.stage) = some (.copy 3 97)
    ∧ after (exec (.dist14 0) (awaiting 129)) (·.stage) = some (.copy 3 129)
    ∧ after (exec (.dist15 0) (awaiting 193)) (·.stage) = some (.copy 3 193)
    ∧ after (exec (.dist16 0) (awaiting 257)) (·.stage) = some (.copy 3 257)
    ∧ after (exec (.dist17 0) (awaiting 385)) (·.stage) = some (.copy 3 385)
    ∧ after (exec (.dist18 0) (awaiting 513)) (·.stage) = some (.copy 3 513)
    ∧ after (exec (.dist19 0) (awaiting 769)) (·.stage) = some (.copy 3 769)
    ∧ after (exec (.dist20 0) (awaiting 1025)) (·.stage) = some (.copy 3 1025)
    ∧ after (exec (.dist21 0) (awaiting 1537)) (·.stage) = some (.copy 3 1537)
    ∧ after (exec (.dist22 0) (awaiting 2049)) (·.stage) = some (.copy 3 2049)
    ∧ after (exec (.dist23 0) (awaiting 3073)) (·.stage) = some (.copy 3 3073)
    ∧ after (exec (.dist24 0) (awaiting 4097)) (·.stage) = some (.copy 3 4097)
    ∧ after (exec (.dist25 0) (awaiting 6145)) (·.stage) = some (.copy 3 6145)
    ∧ after (exec (.dist26 0) (awaiting 8193)) (·.stage) = some (.copy 3 8193)
    ∧ after (exec (.dist27 0) (awaiting 12289)) (·.stage) = some (.copy 3 12289)
    ∧ after (exec (.dist28 0) (awaiting 16385)) (·.stage) = some (.copy 3 16385)
    ∧ after (exec (.dist29 0) (awaiting 24577)) (·.stage) = some (.copy 3 24577) := by decide +kernel

/-- The same examples: the largest extra value passes PRODUCED and raises. -/
theorem test_distance_examples_raise :
    after (exec (.dist4 1) (awaiting 5)) (·.errCode) = some .invalidBackReference
    ∧ after (exec (.dist5 1) (awaiting 7)) (·.errCode) = some .invalidBackReference
    ∧ after (exec (.dist6 3) (awaiting 9)) (·.errCode) = some .invalidBackReference
    ∧ after (exec (.dist7 3) (awaiting 13)) (·.errCode) = some .invalidBackReference
    ∧ after (exec (.dist8 7) (awaiting 17)) (·.errCode) = some .invalidBackReference
    ∧ after (exec (.dist9 7) (awaiting 25)) (·.errCode) = some .invalidBackReference
    ∧ after (exec (.dist10 15) (awaiting 33)) (·.errCode) = some .invalidBackReference
    ∧ after (exec (.dist11 15) (awaiting 49)) (·.errCode) = some .invalidBackReference
    ∧ after (exec (.dist12 31) (awaiting 65)) (·.errCode) = some .invalidBackReference
    ∧ after (exec (.dist13 31) (awaiting 97)) (·.errCode) = some .invalidBackReference
    ∧ after (exec (.dist14 63) (awaiting 129)) (·.errCode) = some .invalidBackReference
    ∧ after (exec (.dist15 63) (awaiting 193)) (·.errCode) = some .invalidBackReference
    ∧ after (exec (.dist16 127) (awaiting 257)) (·.errCode) = some .invalidBackReference
    ∧ after (exec (.dist17 127) (awaiting 385)) (·.errCode) = some .invalidBackReference
    ∧ after (exec (.dist18 255) (awaiting 513)) (·.errCode) = some .invalidBackReference
    ∧ after (exec (.dist19 255) (awaiting 769)) (·.errCode) = some .invalidBackReference
    ∧ after (exec (.dist20 511) (awaiting 1025)) (·.errCode) = some .invalidBackReference
    ∧ after (exec (.dist21 511) (awaiting 1537)) (·.errCode) = some .invalidBackReference
    ∧ after (exec (.dist22 1023) (awaiting 2049)) (·.errCode) = some .invalidBackReference
    ∧ after (exec (.dist23 1023) (awaiting 3073)) (·.errCode) = some .invalidBackReference
    ∧ after (exec (.dist24 2047) (awaiting 4097)) (·.errCode) = some .invalidBackReference
    ∧ after (exec (.dist25 2047) (awaiting 6145)) (·.errCode) = some .invalidBackReference
    ∧ after (exec (.dist26 4095) (awaiting 8193)) (·.errCode) = some .invalidBackReference
    ∧ after (exec (.dist27 4095) (awaiting 12289)) (·.errCode) = some .invalidBackReference
    ∧ after (exec (.dist28 8191) (awaiting 16385)) (·.errCode) = some .invalidBackReference
    ∧ after (exec (.dist29 8191) (awaiting 24577)) (·.errCode) = some .invalidBackReference := by decide +kernel

/-- The largest distance of each symbol, with that many bytes produced (43_symbols_lz77.md R240 to R265). -/
theorem test_distance_maxima :
    after (exec (.dist4 1) (awaiting 6)) (·.stage) = some (.copy 3 6)
    ∧ after (exec (.dist5 1) (awaiting 8)) (·.stage) = some (.copy 3 8)
    ∧ after (exec (.dist6 3) (awaiting 12)) (·.stage) = some (.copy 3 12)
    ∧ after (exec (.dist7 3) (awaiting 16)) (·.stage) = some (.copy 3 16)
    ∧ after (exec (.dist8 7) (awaiting 24)) (·.stage) = some (.copy 3 24)
    ∧ after (exec (.dist9 7) (awaiting 32)) (·.stage) = some (.copy 3 32)
    ∧ after (exec (.dist10 15) (awaiting 48)) (·.stage) = some (.copy 3 48)
    ∧ after (exec (.dist11 15) (awaiting 64)) (·.stage) = some (.copy 3 64)
    ∧ after (exec (.dist12 31) (awaiting 96)) (·.stage) = some (.copy 3 96)
    ∧ after (exec (.dist13 31) (awaiting 128)) (·.stage) = some (.copy 3 128)
    ∧ after (exec (.dist14 63) (awaiting 192)) (·.stage) = some (.copy 3 192)
    ∧ after (exec (.dist15 63) (awaiting 256)) (·.stage) = some (.copy 3 256)
    ∧ after (exec (.dist16 127) (awaiting 384)) (·.stage) = some (.copy 3 384)
    ∧ after (exec (.dist17 127) (awaiting 512)) (·.stage) = some (.copy 3 512)
    ∧ after (exec (.dist18 255) (awaiting 768)) (·.stage) = some (.copy 3 768)
    ∧ after (exec (.dist19 255) (awaiting 1024)) (·.stage) = some (.copy 3 1024)
    ∧ after (exec (.dist20 511) (awaiting 1536)) (·.stage) = some (.copy 3 1536)
    ∧ after (exec (.dist21 511) (awaiting 2048)) (·.stage) = some (.copy 3 2048)
    ∧ after (exec (.dist22 1023) (awaiting 3072)) (·.stage) = some (.copy 3 3072)
    ∧ after (exec (.dist23 1023) (awaiting 4096)) (·.stage) = some (.copy 3 4096)
    ∧ after (exec (.dist24 2047) (awaiting 6144)) (·.stage) = some (.copy 3 6144)
    ∧ after (exec (.dist25 2047) (awaiting 8192)) (·.stage) = some (.copy 3 8192)
    ∧ after (exec (.dist26 4095) (awaiting 12288)) (·.stage) = some (.copy 3 12288)
    ∧ after (exec (.dist27 4095) (awaiting 16384)) (·.stage) = some (.copy 3 16384)
    ∧ after (exec (.dist28 8191) (awaiting 24576)) (·.stage) = some (.copy 3 24576)
    ∧ after (exec (.dist29 8191) (awaiting 32768)) (·.stage) = some (.copy 3 32768) := by decide +kernel

/-- 43_symbols_lz77.md R201: the fixed bits 00110101 are LIT 0x05 and emit it. -/
theorem test_literal_step :
    after (step { inSymbols [0xAC] with rowPos := 1 }) (fun s => (s.win, s.produced, s.wpos, s.cur, s.bitCnt))
      = some ([(0, 0x05)], 1, 1, [0x05, 0, 0], 0) := by decide +kernel

/-- R202: seven 0 bits are EOB, and the final block ends. -/
theorem test_eob_step : after (step (inSymbols [0x00])) (fun s => (s.phase, s.bitCnt)) = some (.finish, 1) := by decide +kernel

/-- L2.7 #4 and #5: the distance codes 11110 and 11111 raise with no extra bit read. -/
theorem test_invalid_distances :
    after (step { inSymbols [0x0F] with stage := .dist 3, produced := 2 }) errorOf = some (.error, .invalidBackReference, 1, 3)
    ∧ after (step { inSymbols [0x1F] with stage := .dist 3, produced := 2 }) errorOf = some (.error, .invalidBackReference, 1, 3) := by
  decide +kernel

/-- One iteration of a copy at distance 1 (43_symbols_lz77.md R269); L2.7 #7: with WPOS 5, WinRead(32768) reads cell 5. -/
theorem test_copy_step :
    after (step { inSymbols [] with stage := .copy 2 1, win := [(0, 0x61)], wpos := 1, produced := 1, rowPos := 1 })
      (fun s => (s.win, s.stage)) = some ([(0, 0x61), (1, 0x61)], .copy 1 1)
    ∧ winIndex 32768 { State.reset with wpos := 5 } = 5 := by decide +kernel

/-- L2.8 #1: a filter byte 5 raises, and CURF and ROWPOS stay. -/
theorem test_filter_byte_invalid :
    after (step { inSymbols [] with row := .filterByte 5, produced := 1, bytePos := 2, bitCnt := 5, curF := .up })
      (fun s => (errorOf s, s.rowPos, s.curF)) = some ((.error, .invalidFilterType, 2, 5), 0, .up) := by decide +kernel

/-- L1.2: the row 0A 14 1E with filter Up on the first row goes to PIX unchanged. -/
theorem test_finish_row :
    after (step { inSymbols [] with curF := .up, cur := [0x0A, 0x14, 0x1E], rowPos := 4, row := .finishRow, produced := 4 })
      (fun s => (s.pix, s.prev, s.cur, s.rowPos, s.y))
      = some ([(0, 0x0A), (1, 0x14), (2, 0x1E)], [0x0A, 0x14, 0x1E], [0, 0, 0], 0, 1) := by decide +kernel

/-- L2.9: the defilter vectors 1 to 11. -/
theorem test_defilter :
    defilter predNone [0x01, 0x02, 0xFF] [0x09, 0x09, 0x09] 1 = [0x01, 0x02, 0xFF]
    ∧ defilter predSub [0x01, 0x01, 0xFF] [0, 0, 0] 1 = [0x01, 0x02, 0x01]
    ∧ defilter predSub [0x80, 0x80, 0x80, 0x80] [0, 0, 0, 0] 2 = [0x80, 0x80, 0x00, 0x00]
    ∧ defilter predUp [0x10, 0xF0] [0x20, 0x20] 1 = [0x30, 0x10]
    ∧ defilter predAverage [0x01, 0x00] [0xFF, 0xFF] 1 = [0x80, 0xBF]
    ∧ defilter predAverage [0x00, 0x00] [0xFF, 0xFF] 1 = [0x7F, 0xBF]
    ∧ defilter predAverage [0x04, 0x04, 0x04] [0, 0, 0] 1 = [0x04, 0x06, 0x07]
    ∧ defilter predAverage [0x0A, 0x14, 0x1E, 0x28] [0x64, 0xC8, 0x32, 0x3C] 2 = [0x3C, 0x78, 0x55, 0x82]
    ∧ defilter predPaeth [0x05, 0x06, 0x07] [0, 0, 0] 1 = [0x05, 0x0B, 0x12]
    ∧ defilter predPaeth [0x03, 0x03] [0x05, 0x0A] 1 = [0x08, 0x0D]
    ∧ defilter predPaeth [0x01, 0x00] [0xFF, 0x0A] 1 = [0x00, 0x00] := by decide +kernel

/-- L2.9: the Paeth predictor alone. -/
theorem test_paeth :
    predPaeth 10 10 5 = 10 ∧ predPaeth 15 0 10 = 0 ∧ predPaeth 10 20 15 = 15 ∧ predPaeth 5 10 10 = 5
    ∧ predPaeth 200 100 250 = 100 ∧ predPaeth 0 255 0 = 255 ∧ predPaeth 255 0 255 = 0 ∧ predPaeth 0 10 255 = 0 := by decide

/-- 45_controller.md R326: 3 bytes produced of 4 expected. -/
theorem test_truncated :
    after (step { begun 1 1 3 [] with phase := .finish, produced := 3 }) (·.errCode) = some .truncatedInput := by decide +kernel

/-- 45_controller.md R321: START with CFG_BPP 5; L2.8 #8: CTRL = 3 is RESET. -/
theorem test_start_and_reset :
    after (step (hostWrites .ctrl 1 (loaded 1 1 5 [0x03]))) errorOf = some (.error, .unsupportedFeature, 0, 0)
    ∧ after (step (hostWrites .ctrl 1 (loaded 1 1 4 [0x03]))) (statusWord ·) = some 0x11
    ∧ after (step (hostWrites .ctrl 3 (inSymbols [0x03]))) (statusWord ·) = some 0 := by decide +kernel

/-- 10_state.md R39: PRODUCED_R reads mod 2^CNT_W. -/
theorem test_read_produced :
    after (step { inSymbols [] with prm.cntW := 4, produced := 0x23, host := [⟨0, .readReg .producedR⟩] }) (·.rdata)
      = some 3 := by decide +kernel

/-- 00_scope.md R6: with CORE_BASE 0x1000 and CTRL at offset 0x0C, a write of START at 0x100C begins the decode; at 0x0C there is
no register of this CORE. -/
theorem test_bus_start :
    (let s := { loaded 1 1 4 [0x03] with prm.coreBase := 0x1000 };
      after (step { s with host := [⟨0, .busWrite 0x100C 1⟩] }) (statusWord ·) = some 0x11
      ∧ after (step { s with host := [⟨0, .busWrite 0x0C 1⟩] }) (·.phase) = none
      ∧ after (step { s with host := [⟨0, .busRead 0x1000⟩] }) (·.rdata) = some 1) := by decide +kernel

/-- L2.8 #7: a configuration write while BUSY is ignored. -/
theorem test_busy_write : after (step (hostWrites .cfgWidth 9 (begun 1 1 3 []))) (·.cfgWidth) = some 1 := by decide +kernel


/-! ## Witnesses: for each statement with hypotheses, states and operands that meet them -/

/-- Tables of 95_test_vectors.md L2.2 #1 and of one-bit codes. -/
def smallCodes : Codes := { ll := build [2, 1, 3, 3], dist := build [1, 1], cl := build [1, 1] }

theorem smallCodes_prefixFree : smallCodes.PrefixFree :=
  ⟨⟨by decide +kernel, by decide +kernel⟩, ⟨by decide +kernel, by decide +kernel⟩, ⟨by decide +kernel, by decide +kernel⟩⟩

/-- The same with a code-length alphabet in which symbols 16 and 17 have one bit. -/
def repCodes : Codes := { smallCodes with cl := build (List.replicate 16 0 ++ [1, 1]) }

theorem repCodes_prefixFree : repCodes.PrefixFree :=
  ⟨smallCodes_prefixFree.ll, smallCodes_prefixFree.dist, ⟨by decide +kernel, by decide +kernel⟩⟩

/-- A token in its own context, one that may be a block's first code-length token, and the code of symbol 16. -/
theorem test_witness_DecodeEncode :
    smallCodes.PrefixFree ∧ (Instr.lit 2).wellFormed = true ∧ encode smallCodes (.lit 2) = some (bits [1, 1, 0])
    ∧ ReadIn smallCodes (.lit 2) (.ll smallCodes.ll)
    ∧ repCodes.PrefixFree ∧ (Instr.clZ3 5).wellFormed = true ∧ encode repCodes (.clZ3 5) = some (bits [1, 1, 0, 1])
    ∧ ReadIn repCodes (.clZ3 5) (.cl repCodes.cl false) ∧ repCodes.cl.codeBits 16 = some (bits [0]) :=
  ⟨smallCodes_prefixFree, by decide +kernel, by decide +kernel, .inl rfl, repCodes_prefixFree, by decide +kernel, by decide +kernel,
    .inr ⟨rfl, (by intro x h; cases h), rfl⟩, by decide +kernel⟩

/-- Each kind of token. -/
theorem test_witness_DecodeLosesNothing :
    (reads .blockHeader [1, 1, 0, 1]).isSome ∧ (reads .btype [1, 1]).isSome ∧ (reads .stored (List.replicate 32 0)).isSome
    ∧ (reads .dynamic (List.replicate 14 1)).isSome ∧ (reads (.clLengths 0) []).isSome
    ∧ (reads (.cl (build [1, 1]) true) [1]).isSome ∧ (reads (.ll (build [2, 1, 3, 3])) [1, 1, 1]).isSome
    ∧ (reads (.dist (build [1, 1])) [0]).isSome ∧ (reads .filter (List.replicate 8 1)).isSome
    ∧ (reads (.cl repCodes.cl false) [0]).isSome ∧ (reads (.cl repCodes.cl false) [1, 1, 0, 1]).isSome := by decide +kernel

/-- The array 2, 1, 3, 3 of L2.2 #1: a used symbol, two entries of one length, and a Kraft sum of exactly 1. -/
theorem test_witness_CanonicalCodes_KraftPrefixFree :
    ([2, 1, 3, 3] : List Nat)[0]? = some 2 ∧ KraftOk [2, 1, 3, 3] ∧ (build [2, 1, 3, 3]).code.length = 4
    ∧ huffDecode listSource (build [2, 1, 3, 3]) (bits [1, 0, 1]) = .ok 0 (bits [1]) :=
  ⟨rfl, by show kraftSum _ ≤ _; decide, by decide, by decide⟩

/-- Each outcome of HuffDecode; the third has one bit of two. -/
theorem test_witness_HuffDecodeConsumes :
    huffDecode listSource (build [2, 1, 3, 3]) (bits [1, 1, 0]) = .ok 2 []
    ∧ huffDecode listSource (build [1]) (bits [1, 1]) = .err .noCode (bits [1])
    ∧ huffDecode listSource (build [2, 1, 3, 3]) (bits [1, 1]) = .err .endOfInput [] := by decide +kernel

theorem inWritten_of_all (s : State) (h : ((List.range s.inLen).all fun a => (s.inMem.read a).isSome) = true) : InWritten s := by
  intro a ha
  exact List.all_eq_true.mp h a (List.mem_range.mpr ha)

/-- A decode of a 1 by 1 image of 3 bytes a pixel has begun; its input is `03`, a fixed block that ends too soon. -/
def live : State := begun 1 1 3 [0x03]

theorem live_written : InWritten live := inWritten_of_all _ (by decide +kernel)

theorem live_mem : MemInv live := ⟨by decide +kernel, by decide +kernel, by decide +kernel⟩

theorem live_reader : ReaderInv live :=
  ⟨by decide, by decide, fun _ => by decide, by decide, by decide⟩

theorem live_window : WindowInv live :=
  ⟨by decide, fun a h => absurd h (Nat.not_lt_zero a), fun _ _ h => by cases h⟩

theorem live_errors : ErrorInv live := ⟨fun _ => ⟨rfl, rfl, rfl⟩, fun h => by cases h⟩

theorem live_tables : TableInv live :=
  ⟨by decide +kernel, by decide +kernel, by decide +kernel, by decide +kernel, by decide, (by cases ·), by decide,
    ⟨fun _ h => (by cases h), fun _ h => (by cases h), fun _ h => (by cases h)⟩,
    ⟨(by cases ·), (by cases ·), (by cases ·)⟩, (by cases ·), (by cases ·)⟩

theorem live_config : ConfigInv live := ⟨fun _ => ⟨rfl, rfl, rfl⟩, fun _ => by decide⟩

theorem live_rows : RowInv live where
  rowLen_pos := fun _ => by decide
  buffers := fun _ => by decide
  position := fun _ => by decide
  rowPos_le := fun _ => by decide
  filterDue := fun _ _ h => by cases h
  rowDue := fun _ => ⟨(by cases ·), fun h => absurd h (by decide)⟩
  pixRows := fun _ a => ⟨(by cases ·), fun h => absurd h (by rw [show live.y = 0 from rfl, Nat.zero_mul]; exact Nat.not_lt_zero a)⟩
  imageDone := (by cases ·)

theorem live_inv : Inv live :=
  ⟨live_mem, live_reader, live_window, live_errors, live_tables, live_config, live_rows⟩

theorem live_steps : ∃ t, step live = .next t :=
  let ⟨t, h, _⟩ := after_some (o := step live) (f := (·.btype)) (a := 1) (by decide +kernel)
  ⟨t, h⟩

theorem live_coreSteps : ∃ t, coreStep live = .next t :=
  let ⟨t, h, _⟩ := after_some (o := coreStep live) (f := (·.btype)) (a := 1) (by decide +kernel)
  ⟨t, h⟩

/-- The hypotheses of MemoriesStayCanonical, ReaderStaysInRange, WindowFollowsProduced, ErrorRegistersQuiet, TablesMatchArrays,
ConfigurationLatched and RowsFollowProduced. -/
theorem test_witness_invariants : Inv live ∧ ∃ t, step live = .next t := ⟨live_inv, live_steps⟩

theorem test_witness_CoreNeverStops : Inv live ∧ InWritten live := ⟨live_inv, live_written⟩

theorem test_witness_EveryDecodeEnds : Inv live ∧ InWritten live ∧ live.host = [] ∧ live.phase.busy = true :=
  ⟨live_inv, live_written, rfl, rfl⟩

/-- All eight bits, none, and one too many. -/
theorem test_witness_ReadBitsLsbFirst :
    InWritten live ∧ 8 ≤ (pendingBits live).length ∧ 0 ≤ (pendingBits live).length ∧ (pendingBits live).length < 9 :=
  ⟨live_written, by decide +kernel, Nat.zero_le _, by decide +kernel⟩

/-- Five bits left in the current byte, and none. -/
theorem test_witness_ByteAlignDiscards :
    ReaderInv { live with bytePos := 1, curByte := 0x1F, bitCnt := 5 } ∧ ReaderInv live ∧ live.bitCnt = 0 :=
  ⟨⟨by decide, by decide, fun _ => by decide, by decide, by decide⟩, live_reader, rfl⟩

/-- A token there, and one that is cut short. -/
theorem test_witness_ReaderRefinesStream :
    InWritten live ∧ decode listSource .blockHeader (pendingBits (tokenStart .blockHeader live)) = .ok (.blockHeader 1 1) (bits [0, 0, 0, 0, 0])
    ∧ decode listSource .stored (pendingBits (tokenStart .stored live)) = .err .endOfInput [] :=
  ⟨live_written, by decide +kernel, by decide +kernel⟩

theorem test_witness_BitCursorAdvances : ReaderInv live ∧ live.phase.busy = true ∧ ∃ t, coreStep live = .next t :=
  ⟨live_reader, rfl, live_coreSteps⟩

/-- At the end of the input: a header to be read, and a stored byte with seven bits left. -/
def dry : State := { live with bytePos := 1 }
def dryRaw : State := { live with phase := .stored, stage := .raw, bytePos := 1, curByte := 0x7F, bitCnt := 7 }

theorem test_witness_EndOfInputRecorded :
    ReaderInv dry ∧ InWritten dry ∧ dry.host = [] ∧ nextOp dry = .fetch .blockHeader
    ∧ decode listSource .blockHeader (pendingBits (tokenStart .blockHeader dry)) = .err .endOfInput []
    ∧ ReaderInv dryRaw ∧ InWritten dryRaw ∧ dryRaw.host = [] ∧ nextOp dryRaw = .micro .rawByte ∧ (pendingBits dryRaw).length < 8 :=
  ⟨⟨by decide, by decide, fun _ => by decide, by decide, by decide⟩, inWritten_of_all _ (by decide +kernel), rfl, by decide +kernel,
    by decide +kernel, ⟨by decide, by decide, fun _ => by decide, by decide, by decide⟩, inWritten_of_all _ (by decide +kernel), rfl,
    by decide +kernel, by decide +kernel⟩

/-- A selected instruction, a token, a token cut short, a code that matches nothing, and a rule between tokens. -/
theorem test_witness_StepRunsInstruction :
    live.host = [] ∧ nextOp { live with stage := .dispatch, btype := 1 } = .run .btypeFixed
    ∧ nextOp live = .fetch .blockHeader ∧ (∃ t, fetch .blockHeader live = .ok (.blockHeader 1 1) t)
    ∧ nextOp dry = .fetch .blockHeader ∧ (∃ t, fetch .blockHeader dry = .err .endOfInput t)
    ∧ nextOp { live with phase := .symbols } = .fetch (.ll emptyTable) ∧ (∃ t, fetch (.ll emptyTable) { live with phase := .symbols } = .err .noCode t)
    ∧ nextOp { live with phase := .fixed } = .micro .selectFixed :=
  ⟨rfl, by decide +kernel, by decide +kernel, got_ok (by decide +kernel), by decide +kernel, got_err (by decide +kernel),
    by decide +kernel, got_err (by decide +kernel), by decide +kernel⟩

/-- A busy state with no row due, at the two ends of a dynamic block's code lengths (257 of 258 read, and all), one (busy) with each
kind of row that is due, and one that is not busy; the other clauses are met by the same state with another phase and stage. -/
theorem test_witness_StepRunsInstruction_phases :
    live.phase.busy = true ∧ live.row = .clear ∧ live.phase = .blockHeader ∧ live.stage = .start
    ∧ (let s := { live with phase := .dynamic, stage := .clTokens, hlit := 257, hdist := 1, nlens := 257 }
      s.phase.busy = true ∧ s.row = .clear ∧ s.nlens < s.hlit + s.hdist)
    ∧ (let s := { live with phase := .dynamic, stage := .clTokens, hlit := 257, hdist := 1, nlens := 258 }
      s.phase.busy = true ∧ s.row = .clear ∧ s.hlit + s.hdist ≤ s.nlens)
    ∧ State.phase { live with row := .filterByte 9 } = .blockHeader ∧ State.phase { live with row := .finishRow } = .blockHeader
    ∧ State.reset.host = [] ∧ State.reset.phase.busy = false := by
  decide +kernel

/-- In SYMBOLS with the small tables, at the code 110 of LIT 2. -/
def smallSymbols : State := { begun 1 1 3 [0x03] with phase := .symbols, tLL := smallCodes.ll, tD := smallCodes.dist }

/-- In DYNAMIC before the first code-length token, at the code 0 of symbol 16. -/
def firstToken : State :=
  { begun 1 1 3 [0x02] with phase := .dynamic, stage := .clTokens, btype := 2, tCL := repCodes.cl, hlit := 257, hdist := 1 }

/-- The hypotheses for a first code-length token that is symbol 16, and for one that is CL_Z3 0 (one bit on). -/
theorem test_witness_StepRunsEncodedBits_first :
    firstToken.host = [] ∧ InWritten firstToken ∧ nextOp firstToken = .fetch (.cl repCodes.cl false)
    ∧ pendingBits firstToken = bits [0] ++ bits [1, 0, 0, 0, 0, 0, 0]
    ∧ (let s := { firstToken with bytePos := 1, curByte := 0x01, bitCnt := 7 };
      InWritten s ∧ nextOp s = .fetch (.cl repCodes.cl false)
        ∧ pendingBits (tokenStart (.cl repCodes.cl false) s) = bits [1, 0, 0, 0] ++ bits [0, 0, 0]
        ∧ encode repCodes (.clZ3 0) = some (bits [1, 0, 0, 0])) :=
  ⟨rfl, inWritten_of_all _ (by decide +kernel), by decide +kernel, by decide +kernel, inWritten_of_all _ (by decide +kernel),
    by decide +kernel, by decide +kernel, by decide +kernel⟩

/-- 42_blocks.md R171: symbol 16 first raises InvalidHuffmanCode with the cursor after its one-bit code. -/
theorem test_first_rep_raises : after (step firstToken) errorOf = some (.error, .invalidHuffmanCode, 1, 7) := by decide +kernel

theorem test_witness_StepRunsEncodedBits :
    smallCodes.PrefixFree ∧ (Instr.lit 2).wellFormed = true ∧ encode smallCodes (.lit 2) = some (bits [1, 1, 0])
    ∧ smallSymbols.host = [] ∧ InWritten smallSymbols ∧ nextOp smallSymbols = .fetch ((Instr.lit 2).ctx smallCodes)
    ∧ pendingBits (tokenStart ((Instr.lit 2).ctx smallCodes) smallSymbols) = bits [1, 1, 0] ++ bits [0, 0, 0, 0, 0] :=
  ⟨smallCodes_prefixFree, by decide +kernel, by decide +kernel, rfl, inWritten_of_all _ (by decide +kernel), by decide +kernel,
    by decide +kernel⟩

theorem test_witness_BlockHeaderDispatch :
    live.host = [] ∧ InWritten live ∧ live.phase = .blockHeader ∧ live.stage = .start ∧ live.row = .clear
    ∧ pendingBits live = bitsLsb 1 (1 : BitVec 1).toNat ++ bitsLsb 2 (1 : BitVec 2).toNat ++ bits [0, 0, 0, 0, 0]
    ∧ InWritten dry ∧ (pendingBits { dry with curByte := 3, bitCnt := 2 }).length < 3 :=
  ⟨rfl, live_written, rfl, rfl, rfl, by decide +kernel, inWritten_of_all _ (by decide +kernel), by decide +kernel⟩

/-- The largest and smallest LEN, LEN 0, and an NLEN one off. -/
theorem test_witness_StoredHeaderChecks :
    (0 : BitVec 16).toNat = 0xFFFF - (0xFFFF : BitVec 16).toNat ∧ (0xFFFE : BitVec 16).toNat = 0xFFFF - (1 : BitVec 16).toNat
    ∧ (0xFFFF : BitVec 16).toNat = 0xFFFF - (0 : BitVec 16).toNat ∧ (0xFFFE : BitVec 16).toNat ≠ 0xFFFF - (0 : BitVec 16).toNat := by decide

/-- In STORED at a data byte, after one with two to go, and after the last. -/
theorem test_witness_StoredBytesEmitted :
    (let s := { live with phase := .stored, stage := .raw }
     s.host = [] ∧ s.row = .clear ∧ InWritten s ∧ pendingBits s = bitsLsb 8 (3 : Byte).toNat ++ [])
    ∧ (let s := { live with phase := .stored, stage := .rawNext, storedRem := 2 }
      s.host = [] ∧ s.row = .clear ∧ s.stage = .rawNext ∧ 1 < s.storedRem)
    ∧ (let s := { live with phase := .stored, stage := .rawNext, storedRem := 1 }
      s.host = [] ∧ s.row = .clear ∧ s.stage = .rawNext ∧ s.storedRem = 1) :=
  ⟨⟨rfl, rfl, inWritten_of_all _ (by decide +kernel), by decide +kernel⟩, by decide +kernel, by decide +kernel⟩

theorem test_witness_ClLengthsScattered :
    (Instr.clCodeLengths (List.replicate 4 7)).wellFormed = true ∧ (Instr.clCodeLengths (List.replicate 19 7)).wellFormed = true := by decide

/-- No previous length; a run that just fits 258 entries, and one that is one too long. -/
theorem test_witness_ClTokensAppend :
    State.reset.nlens = 0
    ∧ (let s := { State.reset with hlit := 257, hdist := 1, nlens := 247 }
      s.nlens ≠ 0 ∧ s.nlens + (11 + (0 : BitVec 7).toNat) ≤ s.hlit + s.hdist)
    ∧ (let s := { State.reset with hlit := 257, hdist := 1, nlens := 248 }
      s.nlens ≠ 0 ∧ s.hlit + s.hdist < s.nlens + (11 + (0 : BitVec 7).toNat)) := by decide +kernel

/-- In DYNAMIC with all 258 lengths read. -/
def lengthsRead : State :=
  { live with btype := 2, phase := .dynamic, stage := .clTokens, hlit := 257, hdist := 1, hclen := 4, nlens := 258 }

theorem test_witness_TablesSelected :
    ({ live with phase := .fixed }.host = [] ∧ { live with phase := .fixed }.row = .clear)
    ∧ (let s := { live with phase := .dynamic, stage := .clBuild }
      s.host = [] ∧ s.phase = .dynamic ∧ s.stage = .clBuild ∧ s.row = .clear)
    ∧ TableInv lengthsRead ∧ lengthsRead.host = [] ∧ lengthsRead.phase = .dynamic ∧ lengthsRead.stage = .clTokens
    ∧ lengthsRead.row = .clear ∧ lengthsRead.nlens = lengthsRead.hlit + lengthsRead.hdist :=
  ⟨⟨rfl, rfl⟩, ⟨rfl, rfl, rfl, rfl⟩,
    ⟨by decide +kernel, by decide +kernel, by decide +kernel, by decide +kernel, by decide, fun _ _ => by decide, by decide,
      ⟨fun _ h => (by cases h), fun _ h => (by cases h), fun _ h => (by cases h)⟩,
      ⟨(by cases ·), (by cases ·), fun _ => rfl⟩, fun _ _ => by decide +kernel, (by cases ·)⟩, rfl, rfl, rfl, rfl, rfl⟩

/-- TablesMatchArrays in SYMBOLS: with the fixed tables for BTYPE 1, and with a dynamic block's own (here empty) tables for BTYPE 2,
which are not the fixed ones. -/
theorem test_witness_TablesMatchArrays_active :
    (let s := selectFixed { live with btype := 1, phase := .fixed };
      s.phase = .symbols ∧ s.btype = 1 ∧ s.tLL = fixedLL ∧ s.tD = fixedD)
    ∧ (let s := buildTables lengthsRead;
      s.phase = .symbols ∧ s.btype = 2 ∧ s.llLens = splitLL s ∧ s.dLens = splitD s ∧ s.tLL = build s.llLens
        ∧ s.tD = build s.dLens ∧ s.tLL ≠ fixedLL) :=
  ⟨⟨rfl, rfl, rfl, rfl⟩, rfl, rfl, rfl, rfl, rfl, rfl, by decide +kernel⟩

theorem test_witness_LiteralEmitted : Memory.wf live.win := by decide +kernel

/-- One byte past EXPECTED = 4; a filter byte 4 and 5 at the first position; a data byte, and the last one of a row of 3. -/
theorem test_witness_EmittedByteAssembled :
    live.host = [] ∧ live.phase.busy = true ∧ live.row = .clear
    ∧ expected { live with produced := 4 } < { live with produced := 4 }.produced + 1
    ∧ live.produced + 1 ≤ expected live ∧ live.rowPos = 0 ∧ (4 : Byte).toNat < 5 ∧ 5 ≤ (5 : Byte).toNat
    ∧ (let s := { live with produced := 1, rowPos := 1 }
      s.produced + 1 ≤ expected s ∧ s.rowPos ≠ 0 ∧ s.rowPos ≠ rowLen s)
    ∧ (let s := { live with produced := 3, rowPos := 3 }
      s.produced + 1 ≤ expected s ∧ s.rowPos ≠ 0 ∧ s.rowPos = rowLen s) := by
  decide +kernel

/-- D one more than PRODUCED, and D = PRODUCED with a length pending. -/
theorem test_witness_DistanceTokens : (awaiting 0).produced < 1 ∧ 1 ≤ (awaiting 1).produced ∧ (awaiting 1).stage = .dist 3 := by decide +kernel

/-- A copy of 258 bytes at distance 1 is about to start, with one byte in the window. -/
def copying : State := { live with phase := .symbols, stage := .copy 258 1, win := [(0, 0x61)], wpos := 1, produced := 1 }

theorem test_witness_CopyRepeats : MemInv copying ∧ WindowInv copying ∧ copying.stage = .copy 258 1 ∧ 1 ≤ 258 ∧ 258 ≤ 258 :=
  ⟨⟨by decide +kernel, by decide +kernel, by decide +kernel⟩,
    ⟨by decide, fun a h _ => by have : a = 0 := Nat.lt_one_iff.mp h; subst this; decide, fun _ _ h => by cases h; decide⟩, rfl,
    by decide, by decide⟩

theorem test_witness_CopyStepEmits :
    copying.host = [] ∧ copying.phase = .symbols ∧ copying.row = .clear ∧ copying.stage = .copy (257 + 1) 1
    ∧ copying.win.read ((copying.wpos.toNat + 32768 - 1 % 32768) % 32768) = some 0x61 := by decide +kernel

/-- The first byte and the last byte of two. -/
theorem test_witness_WindowHoldsLastBytes : Memory.wf live.win ∧ 1 ≤ 1 ∧ 2 ≤ ([0x61, 0x62] : List Byte).length ∧ 2 ≤ 32768 := by
  decide +kernel

/-- A tie of a and b, a tie of b and c, and c nearest (95_test_vectors.md L2.9). -/
theorem test_witness_PredictorsExact :
    (let p : Int := 10 + 10 - 5
     |p - 10| ≤ |p - 10| ∧ |p - 10| ≤ |p - 5|)
    ∧ (let p : Int := 15 + 0 - 10
      ¬ (|p - 15| ≤ |p - 0| ∧ |p - 15| ≤ |p - 10|) ∧ |p - 0| ≤ |p - 10|)
    ∧ (let p : Int := 10 + 20 - 15
      ¬ (|p - 10| ≤ |p - 20| ∧ |p - 10| ≤ |p - 15|) ∧ |p - 15| < |p - 20|) := by decide

/-- RowReconstructed and FilterInverse: 1 byte a pixel. FilterAccepted: no row complete. -/
theorem test_witness_Filters : 1 ≤ 1 ∧ 0 < ([0x01] : List Byte).length ∧ live.row ≠ .finishRow ∧ 5 ≤ (5 : Byte).toNat ∧ (4 : Byte).toNat < 5 := by
  decide +kernel

/-- The last row of one. -/
theorem test_witness_FinishRowStores :
    (let s := { live with cur := [1, 2, 3], rowPos := 4, row := .finishRow, produced := 4 }
     s.row = .finishRow ∧ s.y < s.latH.toNat ∧ Memory.wf s.pix ∧ s.cur.length = rowLen s) := by decide +kernel

/-- A legal configuration with exactly PIX_CAP bytes, and one byte less of PIX_CAP. -/
theorem test_witness_Start :
    (loaded 1 1 4 []).phase.busy = false ∧ (1 : Reg32).getLsbD 0 = true ∧ (1 : Reg32).getLsbD 1 = false
    ∧ configOk { loaded 1 1 4 [] with prm.pixCap := some 4 } = true
    ∧ configOk { loaded 1 1 4 [] with prm.pixCap := some 3 } = false ∧ configOk (loaded 1 1 5 []) = false := by decide +kernel

/-- HostRegisterWrites and ResetClears: busy and not, START, RESET, both and neither. -/
theorem test_witness_HostRegisterWrites :
    live.phase.busy = true ∧ State.reset.phase.busy = false ∧ (1 : Reg32).getLsbD 1 = false ∧ (2 : Reg32).getLsbD 1 = true
    ∧ (3 : Reg32).getLsbD 1 = true ∧ (4 : Reg32).getLsbD 0 = false ∧ (4 : Reg32).getLsbD 1 = false := by decide +kernel

/-- A move that is due, one that waits, a register's address and an address of none, and addresses that are all distinct. -/
theorem test_witness_HostRegisterWrites_moves :
    { live with host := [⟨0, .busWrite 12 2⟩] }.host = ({ wait := 0, move := .busWrite 12 2 } : HostEvent) :: []
    ∧ { live with host := [⟨1, .writeIn 0 0⟩] }.host = ({ wait := 0 + 1, move := .writeIn 0 0 } : HostEvent) :: []
    ∧ regAt live.prm 12 = some .ctrl ∧ regAt live.prm 36 = some .rowsR ∧ regAt live.prm 37 = none
    ∧ ∀ r r', regAddr live.prm r = regAddr live.prm r' → r = r' :=
  ⟨rfl, rfl, by decide +kernel, by decide +kernel, by decide +kernel, by intro r r'; cases r <;> cases r' <;> decide +kernel⟩

theorem test_witness_RegisterReads :
    { live with host := [⟨0, .readReg .status⟩] }.host = ({ wait := 0, move := .readReg .status } : HostEvent) :: []
    ∧ { live with host := [⟨0, .busRead 16⟩] }.host = ({ wait := 0, move := .busRead 16 } : HostEvent) :: []
    ∧ regAt live.prm 16 = some .status ∧ regAt live.prm 17 = none := ⟨rfl, rfl, by decide +kernel, by decide +kernel⟩

theorem test_witness_HostMemoryMoves :
    State.reset.phase.busy = false ∧ live.phase.busy = true
    ∧ ({ live with phase := .complete, pix := [(0, 7)] }.phase = .complete ∧ { live with phase := .complete, pix := [(0, 7)] }.pix.read 0 = some 7)
    ∧ live.phase ≠ .complete := by decide +kernel

/-- One byte short of EXPECTED = 4, and just enough. -/
theorem test_witness_FinishChecks :
    (let s := { live with phase := .finish, produced := 3 }
     s.host = [] ∧ s.row = .clear ∧ s.produced < s.latH.toNat * (1 + s.latW.toNat * s.latB.toNat))
    ∧ (let s := { live with phase := .finish, produced := 4 }
      s.host = [] ∧ s.row = .clear ∧ s.latH.toNat * (1 + s.latW.toNat * s.latB.toNat) ≤ s.produced) := by decide +kernel

/-- In ERROR with no host move, and with a START written. -/
def failed : State := raise .invalidBlockType live

theorem test_witness_ErrorIsTerminal :
    failed.phase = .error ∧ failed.host = [] ∧ (∃ t, step failed = .next t ∧ t.phase = .error)
    ∧ (∃ t, step (hostWrites .ctrl 1 failed) = .next t ∧ t.phase = .blockHeader)
    ∧ ∃ t, step { failed with host := [⟨0, .busWrite 12 2⟩] } = .next t ∧ t.phase = .idle :=
  ⟨rfl, rfl, after_some (by decide +kernel), after_some (by decide +kernel), after_some (by decide +kernel)⟩

/-- One step from each phase, with no row work due; and one with a filter byte due. -/
theorem test_witness_PhasesFollowTable :
    (∃ t, coreStep failed = .next t ∧ t.phase = .error) ∧ (∃ t, coreStep live = .next t ∧ t.phase = .blockHeader)
    ∧ (∃ t, coreStep { live with phase := .stored, stage := .rawNext, storedRem := 1 } = .next t ∧ t.phase = .blockHeader)
    ∧ (∃ t, coreStep { live with phase := .fixed } = .next t ∧ t.phase = .symbols)
    ∧ (∃ t, coreStep lengthsRead = .next t ∧ t.phase = .symbols)
    ∧ (∃ t, coreStep smallSymbols = .next t ∧ t.phase = .symbols)
    ∧ (∃ t, coreStep { live with phase := .finish, produced := 4 } = .next t ∧ t.phase = .complete)
    ∧ (∃ t, coreStep { live with row := .filterByte 1 } = .next t ∧ t.phase = .blockHeader) :=
  ⟨after_some (by decide +kernel), after_some (by decide +kernel), after_some (by decide +kernel), after_some (by decide +kernel),
    after_some (by decide +kernel), after_some (by decide +kernel), after_some (by decide +kernel), after_some (by decide +kernel)⟩

/-- Instructions that write each of the things named, and a step of the CORE. -/
theorem test_witness_OnlyTheseInstructionsWrite_CoreKeepsHostState :
    (∃ t, exec (.blockHeader 1 2) live = .next t ∧ t.bfinal = 1) ∧ (∃ t, exec (.lit 1) live = .next t ∧ t.produced = 1)
    ∧ (∃ t, exec .filterUp { live with cur := [1, 2, 3], rowPos := 4, row := .finishRow, produced := 4 } = .next t ∧ t.y = 1)
    ∧ ∃ t, coreStep live = .next t ∧ t.btype = 1 :=
  ⟨after_some (by decide +kernel), after_some (by decide +kernel), after_some (by decide +kernel), after_some (by decide +kernel)⟩

end Sys2Proof.Tests
end

section
/-! SUPPORT. Where the instruction of a CORE step comes from, and what instructions and rules leave alone: the facts the step
lemmas of the invariants are made of. -/

namespace Sys2Proof.Machine

/-! ## What a read leaves alone -/

namespace ReadFrame

variable {s t : State} (h : ReadFrame s t)
include h

theorem phase_eq : t.phase = s.phase := by rw [h.eq]
theorem row_eq : t.row = s.row := by rw [h.eq]

end ReadFrame

/-! ## Where an instruction comes from -/

/-- The instruction `i` of a CORE step from `s` is executed in `u`: it is selected already, or was fetched. -/
abbrev InstrSource (s : State) (i : Instr) (u : State) : Prop :=
  (u = s ∧ nextOp s = .run i) ∨ (∃ c, nextOp s = .fetch c ∧ fetch c s = .ok i u)

theorem InstrSource.busy {s u : State} {i : Instr} (h : InstrSource s i u) : s.phase.busy = true := by
  rcases h with ⟨-, h⟩ | ⟨c, h, -⟩
  · exact (nextOp_run h).1
  · exact (nextOp_fetch h).1

theorem InstrSource.frame {s u : State} {i : Instr} (h : InstrSource s i u) : ReadFrame s u := by
  rcases h with ⟨rfl, -⟩ | ⟨c, -, hf⟩
  · exact .refl u
  · exact fetch_ok_frame hf

/-- An instruction that is neither a filter type's nor a block type's was fetched, in its own context, with no row due. -/
theorem InstrSource.token {s u : State} {i : Instr} (h : InstrSource s i u)
    (hi : ∀ k, i.ctx k ≠ .filter ∧ i.ctx k ≠ .btype) :
    ∃ (c : Ctx) (k : Codes), s.row = .clear ∧ phaseOp s = .fetch c ∧ fetch c s = .ok i u
      ∧ (c = i.ctx k ∨ (i.ctx k = .cl k.cl true ∧ ∃ p, c = .cl k.cl p)) := by
  rcases instr_source h with ⟨-, ha⟩ | ⟨-, -, -, rfl⟩ | ⟨c, hn, hf, ha⟩
  · obtain ⟨k, e | ⟨-, p, e⟩⟩ := answers_ctx ha
    · exact absurd e.symm (hi k).1
    · cases e
  · obtain ⟨k, e | ⟨-, p, e⟩⟩ := answers_ctx (.btype s.btype)
    · exact absurd e.symm (hi k).2
    · cases e
  · obtain ⟨k, hk⟩ := answers_ctx ha
    exact ⟨c, k, (nextOp_fetch hn).2.1, (nextOp_fetch hn).2.2, hf, hk⟩

theorem InstrSource.blockHeader {s u : State} {f : BitVec 1} {t : BitVec 2} (h : InstrSource s (.blockHeader f t) u) :
    s.phase = .blockHeader := by
  obtain ⟨c, k, -, hp, -, rfl | ⟨e, -⟩⟩ := h.token fun _ => ⟨nofun, nofun⟩
  · simpa [Instr.ctx] using phaseOp_fetch hp
  · cases e

theorem InstrSource.dynamicHeader {s u : State} {a d : BitVec 5} {n : BitVec 4} (h : InstrSource s (.dynamicHeader a d n) u) :
    s.phase = .dynamic := by
  obtain ⟨c, k, -, hp, -, rfl | ⟨e, -⟩⟩ := h.token fun _ => ⟨nofun, nofun⟩
  · simpa [Instr.ctx] using phaseOp_fetch hp
  · cases e

theorem InstrSource.clCodeLengths {s u : State} {vs : List (BitVec 3)} (h : InstrSource s (.clCodeLengths vs) u) :
    s.phase = .dynamic := by
  obtain ⟨c, k, -, hp, -, rfl | ⟨e, -⟩⟩ := h.token fun _ => ⟨nofun, nofun⟩
  · have := phaseOp_fetch hp
    simp only [Instr.ctx] at this
    simp_all
  · cases e

/-- A code-length token is executed in the token loop of a dynamic block, with entries left, on the arrays as they were. -/
theorem InstrSource.clToken {s u : State} {i : Instr} (h : InstrSource s i u) (hi : ∀ k : Codes, i.ctx k = .cl k.cl true) :
    s.phase = .dynamic ∧ s.stage = .clTokens ∧ s.nlens < s.hlit + s.hdist
      ∧ u.nlens = s.nlens ∧ u.hlit = s.hlit ∧ u.hdist = s.hdist := by
  obtain ⟨c, k, -, hp, hf, hk⟩ := h.token fun k => by rw [hi]; exact ⟨nofun, nofun⟩
  obtain ⟨p, rfl⟩ : ∃ p, c = .cl k.cl p := hk.elim (fun e => ⟨true, e.trans (hi k)⟩) (·.2)
  obtain ⟨q, b, n, e⟩ := fetch_frame_plain (.cl k.cl p) s (fun l hl => by cases l <;> exact hl)
  rw [hf] at e
  subst e
  have := phaseOp_fetch hp
  simp_all

/-- A literal is executed with no row due. -/
theorem InstrSource.lit {s u : State} {v : Byte} (h : InstrSource s (.lit v) u) : s.row = .clear := by
  obtain ⟨c, k, hr, -⟩ := h.token fun _ => ⟨nofun, nofun⟩
  exact hr

/-- A block type is executed at the dispatch of its own header. -/
theorem InstrSource.blockType {s u : State} {i : Instr} (h : InstrSource s i u) (hi : ∀ k, i.ctx k = .btype) :
    u = s ∧ i = btypeInstr s.btype := by
  rcases instr_source h with ⟨-, ha⟩ | ⟨hu, -, -, e⟩ | ⟨c, hn, -, ha⟩
  · obtain ⟨k, e | ⟨-, p, e⟩⟩ := answers_ctx ha
    · exact absurd (e.trans (hi k)) nofun
    · cases e
  · exact ⟨hu, e⟩
  · obtain ⟨k, e | ⟨e, -⟩⟩ := answers_ctx ha
    · have := phaseOp_fetch (nextOp_fetch hn).2.2
      simp [e, hi] at this
    · exact absurd ((hi k).symm.trans e) nofun

theorem btypeInstr_ne_filterType (t : BitVec 2) (f : FilterType) : btypeInstr t ≠ f.instr := by
  unfold btypeInstr
  split <;> cases f <;> nofun

/-- No token is a filter type: its byte comes from the inflated stream. -/
theorem fetch_ne_filterType {s u : State} {c : Ctx} {i : Instr} (hn : nextOp s = .fetch c) (hf : fetch c s = .ok i u)
    (f : FilterType) : i ≠ f.instr := by
  rintro rfl
  have hc := answers_not_filter (decode_answers _ _ _ _ _ hf)
  have := phaseOp_fetch (nextOp_fetch hn).2.2
  simp [hc] at this

/-- A filter type is executed on a row that is due. -/
theorem InstrSource.filterType {s u : State} {f : FilterType} (h : InstrSource s f.instr u) :
    u = s ∧ ((∃ b, s.row = .filterByte b) ∨ s.row = .finishRow) := by
  rcases h with ⟨hu, hn⟩ | ⟨c, hn, hf⟩
  · rcases (nextOp_run hn).2 with ⟨b, hr, -⟩ | ⟨hr, -⟩ | ⟨-, -, -, e⟩
    · exact ⟨hu, .inl ⟨b, hr⟩⟩
    · exact ⟨hu, .inr hr⟩
    · exact absurd e.symm (btypeInstr_ne_filterType _ f)
  · exact absurd rfl (fetch_ne_filterType hn hf f)

/-! ## What no instruction and no rule writes -/

/-- IN, the configuration, the parameters and the host's own fields are the same (20_memory.md R71, 10_state.md R52). -/
structure SameHostState (s t : State) : Prop where
  inMem_eq : t.inMem = s.inMem
  inLen_eq : t.inLen = s.inLen
  cfgWidth_eq : t.cfgWidth = s.cfgWidth
  cfgHeight_eq : t.cfgHeight = s.cfgHeight
  cfgBpp_eq : t.cfgBpp = s.cfgBpp
  latW_eq : t.latW = s.latW
  latH_eq : t.latH = s.latH
  latB_eq : t.latB = s.latB
  prm_eq : t.prm = s.prm
  host_eq : t.host = s.host
  rdata_eq : t.rdata = s.rdata

theorem SameHostState.trans {s t u : State} (h : SameHostState s t) (k : SameHostState t u) : SameHostState s u := by
  constructor
  exacts [k.inMem_eq.trans h.inMem_eq, k.inLen_eq.trans h.inLen_eq, k.cfgWidth_eq.trans h.cfgWidth_eq,
    k.cfgHeight_eq.trans h.cfgHeight_eq, k.cfgBpp_eq.trans h.cfgBpp_eq, k.latW_eq.trans h.latW_eq,
    k.latH_eq.trans h.latH_eq, k.latB_eq.trans h.latB_eq, k.prm_eq.trans h.prm_eq, k.host_eq.trans h.host_eq,
    k.rdata_eq.trans h.rdata_eq]

theorem ReadFrame.hostState {s t : State} (h : ReadFrame s t) : SameHostState s t := by
  constructor <;> rw [h.eq]

theorem raise_hostState (e : ErrCode) (s : State) : SameHostState s (raise e s) := by
  constructor <;> rfl

theorem emit_hostState (b : Byte) (g : Stage) (s : State) : SameHostState s (emit b { s with stage := g }) := by
  constructor <;> simp

/-- No instruction writes IN, the configuration, the parameters or the host's fields. -/
theorem ExecNext.hostState {i : Instr} {s t : State} (h : ExecNext s i t) : SameHostState s t := by
  cases h with
  | lit v => exact emit_hostState v s.stage s
  | clRun i r v => constructor <;> simp
  | _ => constructor <;> rfl

/-- Nor does a rule between tokens. -/
theorem MicroNext.hostState {m : Micro} {s t : State} (h : MicroNext s m t) : SameHostState s t := by
  cases h with
  | raw b u hf => exact hf.hostState.trans (emit_hostState b .rawNext u)
  | rawFailed e u hf => exact hf.hostState.trans (raise_hostState e u)
  | copied left d b => exact emit_hostState b _ s
  | _ => constructor <;> rfl

/-- Nor does a CORE step. -/
theorem coreStep_hostState {s t : State} (h : coreStep s = .next t) : SameHostState s t :=
  coreStep_preserves (P := SameHostState s) (fun c _ => (fetch_frame c s).hostState)
    (fun _ _ hu hx _ => hu.trans hx.hostState) (fun _ _ hm => hm.hostState)
    (fun e u hu ht _ => ht ▸ hu.trans (raise_hostState e u)) (by constructor <;> rfl) h

end Sys2Proof.Machine
end
section
/-! SUPPORT. The bit reader over a step, with the statements ReaderStaysInRange and BitCursorAdvances. -/

namespace Sys2Proof.Machine

/-- The bit reader of `t` came from the one of `s` by reads: in range, with IN_LEN the same and the cursor no earlier (10_state.md
R40, R41). -/
structure ReaderAdvance (s t : State) : Prop where
  inLen_eq : t.inLen = s.inLen
  bitCnt_le : t.bitCnt ≤ 8
  curByte_lt : t.curByte.toNat < 2 ^ t.bitCnt
  bytePos_le : t.bytePos ≤ s.inLen
  bitCnt_le_pos : t.bitCnt ≤ 8 * t.bytePos
  errBit_le : t.errBit ≤ 8
  cursor_le : bitPos s ≤ bitPos t

theorem ReaderAdvance.refl {s : State} (hs : ReaderInv s) (hb : s.phase.busy = true) : ReaderAdvance s s :=
  ⟨rfl, hs.bitCnt_le, hs.curByte_lt, hs.bytePos_le hb, hs.bitCnt_le_pos, hs.errBit_le, Nat.le_refl _⟩

theorem ReaderAdvance.inv {s t : State} (h : ReaderAdvance s t) : ReaderInv t :=
  ⟨h.bitCnt_le, h.curByte_lt, fun _ => h.inLen_eq ▸ h.bytePos_le, h.bitCnt_le_pos, h.errBit_le⟩

theorem readBit_advance {s t : State} (h : ReaderAdvance s t) : ReaderAdvance s (readBit t).state := by
  obtain ⟨hlen, hcnt, hcur, hpos, hcntPos, herr, hcursor⟩ := h
  rcases readBit_cases t with ⟨-, -, e⟩ | ⟨-, -, -, e⟩ | ⟨b, h0, h1, -, e⟩ | ⟨h0, e⟩ <;> rw [e]
  · exact ⟨hlen, hcnt, hcur, hpos, hcntPos, herr, hcursor⟩
  · exact ⟨hlen, hcnt, hcur, hpos, hcntPos, herr, hcursor⟩
  · have hb : (b >>> 1).toNat < 2 ^ 7 := by rw [shiftRight_one_toNat]; omega
    refine ⟨hlen, by simp, hb, ?_, ?_, herr, ?_⟩ <;> simp only [bitPos, Rd.state_ok] at * <;> omega
  · have hb : (t.curByte >>> 1).toNat < 2 ^ (t.bitCnt - 1) := by
      rw [shiftRight_one_toNat]
      obtain ⟨n, hn⟩ := Nat.exists_eq_add_one_of_ne_zero h0
      rw [hn, Nat.pow_succ] at hcur
      rw [hn, Nat.add_sub_cancel]
      omega
    refine ⟨hlen, ?_, hb, hpos, ?_, herr, ?_⟩ <;> simp only [bitPos, Rd.state_ok] at * <;> omega

theorem byteAlign_advance {s t : State} (h : ReaderAdvance s t) : ReaderAdvance s (byteAlign t) := by
  refine ⟨h.inLen_eq, by simp, by simp, h.bytePos_le, by simp, h.errBit_le, ?_⟩
  have := h.cursor_le
  simp only [bitPos, byteAlign_bytePos, byteAlign_bitCnt] at *
  omega

theorem readerAdvance_keeps (L : Latch → Prop) (s : State) : stateSource.Keeps L (ReaderAdvance s) where
  bit _ h := readBit_advance h
  align _ h := byteAlign_advance h
  latch l _ _ h := by cases l <;> exact ⟨h.1, h.2, h.3, h.4, h.5, h.6, h.7⟩

/-- The bit reader is the same, and ERRBIT is unless it records the cursor (60_exceptions.md R411). -/
structure SameReader (s t : State) : Prop where
  inLen_eq : t.inLen = s.inLen
  bytePos_eq : t.bytePos = s.bytePos
  curByte_eq : t.curByte = s.curByte
  bitCnt_eq : t.bitCnt = s.bitCnt
  errBit_eq : t.errBit = s.errBit ∨ t.errBit = s.bitCnt

theorem ReaderAdvance.same {s t u : State} (k : ReaderAdvance s t) (h : SameReader t u) : ReaderAdvance s u := by
  obtain ⟨hlen, hpos, hcur, hcnt, herr⟩ := h
  refine ⟨hlen.trans k.inLen_eq, hcnt ▸ k.bitCnt_le, by rw [hcur, hcnt]; exact k.curByte_lt, hpos ▸ k.bytePos_le,
    by rw [hcnt, hpos]; exact k.bitCnt_le_pos, ?_, by rw [bitPos, bitPos, hpos, hcnt]; exact k.cursor_le⟩
  rcases herr with e | e
  · exact e ▸ k.errBit_le
  · exact e ▸ k.bitCnt_le

theorem raise_reader (e : ErrCode) (s : State) : SameReader s (raise e s) := ⟨rfl, rfl, rfl, rfl, .inr rfl⟩

theorem emit_reader (b : Byte) (g : Stage) (s : State) : SameReader s (emit b { s with stage := g }) := by
  constructor <;> simp

/-- No instruction reads a bit. -/
theorem ExecNext.reader {i : Instr} {s t : State} (h : ExecNext s i t) : SameReader s t := by
  cases h with
  | lit v => exact emit_reader v s.stage s
  | clRun i r v => constructor <;> simp
  | error i e => exact raise_reader e s
  | _ => exact ⟨rfl, rfl, rfl, rfl, .inl rfl⟩

/-- Of the rules between tokens only the stored byte reads bits. -/
theorem MicroNext.readerAdvance {m : Micro} {s t : State} (h : MicroNext s m t) (hs : ReaderAdvance s s) : ReaderAdvance s t := by
  have hread := readBits_keeps (readerAdvance_keeps (fun _ => True) s) 8 s hs
  cases h with
  | raw b u hf hv =>
    obtain ⟨v, hv⟩ := hv
    rw [hv] at hread
    exact hread.same (emit_reader b .rawNext u)
  | rawFailed e u hf he hu => subst hu; exact hread.same (raise_reader e _)
  | copied left d b => exact hs.same (emit_reader b _ s)
  | truncated => exact hs.same (raise_reader _ s)
  | _ => exact hs.same ⟨rfl, rfl, rfl, rfl, .inl rfl⟩

/-- What a CORE step of a running decode does to the bit reader. -/
theorem coreStep_readerAdvance {s t : State} (hs : ReaderInv s) (hb : s.phase.busy = true) (h : coreStep s = .next t) :
    ReaderAdvance s t := by
  have h0 := ReaderAdvance.refl hs hb
  exact coreStep_preserves (P := ReaderAdvance s) (fun c _ => decode_keeps c (readerAdvance_keeps _ s) s h0)
    (fun _ _ hu hx _ => hu.same hx.reader) (fun _ _ hm => hm.readerAdvance h0)
    (fun e u hu ht _ => ht ▸ hu.same (raise_reader e u)) h0 h

theorem ReaderInv.hostShape {s t : State} {o : Host.Outcome State Fault Refusal} (hs : ReaderInv s) (h : HostShape s o)
    (ho : o = .next t) : ReaderInv t := by
  obtain ⟨hcnt, hcur, hpos, hcntPos, herr⟩ := hs
  cases h <;> cases ho
  case inputLen n hb => exact ⟨hcnt, hcur, fun h => absurd (hb.symm.trans h) nofun, hcntPos, herr⟩
  case startFailed => exact ⟨hcnt, hcur, nofun, hcntPos, Nat.zero_le 8⟩
  case reset | started => constructor <;> simp
  all_goals exact ⟨hcnt, hcur, hpos, hcntPos, herr⟩

/-- Settles O53: a CORE step of a running decode only advances the reader, and no host move during a decode touches it. -/
theorem readerStaysInRange : Obligations.ReaderStaysInRange := by
  intro s t hs h
  refine step_preserves (P := ReaderInv) (fun _ _ h => ⟨h.1, h.2, h.3, h.4, h.5⟩) (fun _ _ _ => ReaderInv.hostShape) ?_ hs h
  intro s t hs h
  by_cases hb : s.phase.busy = true
  · exact (coreStep_readerAdvance hs hb h).inv
  · rw [coreStep_not_busy s (Bool.eq_false_of_not_eq_true hb)] at h
    cases h
    exact hs

/-- Each byte of IN from BYTEPOS on counts eight bits. -/
theorem pendingBits_length (s : State) : (pendingBits s).length = s.bitCnt + 8 * (s.inLen - s.bytePos) := by
  simp [pendingBits, bitsLsb_length, List.length_flatMap, Nat.mul_comm]

/-- Settles O11, from what a CORE step does to the bit reader. -/
theorem bitCursorAdvances : Obligations.BitCursorAdvances := by
  intro s t hs hb h
  obtain ⟨hlen, -, -, hpos, hcntPos, -, hcursor⟩ := coreStep_readerAdvance hs hb h
  refine ⟨hcursor, ?_, ?_⟩
  · rw [bitPos]; omega
  · rw [pendingBits_length, bitPos, hlen]; omega

end Sys2Proof.Machine
end
section
/-! SUPPORT. The error registers, the latched configuration and the window over a step, with the statements ErrorRegistersQuiet,
ConfigurationLatched and WindowFollowsProduced. -/

namespace Sys2Proof.Machine

/-! ## The error registers -/

/-- The error registers are the same, and ERROR is not entered. -/
structure SameErrors (s t : State) : Prop where
  errCode_eq : t.errCode = s.errCode
  errByte_eq : t.errByte = s.errByte
  errBit_eq : t.errBit = s.errBit
  phase_error : t.phase = .error → s.phase = .error

theorem ReadFrame.errors {s t : State} (h : ReadFrame s t) : SameErrors s t := by
  constructor <;> rw [h.eq]
  exact id

theorem emit_errors (b : Byte) (g : Stage) (s : State) : SameErrors s (emit b { s with stage := g }) := by
  constructor <;> simp

theorem endOfBlock_errors (n : Nat) (s : State) : SameErrors s (endOfBlock { s with storedRem := n }) := by
  refine ⟨rfl, rfl, rfl, fun h => ?_⟩
  rw [endOfBlock_phase] at h
  split at h <;> cases h

theorem SameErrors.trans {s t u : State} (h : SameErrors s t) (k : SameErrors t u) : SameErrors s u :=
  ⟨k.errCode_eq.trans h.errCode_eq, k.errByte_eq.trans h.errByte_eq, k.errBit_eq.trans h.errBit_eq,
    fun e => h.phase_error (k.phase_error e)⟩

/-- An instruction writes the error registers only by raising an error (60_exceptions.md R411). -/
theorem ExecNext.errors {i : Instr} {s t : State} (h : ExecNext s i t) :
    SameErrors s t ∨ ∃ e, e ≠ .none ∧ t = raise e s := by
  cases h with
  | error i e he => exact .inr ⟨e, he, rfl⟩
  | blockType i p hp => exact .inl ⟨rfl, rfl, rfl, fun h => by rcases hp with ⟨-, rfl⟩ | ⟨-, rfl⟩ | ⟨-, rfl⟩ <;> cases h⟩
  | storedEmpty => exact .inl (endOfBlock_errors 0 s)
  | eob => exact .inl (endOfBlock_errors s.storedRem s)
  | lit v => exact .inl (emit_errors v s.stage s)
  | clRun i r v => exact .inl (by constructor <;> simp)
  | _ => exact .inl ⟨rfl, rfl, rfl, id⟩

/-- So does a rule between tokens, where the bits of a stored byte may have been read before. -/
theorem MicroNext.errors {m : Micro} {s t : State} (h : MicroNext s m t) :
    SameErrors s t ∨ ∃ e u, e ≠ .none ∧ t = raise e u := by
  cases h with
  | selectFixed | buildTables | complete => exact .inl ⟨rfl, rfl, rfl, nofun⟩
  | raw b u hf => exact .inl (hf.errors.trans (emit_errors b .rawNext u))
  | rawFailed e u hf he => exact .inr ⟨e, u, he, rfl⟩
  | rawLast => exact .inl (endOfBlock_errors _ s)
  | copied left d b => exact .inl (emit_errors b _ s)
  | truncated => exact .inr ⟨.truncatedInput, s, by decide, rfl⟩
  | buildCl | rawMore | copyDone => exact .inl ⟨rfl, rfl, rfl, id⟩

theorem raise_errorInv {e : ErrCode} (he : e ≠ .none) (s : State) : ErrorInv (raise e s) :=
  ⟨fun h => absurd rfl h, fun _ => he⟩

theorem SameErrors.errorInv {s t : State} (h : SameErrors s t) (hs : ErrorInv s) (hne : s.phase ≠ .error) : ErrorInv t where
  quiet _ := by
    rw [h.errCode_eq, h.errByte_eq, h.errBit_eq]
    exact hs.quiet hne
  named e := absurd (h.phase_error e) hne

theorem busy_ne_error {s : State} (h : s.phase.busy = true) : s.phase ≠ .error := by
  intro e
  rw [e] at h
  cases h

theorem coreStep_errorInv {s t : State} (hs : ErrorInv s) (h : coreStep s = .next t) : ErrorInv t := by
  refine coreStep_preserves (P := ErrorInv) ?read ?exec ?micro (fun _ _ _ ht he => ht ▸ raise_errorInv he _) hs h
  case read =>
    intro c hn
    exact (fetch_frame c s).errors.errorInv hs (busy_ne_error (nextOp_fetch hn).1)
  case exec =>
    intro i u hu hx hi
    rcases hx.errors with hsame | ⟨e, he, rfl⟩
    · exact hsame.errorInv hu ((InstrSource.frame hi).phase_eq ▸ busy_ne_error (InstrSource.busy hi))
    · exact raise_errorInv he u
  case micro =>
    intro m hn hm
    rcases hm.errors with hsame | ⟨e, u, he, rfl⟩
    · exact hsame.errorInv hs (busy_ne_error (nextOp_micro hn).1)
    · exact raise_errorInv he u

theorem ErrorInv.hostShape {s t : State} {o : Host.Outcome State Fault Refusal} (hs : ErrorInv s) (h : HostShape s o)
    (ho : o = .next t) : ErrorInv t := by
  obtain ⟨hquiet, hnamed⟩ := hs
  cases h <;> cases ho
  case reset | started => exact ⟨fun _ => ⟨rfl, rfl, rfl⟩, nofun⟩
  case startFailed => exact ⟨fun h => absurd rfl h, fun _ => nofun⟩
  all_goals exact ⟨hquiet, hnamed⟩

/-- Settles O55: every raise names an error and enters ERROR, and nothing else writes the error registers but RESET and START. -/
theorem errorRegistersQuiet : Obligations.ErrorRegistersQuiet := fun _ _ =>
  step_preserves (P := ErrorInv) (fun _ _ h => ⟨h.1, h.2⟩) (fun _ _ _ => ErrorInv.hostShape) fun _ _ => coreStep_errorInv

/-! ## The latched configuration -/

theorem SameHostState.configOk_eq {s t : State} (h : SameHostState s t) : configOk t = configOk s := by
  simp only [configOk, h.cfgWidth_eq, h.cfgHeight_eq, h.cfgBpp_eq, h.prm_eq]

/-- A CORE step that leaves the CORE busy began busy: IDLE, COMPLETE and ERROR execute nothing (45_controller.md R329). -/
theorem coreStep_busy {s t : State} (h : coreStep s = .next t) (hb : t.phase.busy = true) : s.phase.busy = true := by
  by_contra hs
  rw [coreStep_not_busy s (Bool.eq_false_of_not_eq_true hs)] at h
  cases h
  exact hs hb

theorem coreStep_configInv {s t : State} (hs : ConfigInv s) (h : coreStep s = .next t) : ConfigInv t where
  latched hb := by
    have hf := coreStep_hostState h
    rw [hf.latW_eq, hf.latH_eq, hf.latB_eq, hf.cfgWidth_eq, hf.cfgHeight_eq, hf.cfgBpp_eq]
    exact hs.latched (coreStep_busy h hb)
  checked hb := (coreStep_hostState h).configOk_eq.trans (hs.checked (coreStep_busy h hb))

theorem ConfigInv.hostShape {s t : State} {o : Host.Outcome State Fault Refusal} (hs : ConfigInv s) (h : HostShape s o)
    (ho : o = .next t) : ConfigInv t := by
  obtain ⟨hlatched, hchecked⟩ := hs
  cases h <;> cases ho
  case cfg w h b hb => exact ⟨fun e => absurd (hb.symm.trans e) nofun, fun e => absurd (hb.symm.trans e) nofun⟩
  case reset | startFailed => exact ⟨nofun, nofun⟩
  case started hb hc => exact ⟨fun _ => ⟨rfl, rfl, rfl⟩, fun _ => hc⟩
  all_goals exact ⟨hlatched, hchecked⟩

/-- Settles O57: START latches a configuration that passed the check, and while busy neither the host nor the CORE writes it. -/
theorem configurationLatched : Obligations.ConfigurationLatched := fun _ _ =>
  step_preserves (P := ConfigInv) (fun _ _ h => ⟨h.1, h.2⟩) (fun _ _ _ => ConfigInv.hostShape) fun _ _ => coreStep_configInv

/-! ## The window -/

/-- The window invariant with the window in canonical form, which a read after a write asks for. -/
def WindowOk (s : State) : Prop := Memory.wf s.win ∧ WindowInv s

/-- The window and the counters are the same, and a copy is in progress only where one was. -/
structure SameWindow (s t : State) : Prop where
  win_eq : t.win = s.win
  wpos_eq : t.wpos = s.wpos
  produced_eq : t.produced = s.produced
  copy_stage : ∀ left d, t.stage = .copy left d → s.stage = .copy left d

theorem ReadFrame.window {s t : State} (h : ReadFrame s t) : SameWindow s t := by
  constructor <;> rw [h.eq]
  exact fun _ _ => id

theorem WindowOk.same {s t : State} (hs : WindowOk s) (h : SameWindow s t) : WindowOk t := by
  obtain ⟨hwf, hpos, hwritten, hcopy⟩ := hs
  obtain ⟨hw, hp, hn, hst⟩ := h
  refine ⟨hw ▸ hwf, by rw [hp, hn]; exact hpos, by rw [hw, hn]; exact hwritten, fun left d e => ?_⟩
  rw [hn]
  exact hcopy left d (hst left d e)

/-- Emitting a byte writes the cell of that byte, and leaves a copy within its bounds. -/
theorem emit_windowOk {s : State} (hs : WindowOk s) (b : Byte) {g : Stage}
    (hg : ∀ left d, g = .copy left d → 1 ≤ d ∧ d ≤ wsize ∧ d ≤ s.produced) :
    WindowOk (emit b { s with stage := g }) := by
  obtain ⟨hwf, hpos, hwritten, -⟩ := hs
  refine ⟨by simpa using Memory.write_wf s.win _ b hwf, ?_, fun a ha hw => ?_, fun left d e => ?_⟩
  · have : (s.wpos + 1).toNat = (s.wpos.toNat + 1) % 32768 := by simp [BitVec.toNat_add]
    simp only [emit_wpos, emit_produced, this, hpos, wsize]
    omega
  · simp only [emit_produced] at ha
    simp only [emit_win, Memory.read_write s.win _ b hwf]
    split
    · rfl
    · next hne =>
      rw [hpos] at hne
      exact hwritten a (by rcases Nat.lt_succ_iff_lt_or_eq.mp ha with h | rfl
                           · exact h
                           · exact absurd (Nat.mod_eq_of_lt hw).symm hne) hw
  · simp only [emit_stage] at e
    obtain ⟨h1, h2, h3⟩ := hg left d e
    exact ⟨h1, h2, by simp only [emit_produced]; omega⟩

theorem ExecNext.windowOk {i : Instr} {s t : State} (h : ExecNext s i t) (hs : WindowOk s) : WindowOk t := by
  cases h with
  | lit v => exact emit_windowOk hs v hs.2.copy_bounds
  | distance i d hd hp =>
    obtain ⟨hwf, hpos, hwritten, -⟩ := hs
    refine ⟨hwf, hpos, hwritten, fun left d' e => ?_⟩
    cases e
    exact ⟨hd.1, hd.2, hp⟩
  | clRun i r v => exact hs.same (by constructor <;> simp)
  | clLit | accept | finishRow => exact hs.same ⟨rfl, rfl, rfl, fun _ _ => id⟩
  | _ => exact hs.same ⟨rfl, rfl, rfl, nofun⟩

theorem MicroNext.windowOk {m : Micro} {s t : State} (h : MicroNext s m t) (hs : WindowOk s) : WindowOk t := by
  cases h with
  | raw b u hf => exact emit_windowOk (hs.same hf.window) b nofun
  | rawFailed e u hf => exact (hs.same hf.window).same ⟨rfl, rfl, rfl, nofun⟩
  | copied left d b hst =>
    refine emit_windowOk hs b fun left' d' e => ?_
    split at e
    · cases e
    · cases e
      exact hs.2.copy_bounds _ _ hst
  | _ => exact hs.same ⟨rfl, rfl, rfl, nofun⟩

theorem coreStep_windowOk {s t : State} (hs : WindowOk s) (h : coreStep s = .next t) : WindowOk t :=
  coreStep_preserves (P := WindowOk) (fun c _ => hs.same (fetch_frame c s).window) (fun _ _ hu hx _ => hx.windowOk hu)
    (fun _ _ hm => hm.windowOk hs) (fun _ _ hu ht _ => ht ▸ hu.same ⟨rfl, rfl, rfl, nofun⟩) hs h

theorem emptyWindow_ok {s : State} (hw : s.win = []) (hp : s.wpos = 0) (hn : s.produced = 0) (hst : s.stage = .start) :
    WindowOk s := by
  refine ⟨hw ▸ List.Pairwise.nil, by simp [hp, hn], fun a ha => ?_, fun left d e => ?_⟩
  · rw [hn] at ha
    exact absurd ha (Nat.not_lt_zero a)
  · exact absurd (hst.symm.trans e) nofun

theorem WindowOk.hostShape {s t : State} {o : Host.Outcome State Fault Refusal} (hs : WindowOk s) (h : HostShape s o)
    (ho : o = .next t) : WindowOk t := by
  cases h <;> cases ho
  case reset | started => exact emptyWindow_ok rfl rfl rfl rfl
  case startFailed => exact hs.same ⟨rfl, rfl, rfl, nofun⟩
  all_goals exact hs.same ⟨rfl, rfl, rfl, fun _ _ => id⟩

/-- Settles O54: only emitted bytes move the window, one cell each, and a copy begins only at a distance that was checked. -/
theorem windowFollowsProduced : Obligations.WindowFollowsProduced := fun _ _ hm hs h =>
  (step_preserves (P := WindowOk) (fun _ _ hs => hs.same ⟨rfl, rfl, rfl, fun _ _ => id⟩) (fun _ _ _ => WindowOk.hostShape)
    (fun _ _ => coreStep_windowOk) ⟨hm.winWf, hs⟩ h).2

end Sys2Proof.Machine
end
section
/-! SUPPORT. The length arrays and the tables over a step, with the statement TablesMatchArrays. -/

namespace Sys2Proof.Machine

/-! ## Arrays of code lengths -/

/-- An array of `n` code lengths, none above `b` (10_state.md R44, R46). -/
def LengthsOk (n b : Nat) (lens : List Nat) : Prop := lens.length = n ∧ ∀ l ∈ lens, l ≤ b

theorem LengthsOk.zeros (n b : Nat) : LengthsOk n b (List.replicate n 0) :=
  ⟨List.length_replicate, fun l h => by rw [List.eq_of_mem_replicate h]; exact Nat.zero_le b⟩

theorem LengthsOk.set {n b : Nat} {lens : List Nat} (h : LengthsOk n b lens) (i : Nat) {v : Nat} (hv : v ≤ b) :
    LengthsOk n b (lens.set i v) := by
  refine ⟨List.length_set.trans h.1, fun l hl => ?_⟩
  rcases List.mem_or_eq_of_mem_set hl with hl | rfl
  · exact h.2 l hl
  · exact hv

theorem LengthsOk.append {n m b : Nat} {l r : List Nat} (hl : LengthsOk n b l) (hr : LengthsOk m b r) :
    LengthsOk (n + m) b (l ++ r) := by
  refine ⟨by rw [List.length_append, hl.1, hr.1], fun x hx => ?_⟩
  exact (List.mem_append.mp hx).elim (hl.2 x) (hr.2 x)

theorem scatterFrom_ok {lens : List Nat} (h : LengthsOk nCL 7 lens) (k : Nat) (vals : List (BitVec 3)) :
    LengthsOk nCL 7 (scatterFrom lens k vals) := by
  induction vals generalizing lens k with
  | nil => exact h
  | cons v vs ih => exact ih (h.set _ (by omega)) (k + 1)

theorem pushLens_lenSeq_ok {v : Nat} (hv : v ≤ 15) (n : Nat) {s : State} (h : LengthsOk 320 15 s.lenSeq) :
    LengthsOk 320 15 (pushLens n v s).lenSeq := by
  induction n generalizing s with
  | zero => exact h
  | succ n ih => exact ih (s := pushLen v s) (h.set s.nlens hv)

theorem prevLen_le {s : State} (h : LengthsOk 320 15 s.lenSeq) : prevLen s ≤ 15 := by
  rw [prevLen, List.getD_eq_getElem?_getD]
  cases e : s.lenSeq[s.nlens - 1]? with
  | none => exact Nat.zero_le 15
  | some l => exact h.2 l (List.mem_of_getElem? e)

theorem splitLL_ok {s : State} (h : LengthsOk 320 15 s.lenSeq) (hl : s.hlit ≤ nLL) : LengthsOk nLL 15 (splitLL s) := by
  have htake : LengthsOk s.hlit 15 (s.lenSeq.take s.hlit) :=
    ⟨by rw [List.length_take, h.1]; simp only [nLL] at hl; omega, fun l e => h.2 l (List.mem_of_mem_take e)⟩
  have := htake.append (.zeros (nLL - s.hlit) 15)
  rwa [Nat.add_sub_cancel' hl] at this

theorem splitD_ok {s : State} (h : LengthsOk 320 15 s.lenSeq) (hl : s.hlit ≤ nLL) (hd : s.hdist ≤ nD) :
    LengthsOk nD 15 (splitD s) := by
  have htake : LengthsOk s.hdist 15 ((s.lenSeq.drop s.hlit).take s.hdist) :=
    ⟨by rw [List.length_take, List.length_drop, h.1]; simp only [nLL, nD] at hl hd; omega,
      fun l e => h.2 l (List.mem_of_mem_drop (List.mem_of_mem_take e))⟩
  have := htake.append (.zeros (nD - s.hdist) 15)
  rwa [Nat.add_sub_cancel' hd] at this

/-- The symbols of a table built from an array are positions of the array. -/
theorem build_symbolsBelow {n b : Nat} {lens : List Nat} (h : LengthsOk n b lens) : (build lens).symbolsBelow n :=
  fun e he => h.1 ▸ build_sym_lt lens e he

theorem emptyTable_symbolsBelow (n : Nat) : emptyTable.symbolsBelow n := nofun

theorem fixedLL_symbolsBelow : fixedLL.symbolsBelow nLL := by
  have hlen : fixedLLLens.length = nLL := by
    simp only [fixedLLLens, List.length_append, List.length_replicate, nLL]
  exact fun e he => hlen ▸ build_sym_lt fixedLLLens e he

theorem fixedD_symbolsBelow : fixedD.symbolsBelow nD := by
  have hlen : (List.replicate 32 5).length = nD := List.length_replicate
  exact fun e he => hlen ▸ build_sym_lt (List.replicate 32 5) e he

/-! ## Steps that leave the arrays and the tables alone -/

/-- The length arrays, the header registers and the tables are the same. -/
structure SameTables (s t : State) : Prop where
  llLens_eq : t.llLens = s.llLens
  dLens_eq : t.dLens = s.dLens
  clLens_eq : t.clLens = s.clLens
  lenSeq_eq : t.lenSeq = s.lenSeq
  hlit_eq : t.hlit = s.hlit
  hdist_eq : t.hdist = s.hdist
  hclen_eq : t.hclen = s.hclen
  nlens_eq : t.nlens = s.nlens
  tLL_eq : t.tLL = s.tLL
  tD_eq : t.tD = s.tD
  tCL_eq : t.tCL = s.tCL

/-- A phase in which no table is in use: all that TableInv asks for there is sizes and ranges. -/
def Phase.tableFree : Phase → Bool
  | .idle | .blockHeader | .finish | .complete | .error => true
  | .stored | .fixed | .dynamic | .symbols => false

theorem TableInv.free {s t : State} (hs : TableInv s) (h : SameTables s t) (hr : t.storedRem ≤ 65535)
    (hp : t.phase.tableFree = true) : TableInv t := by
  obtain ⟨hll, hd, hcl, hseq, hhdr, -, -, hsym, -, -, -⟩ := hs
  obtain ⟨e1, e2, e3, e4, e5, e6, e7, e8, e9, e10, e11⟩ := h
  have hne : ∀ p, p.tableFree = false → t.phase ≠ p := fun p hp' e => by rw [e, hp'] at hp; cases hp
  exact
    { llLens_ok := e1 ▸ hll
      dLens_ok := e2 ▸ hd
      clLens_ok := e3 ▸ hcl
      lenSeq_ok := e4 ▸ hseq
      header_le := by rw [e5, e6, e7, e8]; exact hhdr
      tokens_le := fun e => absurd e (hne _ rfl)
      storedRem_le := hr
      symbols := by rw [e9, e10, e11]; exact hsym
      body := ⟨fun e => absurd e (hne _ rfl), fun e => absurd e (hne _ rfl), fun e => absurd e (hne _ rfl)⟩
      codeLengths := fun e => absurd e (hne _ rfl)
      active := fun e => absurd e (hne _ rfl) }

theorem TableInv.same {s t : State} (hs : TableInv s) (h : SameTables s t) (hr : t.storedRem ≤ 65535)
    (hb : t.btype = s.btype) (hp : t.phase = s.phase) (hst : t.stage = .clTokens → s.stage = .clTokens) : TableInv t := by
  obtain ⟨hll, hd, hcl, hseq, hhdr, htok, -, hsym, hbody, hcodes, hact⟩ := hs
  obtain ⟨e1, e2, e3, e4, e5, e6, e7, e8, e9, e10, e11⟩ := h
  exact
    { llLens_ok := e1 ▸ hll
      dLens_ok := e2 ▸ hd
      clLens_ok := e3 ▸ hcl
      lenSeq_ok := e4 ▸ hseq
      header_le := by rw [e5, e6, e7, e8]; exact hhdr
      tokens_le := fun e f => by rw [e5, e6, e8]; exact htok (hp.symm.trans e) (hst f)
      storedRem_le := hr
      symbols := by rw [e9, e10, e11]; exact hsym
      body := by rw [hb, hp]; exact hbody
      codeLengths := fun e f => by rw [e3, e11]; exact hcodes (hp.symm.trans e) (hst f)
      active := fun e => by
        simp only [splitLL, splitD, e1, e2, e4, e5, e6, e9, e10, hb]
        exact hact (hp.symm.trans e) }

theorem TableInv.raise {s : State} (hs : TableInv s) (e : ErrCode) : TableInv (raise e s) :=
  hs.free (by constructor <;> rfl) hs.storedRem_le rfl

theorem TableInv.endOfBlock {s : State} (hs : TableInv s) {n : Nat} (hn : n ≤ 65535) :
    TableInv (endOfBlock { s with storedRem := n }) := by
  refine hs.free (by constructor <;> rfl) hn ?_
  rw [endOfBlock_phase]
  split <;> rfl

theorem TableInv.emit {s : State} (hs : TableInv s) (b : Byte) {g : Stage} (hg : g = .clTokens → s.stage = .clTokens) :
    TableInv (emit b { s with stage := g }) :=
  hs.same (by constructor <;> simp) (by simpa using hs.storedRem_le) (by simp) (by simp) (by simpa using hg)

/-! ## Steps of a block that write them -/

/-- Each block type's phase is entered with its own BTYPE (42_blocks.md R160). -/
theorem TableInv.blockType {s : State} (hs : TableInv s) {p : Phase}
    (hp : (p = .stored ∧ s.btype = 0) ∨ (p = .fixed ∧ s.btype = 1) ∨ (p = .dynamic ∧ s.btype = 2)) :
    TableInv { s with phase := p, stage := .start } := by
  obtain ⟨hll, hd, hcl, hseq, hhdr, -, hr, hsym, -, -, -⟩ := hs
  rcases hp with ⟨rfl, hb⟩ | ⟨rfl, hb⟩ | ⟨rfl, hb⟩
  · exact ⟨hll, hd, hcl, hseq, hhdr, nofun, hr, hsym, ⟨fun _ => hb, nofun, nofun⟩, nofun, nofun⟩
  · exact ⟨hll, hd, hcl, hseq, hhdr, nofun, hr, hsym, ⟨nofun, fun _ => hb, nofun⟩, nofun, nofun⟩
  · exact ⟨hll, hd, hcl, hseq, hhdr, nofun, hr, hsym, ⟨nofun, nofun, fun _ => hb⟩, nofun, nofun⟩

/-- In a dynamic block, outside the code-length token loop, the header registers and CL_LENS may take any values in range
(42_blocks.md R167, R168). -/
theorem TableInv.header {s : State} (hs : TableInv s) (hp : s.phase = .dynamic) {a d n : Nat} {c : List Nat} {g : Stage}
    (ha : a ≤ nLL) (hd : d ≤ nD) (hn : n ≤ nCL) (hc : LengthsOk nCL 7 c) (hg : g ≠ .clTokens) :
    TableInv { s with hlit := a, hdist := d, hclen := n, clLens := c, stage := g } := by
  obtain ⟨hll, hdl, -, hseq, ⟨-, -, -, hlen⟩, -, hr, hsym, hbody, -, -⟩ := hs
  exact ⟨hll, hdl, hc, hseq, ⟨ha, hd, hn, hlen⟩, fun _ e => absurd e hg, hr, hsym, hbody, fun _ e => absurd e hg,
    fun e => absurd (hp.symm.trans e) nofun⟩

/-- In a dynamic block LENSEQ may take any lengths in range, up to HLIT + HDIST of them (R170 to R173). -/
theorem TableInv.lengths {s : State} (hs : TableInv s) (hp : s.phase = .dynamic) {seq : List Nat} {n : Nat}
    (hseq : LengthsOk 320 15 seq) (hn : n ≤ s.hlit + s.hdist) : TableInv { s with lenSeq := seq, nlens := n } := by
  obtain ⟨hll, hdl, hcl, -, ⟨ha, hd, hc, -⟩, -, hr, hsym, hbody, hcodes, -⟩ := hs
  have hlen : n ≤ 320 := by simp only [nLL, nD] at ha hd; omega
  exact ⟨hll, hdl, hcl, hseq, ⟨ha, hd, hc, hlen⟩, fun _ _ => hn, hr, hsym, hbody, hcodes,
    fun e => absurd (hp.symm.trans e) nofun⟩

theorem TableInv.selectFixed {s : State} (hs : TableInv s) (hp : s.phase = .fixed) : TableInv (selectFixed s) := by
  obtain ⟨hll, hdl, hcl, hseq, hhdr, -, hr, ⟨-, -, htCL⟩, ⟨-, hb, -⟩, -, -⟩ := hs
  exact ⟨hll, hdl, hcl, hseq, hhdr, nofun, hr, ⟨fixedLL_symbolsBelow, fixedD_symbolsBelow, htCL⟩, ⟨nofun, nofun, nofun⟩, nofun,
    fun _ => .inl ⟨hb hp, rfl, rfl⟩⟩

theorem TableInv.buildCl {s : State} (hs : TableInv s) : TableInv (buildCl s) := by
  obtain ⟨hll, hdl, hcl, hseq, ⟨ha, hd, hn, -⟩, -, hr, ⟨htLL, htD, -⟩, hbody, -, hact⟩ := hs
  exact ⟨hll, hdl, hcl, hseq, ⟨ha, hd, hn, Nat.zero_le _⟩, fun _ _ => Nat.zero_le _, hr,
    ⟨htLL, htD, build_symbolsBelow hcl⟩, hbody, fun _ _ => rfl, hact⟩

theorem TableInv.buildTables {s : State} (hs : TableInv s) (hp : s.phase = .dynamic) : TableInv (buildTables s) := by
  obtain ⟨-, -, hcl, hseq, hhdr, -, hr, ⟨-, -, htCL⟩, ⟨-, -, hb⟩, -, -⟩ := hs
  have hll := splitLL_ok hseq hhdr.1
  have hdl := splitD_ok hseq hhdr.1 hhdr.2.1
  exact ⟨hll, hdl, hcl, hseq, hhdr, nofun, hr, ⟨build_symbolsBelow hll, build_symbolsBelow hdl, htCL⟩, ⟨nofun, nofun, nofun⟩,
    nofun, fun _ => .inr ⟨hb hp, rfl, rfl, rfl, rfl⟩⟩

/-! ## A step -/

/-- Only a dynamic header and the code-length code lengths latch a field (42_blocks.md R167, R168). -/
theorem latches_ctx {c : Ctx} {l : Latch} (h : c.Latches l) : c = .dynamic ∨ ∃ n, c = .clLengths n := by
  cases c with
  | dynamic => exact .inl rfl
  | clLengths n => exact .inr ⟨n, rfl⟩
  | _ => cases l <;> cases h

/-- Both are fetched before the code-length token loop. -/
theorem phaseOp_latching {s : State} {c : Ctx} {l : Latch} (h : phaseOp s = .fetch c) (hl : c.Latches l) :
    s.phase = .dynamic ∧ s.stage ≠ .clTokens := by
  have hc := latches_ctx hl
  have hp : s.phase = .dynamic := by
    obtain rfl | ⟨n, rfl⟩ := hc
    · simpa using phaseOp_fetch h
    · have := phaseOp_fetch h
      simp_all
  refine ⟨hp, fun hst => ?_⟩
  simp only [phaseOp, hp, hst] at h
  split at h
  · cases h
    rcases hc with e | ⟨n, e⟩ <;> cases e
  · cases h

/-- What a token latches is in range. -/
theorem TableInv.latchField {s : State} (hs : TableInv s) (hp : s.phase = .dynamic) (hst : s.stage ≠ .clTokens) {c : Ctx}
    {l : Latch} (hl : c.Latches l) : TableInv (latchField l s) := by
  obtain ⟨ha, hd, hn, -⟩ := hs.header_le
  have hc : LengthsOk nCL 7 s.clLens := hs.clLens_ok
  obtain rfl | ⟨m, rfl⟩ := latches_ctx hl
  · cases l with
    | hlit n => exact hs.header hp hl.2 hd hn hc hst
    | hdist n => exact hs.header hp ha hl.2 hn hc hst
    | hclen n => exact hs.header hp ha hd hl.2 hc hst
    | clClear | clLen => cases hl
  · cases l with
    | clClear => exact hs.header hp ha hd hn (.zeros nCL 7) hst
    | clLen k v => exact hs.header hp ha hd hn (hc.set _ hl.2) hst
    | hlit | hdist | hclen => cases hl

theorem TableInv.reader {s : State} (hs : TableInv s) (p : Nat) (b : Byte) (n : Nat) :
    TableInv { s with bytePos := p, curByte := b, bitCnt := n } :=
  hs.same (by constructor <;> rfl) hs.storedRem_le rfl rfl id

theorem tableInv_keeps (s : State) {L : Latch → Prop}
    (hL : ∀ l, L l → s.phase = .dynamic ∧ s.stage ≠ .clTokens ∧ ∃ c : Ctx, c.Latches l) :
    stateSource.Keeps L fun t => TableInv t ∧ t.phase = s.phase ∧ t.stage = s.stage where
  bit := by
    rintro t ⟨ht, hk⟩
    rw [stateSource_bit]
    rcases readBit_cases t with ⟨-, -, e⟩ | ⟨-, -, -, e⟩ | ⟨b, -, -, -, e⟩ | ⟨-, e⟩ <;> rw [e]
    · exact ⟨ht, hk⟩
    · exact ⟨ht, hk⟩
    · exact ⟨ht.reader _ _ _, hk⟩
    · exact ⟨ht.reader t.bytePos _ _, hk⟩
  align := fun t ⟨ht, hk⟩ => ⟨ht.reader t.bytePos _ _, hk⟩
  latch := by
    rintro l t hl ⟨ht, hp, hst⟩
    obtain ⟨hp', hst', c, hc⟩ := hL l hl
    exact ⟨ht.latchField (hp.trans hp') (hst ▸ hst') hc, by cases l <;> exact ⟨hp, hst⟩⟩

theorem fetch_tableInv {s : State} {c : Ctx} (hs : TableInv s) (h : nextOp s = .fetch c) : TableInv (fetch c s).state :=
  (decode_keeps c (tableInv_keeps s fun _ hl =>
    have ⟨hp, hst⟩ := phaseOp_latching (nextOp_fetch h).2.2 hl
    ⟨hp, hst, c, hl⟩) s ⟨hs, rfl, rfl⟩).1

theorem readBits_tableInv {s : State} (hs : TableInv s) (n : Nat) : TableInv (readBits stateSource n s).state :=
  (readBits_keeps (tableInv_keeps s (L := fun _ => False) nofun) n s ⟨hs, rfl, rfl⟩).1

/-- The BTYPE a block type's instruction stands for. -/
theorem btypeInstr_phase {t : BitVec 2} {p : Phase}
    (h : (btypeInstr t = .btypeStored ∧ p = .stored) ∨ (btypeInstr t = .btypeFixed ∧ p = .fixed)
      ∨ (btypeInstr t = .btypeDynamic ∧ p = .dynamic)) :
    (p = .stored ∧ t = 0) ∨ (p = .fixed ∧ t = 1) ∨ (p = .dynamic ∧ t = 2) := by
  rcases h with ⟨h, rfl⟩ | ⟨h, rfl⟩ | ⟨h, rfl⟩ <;> revert t <;> decide

theorem ExecNext.tableInv {s u t : State} {i : Instr} (h : ExecNext u i t) (hu : TableInv u) (hi : InstrSource s i u) :
    TableInv t := by
  have hph := hi.frame.phase_eq
  obtain ⟨ha, hd, hn, -⟩ := hu.header_le
  cases h with
  | header f t => exact hu.free (by constructor <;> rfl) hu.storedRem_le (by rw [hph, hi.blockHeader]; rfl)
  | blockType i p hp =>
    obtain ⟨rfl, rfl⟩ := hi.blockType fun k => by rcases hp with ⟨rfl, -⟩ | ⟨rfl, -⟩ | ⟨rfl, -⟩ <;> rfl
    exact hu.blockType (btypeInstr_phase hp)
  | storedEmpty => exact hu.endOfBlock (Nat.zero_le _)
  | stored len nlen => exact hu.same (by constructor <;> rfl) (by simp only; omega) rfl rfl nofun
  | dynamicHeader a d n =>
    have h := hu.header (hph.trans hi.dynamicHeader) (a := a.toNat + 257) (d := d.toNat + 1) (n := n.toNat + 4)
      (g := .clLengths) (by simp only [nLL]; omega) (by simp only [nD]; omega) (by simp only [nCL]; omega) hu.clLens_ok nofun
    exact h
  | clCodeLengths vals => exact hu.header (hph.trans hi.clCodeLengths) ha hd hn (scatterFrom_ok (.zeros nCL 7) 0 vals) nofun
  | clLit n =>
    obtain ⟨hp, -, hlt, e1, e2, e3⟩ := hi.clToken fun _ => rfl
    exact hu.lengths (hph.trans hp) (LengthsOk.set hu.lenSeq_ok u.nlens (by omega)) (by omega)
  | clRun i r v hr hv hle =>
    obtain ⟨hp, -⟩ := hi.clToken fun _ => by rcases hr with ⟨x, rfl⟩ | ⟨x, rfl⟩ | ⟨x, rfl⟩ <;> rfl
    have hv : v ≤ 15 := by
      rcases hv with rfl | ⟨rfl, -⟩
      · exact Nat.zero_le 15
      · exact prevLen_le hu.lenSeq_ok
    rw [pushLens_eq]
    exact hu.lengths (hph.trans hp) (pushLens_lenSeq_ok hv r hu.lenSeq_ok) hle
  | lit v => exact hu.emit v (g := u.stage) id
  | eob => exact hu.endOfBlock hu.storedRem_le
  | length | distance => exact hu.same (by constructor <;> rfl) hu.storedRem_le rfl rfl nofun
  | accept | finishRow => exact hu.same (by constructor <;> rfl) hu.storedRem_le rfl rfl id
  | error i e => exact hu.raise e

theorem MicroNext.tableInv {s t : State} {m : Micro} (h : MicroNext s m t) (hs : TableInv s) (hm : phaseOp s = .micro m) :
    TableInv t := by
  have hph := phaseOp_micro hm
  have hrem := hs.storedRem_le
  cases h with
  | selectFixed => exact hs.selectFixed (by simpa using hph)
  | buildCl => exact hs.buildCl
  | buildTables => exact hs.buildTables (by simp at hph; exact hph.1)
  | raw b u hf hv =>
    obtain ⟨v, hv⟩ := hv
    have hu : TableInv u := by simpa [hv] using readBits_tableInv hs 8
    exact hu.emit b nofun
  | rawFailed e u hf he hu => exact hu ▸ (readBits_tableInv hs 8).raise e
  | rawLast => exact hs.endOfBlock (by omega)
  | rawMore => exact hs.same (by constructor <;> rfl) (by simp only; omega) rfl rfl nofun
  | copied left d b hst =>
    refine hs.emit b fun e => ?_
    split at e <;> cases e
  | copyDone => exact hs.same (by constructor <;> rfl) hrem rfl rfl nofun
  | truncated => exact hs.raise _
  | complete => exact hs.free (by constructor <;> rfl) hrem rfl

theorem coreStep_tableInv {s t : State} (hs : TableInv s) (h : coreStep s = .next t) : TableInv t :=
  coreStep_preserves (P := TableInv) (fun _ hn => fetch_tableInv hs hn) (fun _ _ hu hx hi => hx.tableInv hu hi)
    (fun _ hn hm => hm.tableInv hs (nextOp_micro hn).2.2) (fun e _ hu ht _ => ht ▸ hu.raise e) hs h

theorem reset_tableInv : TableInv State.reset :=
  ⟨LengthsOk.zeros 288 15, LengthsOk.zeros 32 15, LengthsOk.zeros 19 7, LengthsOk.zeros 320 15, by decide, nofun, Nat.zero_le _,
    ⟨emptyTable_symbolsBelow _, emptyTable_symbolsBelow _, emptyTable_symbolsBelow _⟩, ⟨nofun, nofun, nofun⟩, nofun, nofun⟩

theorem TableInv.hostShape {s t : State} {o : Host.Outcome State Fault Refusal} (hs : TableInv s) (h : HostShape s o)
    (ho : o = .next t) : TableInv t := by
  cases h <;> cases ho
  case reset | started => exact reset_tableInv.free (by constructor <;> rfl) (Nat.zero_le _) rfl
  case startFailed => exact hs.free (by constructor <;> rfl) hs.storedRem_le rfl
  all_goals exact hs.same (by constructor <;> rfl) hs.storedRem_le rfl rfl id

/-- Settles O56: each step that writes an array or a table runs in the phase of its own block type, and writes what the invariant
asks for there; every other step leaves them alone. -/
theorem tablesMatchArrays : Obligations.TablesMatchArrays := fun _ _ =>
  step_preserves (P := TableInv) (fun _ _ hs => hs.same (by constructor <;> rfl) hs.storedRem_le rfl rfl id)
    (fun _ _ _ => TableInv.hostShape) fun _ _ => coreStep_tableInv

end Sys2Proof.Machine
end
section
/-! SUPPORT. The row assembler and PIX over a step, with the statement RowsFollowProduced. -/

namespace Sys2Proof.Machine

/-! ## The row assembler of a running decode -/

/-- What RowInv asks for while busy, with PIX in canonical form, which a read after a write asks for. -/
structure RowsOk (s : State) : Prop where
  pixWf : Memory.wf s.pix
  rowLen_pos : 1 ≤ rowLen s
  buffers : s.cur.length = rowLen s ∧ s.prev.length = rowLen s
  position : assembled s = min s.produced (expected s)
  rowPos_le : s.rowPos ≤ rowLen s + 1
  filterDue : ∀ b, s.row = .filterByte b → s.rowPos = 0
  rowDue : s.row = .finishRow ↔ s.rowPos = rowLen s + 1
  pixRows : ∀ a, (s.pix.read a).isSome = true ↔ a < s.y * rowLen s

theorem RowInv.rowsOk {s : State} (hs : RowInv s) (hw : Memory.wf s.pix) (hb : s.phase.busy = true) : RowsOk s :=
  ⟨hw, hs.rowLen_pos hb, hs.buffers hb, hs.position hb, hs.rowPos_le hb, hs.filterDue hb, hs.rowDue hb, hs.pixRows hb⟩

/-- The image is written: `H` rows, and no byte of another (45_controller.md R327). -/
def ImageDone (s : State) : Prop :=
  s.y = s.latH.toNat ∧ s.rowPos = 0 ∧ ∀ a, (s.pix.read a).isSome = true ↔ a < s.latH.toNat * rowLen s

theorem RowInv.of_rowsOk {s : State} (h : s.phase.busy = true → RowsOk s) (hd : s.phase = .complete → ImageDone s) : RowInv s :=
  ⟨fun b => (h b).rowLen_pos, fun b => (h b).buffers, fun b => (h b).position, fun b => (h b).rowPos_le,
    fun b => (h b).filterDue, fun b => (h b).rowDue, fun b => (h b).pixRows, hd⟩

theorem assembled_clear {s : State} (h : s.row = .clear) : assembled s = s.y * (1 + rowLen s) + s.rowPos := by
  simp [assembled, h]

theorem assembled_filterByte {s : State} {b : Byte} (h : s.row = .filterByte b) :
    assembled s = s.y * (1 + rowLen s) + s.rowPos + 1 := by
  simp [assembled, h]

theorem assembled_finishRow {s : State} (h : s.row = .finishRow) : assembled s = s.y * (1 + rowLen s) + s.rowPos := by
  simp [assembled, h]

/-! ## Steps that leave the row assembler alone -/

/-- The row assembler, PIX, the count of bytes and the latched configuration are the same. -/
structure SameRows (s t : State) : Prop where
  latW_eq : t.latW = s.latW
  latH_eq : t.latH = s.latH
  latB_eq : t.latB = s.latB
  produced_eq : t.produced = s.produced
  y_eq : t.y = s.y
  rowPos_eq : t.rowPos = s.rowPos
  row_eq : t.row = s.row
  cur_eq : t.cur = s.cur
  prev_eq : t.prev = s.prev
  pix_eq : t.pix = s.pix

namespace SameRows

variable {s t : State} (h : SameRows s t)
include h

theorem rowLen_eq : rowLen t = rowLen s := by rw [rowLen, rowLen, h.latW_eq, h.latB_eq]

theorem expected_eq : expected t = expected s := by rw [expected, expected, h.latH_eq, h.rowLen_eq]

theorem assembled_eq : assembled t = assembled s := by
  rw [assembled, assembled, h.y_eq, h.rowPos_eq, h.row_eq, h.rowLen_eq]

end SameRows

theorem ReadFrame.rows {s t : State} (h : ReadFrame s t) : SameRows s t := by
  constructor <;> rw [h.eq]

theorem RowsOk.same {s t : State} (hs : RowsOk s) (h : SameRows s t) : RowsOk t := by
  obtain ⟨hwf, hpos, hbuf, hat, hle, hfilter, hdue, hpix⟩ := hs
  refine ⟨?_, ?_, ?_, ?_, ?_, ?_, ?_, ?_⟩ <;>
    simpa only [h.rowLen_eq, h.expected_eq, h.assembled_eq, h.produced_eq, h.y_eq, h.rowPos_eq, h.row_eq, h.cur_eq, h.prev_eq,
      h.pix_eq]

theorem ImageDone.same {s t : State} (hs : ImageDone s) (h : SameRows s t) : ImageDone t := by
  simpa only [ImageDone, h.rowLen_eq, h.y_eq, h.rowPos_eq, h.latH_eq, h.pix_eq] using hs

/-! ## Steps of a row -/

/-- An emitted byte is discarded after the image, or is a filter byte that is due, or fills the next place of the row
(45_controller.md R323, R325). -/
theorem emit_rowsOk {s : State} (hs : RowsOk s) (hr : s.row = .clear) (b : Byte) (g : Stage) :
    RowsOk (emit b { s with stage := g }) := by
  obtain ⟨hwf, hpos, ⟨hcur, hprev⟩, hat, hle, hfilter, hdue, hpix⟩ := hs
  rw [assembled_clear hr] at hat
  have hne : s.rowPos ≠ rowLen s + 1 := fun e => by rw [hdue.mpr e] at hr; cases hr
  rcases rowAccept_cases b (pushWindow b { s with stage := g }) with ⟨hp, e⟩ | ⟨hp, h0, e⟩ | ⟨hp, h0, e⟩ <;> rw [emit, e]
  · replace hp : expected s < s.produced + 1 := hp
    exact ⟨hwf, hpos, ⟨hcur, hprev⟩, (assembled_clear hr).trans
      (show s.y * (1 + rowLen s) + s.rowPos = min (s.produced + 1) (expected s) by omega), hle, hfilter, hdue, hpix⟩
  · replace hp : s.produced + 1 ≤ expected s := hp
    replace h0 : s.rowPos = 0 := h0
    exact ⟨hwf, hpos, ⟨hcur, hprev⟩, (assembled_filterByte rfl).trans
      (show s.y * (1 + rowLen s) + s.rowPos + 1 = min (s.produced + 1) (expected s) by omega), hle, fun _ _ => h0,
      ⟨nofun, fun e => absurd e hne⟩, hpix⟩
  · replace hp : s.produced + 1 ≤ expected s := hp
    have hat' : s.y * (1 + rowLen s) + (s.rowPos + 1) = min (s.produced + 1) (expected s) := by omega
    have hle' : s.rowPos + 1 ≤ rowLen s + 1 := by omega
    have hcur' : (s.cur.set (s.rowPos - 1) b).length = rowLen s := List.length_set.trans hcur
    by_cases hlast : s.rowPos = rowLen s
    · rw [if_pos (show (pushWindow b { s with stage := g }).rowPos = rowLen (pushWindow b { s with stage := g }) from hlast)]
      exact ⟨hwf, hpos, ⟨hcur', hprev⟩, (assembled_finishRow rfl).trans hat', hle', nofun,
        ⟨fun _ => congrArg (· + 1) hlast, fun _ => rfl⟩, hpix⟩
    · rw [if_neg (show ¬ (pushWindow b { s with stage := g }).rowPos = rowLen (pushWindow b { s with stage := g }) from hlast)]
      exact ⟨hwf, hpos, ⟨hcur', hprev⟩, (assembled_clear rfl).trans hat', hle', nofun,
        ⟨nofun, fun e => absurd (Nat.succ.inj e) hlast⟩, hpix⟩

/-- Accepting the filter byte that is due keeps the count of assembled bytes: it was counted when it was emitted. -/
theorem acceptFilter_rowsOk {s : State} (hs : RowsOk s) {b : Byte} (hr : s.row = .filterByte b) (f : FilterType) :
    RowsOk (acceptFilter f s) := by
  obtain ⟨hwf, hpos, hbuf, hat, -, hfilter, -, hpix⟩ := hs
  have h0 := hfilter b hr
  rw [assembled_filterByte hr, h0] at hat
  refine ⟨hwf, hpos, hbuf, (assembled_clear rfl).trans hat, Nat.le_add_left 1 _, nofun, ⟨nofun, fun e => ?_⟩, hpix⟩
  exact absurd (show 1 = rowLen s + 1 from e) (by omega)

/-- The row that `FinishRow` completes is one of the image. -/
theorem RowsOk.y_lt {s : State} (hs : RowsOk s) (hr : s.row = .finishRow) : s.y < s.latH.toNat := by
  have hat := hs.position
  rw [assembled_finishRow hr, hs.rowDue.mp hr, expected] at hat
  have hle : (s.y + 1) * (1 + rowLen s) ≤ s.latH.toNat * (1 + rowLen s) := by rw [Nat.succ_mul]; omega
  exact Nat.le_of_mul_le_mul_right hle (by omega)

/-- `FinishRow` writes the bytes of row Y and begins the next row (45_controller.md R324). -/
theorem finishRow_rowsOk {s : State} (hs : RowsOk s) (hr : s.row = .finishRow) (f : FilterType) :
    RowsOk { s with
      pix := s.pix.writeList (s.y * rowLen s) (rebuiltRow f.pred s), prev := rebuiltRow f.pred s,
      cur := List.replicate (rowLen s) 0, rowPos := 0, y := s.y + 1, row := .clear } := by
  obtain ⟨hwf, hpos, ⟨hcur, -⟩, hat, -, -, hdue, hpix⟩ := hs
  have hlen : (rebuiltRow f.pred s).length = rowLen s := (rebuiltRow_length f.pred s).trans hcur
  rw [assembled_finishRow hr, hdue.mp hr] at hat
  refine ⟨Memory.writeList_wf _ _ _ hwf, hpos, ⟨List.length_replicate, hlen⟩, (assembled_clear rfl).trans ?_, Nat.zero_le _,
    fun _ _ => rfl, ⟨nofun, nofun⟩, fun a => ?_⟩
  · exact (show (s.y + 1) * (1 + rowLen s) + 0 = min s.produced (expected s) by rw [Nat.succ_mul]; omega)
  · show ((s.pix.writeList (s.y * rowLen s) (rebuiltRow f.pred s)).read a).isSome = true ↔ a < (s.y + 1) * rowLen s
    rw [Memory.read_writeList _ _ _ hwf, hlen, Nat.succ_mul]
    split
    · next hin =>
      rw [List.getElem?_eq_getElem (by omega)]
      exact iff_of_true rfl hin.2
    · next hout =>
      rw [hpix a]
      omega

/-- When the bytes of the image have all been assembled, the image is written. -/
theorem RowsOk.imageDone {s : State} (hs : RowsOk s) (hr : s.row = .clear) (hp : expected s ≤ s.produced) : ImageDone s := by
  have hat := hs.position
  have hle := hs.rowPos_le
  have hne : s.rowPos ≠ rowLen s + 1 := fun e => by rw [hs.rowDue.mpr e] at hr; cases hr
  rw [assembled_clear hr, Nat.min_eq_right hp, expected] at hat
  have hy : s.y = s.latH.toNat := by
    have hdiv := congrArg (· / (1 + rowLen s)) hat
    simp only [Nat.mul_comm _ (1 + rowLen s)] at hdiv
    rwa [Nat.mul_add_div (by omega), Nat.div_eq_of_lt (by omega : s.rowPos < 1 + rowLen s), Nat.add_zero,
      Nat.mul_div_cancel_left _ (by omega)] at hdiv
  rw [hy] at hat
  exact ⟨hy, by omega, fun a => hy ▸ hs.pixRows a⟩

/-! ## A step -/

theorem ExecNext.rowsOk {s u t : State} {i : Instr} (h : ExecNext u i t) (hu : RowsOk u) (hi : InstrSource s i u)
    (hne : t.phase ≠ .error) : RowsOk t := by
  cases h with
  | lit v => exact emit_rowsOk hu (hi.frame.row_eq.trans hi.lit) v u.stage
  | accept f hr =>
    obtain ⟨rfl, ⟨b, hb⟩ | hf⟩ := hi.filterType
    · exact acceptFilter_rowsOk hu hb f
    · exact absurd hf hr
  | finishRow f hr => exact finishRow_rowsOk hu hr f
  | clRun i r v => exact hu.same (by constructor <;> simp)
  | error => exact absurd rfl hne
  | _ => exact hu.same (by constructor <;> rfl)

/-- No instruction completes the decode. -/
theorem ExecNext.not_complete {i : Instr} {s t : State} (h : ExecNext s i t) (hs : s.phase ≠ .complete) : t.phase ≠ .complete := by
  cases h with
  | blockType i p hp => rcases hp with ⟨-, rfl⟩ | ⟨-, rfl⟩ | ⟨-, rfl⟩ <;> nofun
  | storedEmpty | eob => rw [endOfBlock_phase]; split <;> nofun
  | lit | clRun => simpa using hs
  | error => nofun
  | _ => exact hs

theorem MicroNext.rowsOk {m : Micro} {s t : State} (h : MicroNext s m t) (hs : RowsOk s) (hr : s.row = .clear)
    (hne : t.phase ≠ .error) : RowsOk t := by
  cases h with
  | raw b u hf => exact emit_rowsOk (hs.same hf.rows) (hf.row_eq.trans hr) b .rawNext
  | copied left d b => exact emit_rowsOk hs hr b _
  | rawFailed | truncated => exact absurd rfl hne
  | _ => exact hs.same (by constructor <;> rfl)

/-- The only rule that completes the decode is the completion check, which finds all bytes of the image produced
(45_controller.md R326). -/
theorem MicroNext.complete_produced {m : Micro} {s t : State} (h : MicroNext s m t) (hs : s.phase ≠ .complete)
    (ht : t.phase = .complete) : expected t ≤ t.produced ∧ t.row = s.row := by
  cases h with
  | complete hp => exact ⟨hp, rfl⟩
  | selectFixed | buildTables | rawFailed | truncated => cases ht
  | raw b u hf => exact absurd (by simpa [hf.phase_eq] using ht) hs
  | copied => exact absurd (by simpa using ht) hs
  | rawLast => rw [endOfBlock_phase] at ht; split at ht <;> cases ht
  | buildCl | rawMore | copyDone => exact absurd ht hs

/-- The rows after a CORE step of a running decode, unless it raises an error. -/
structure RowsNext (t : State) : Prop where
  rows : t.phase ≠ .error → RowsOk t
  done : t.phase = .complete → ImageDone t

theorem RowsNext.of_running {t : State} (h : t.phase ≠ .error → RowsOk t) (hc : t.phase ≠ .complete) : RowsNext t :=
  ⟨h, fun e => absurd e hc⟩

theorem busy_ne_complete {s : State} (h : s.phase.busy = true) : s.phase ≠ .complete := by
  intro e
  rw [e] at h
  cases h

theorem coreStep_rowsNext {s t : State} (hs : RowsOk s) (hb : s.phase.busy = true) (h : coreStep s = .next t) : RowsNext t := by
  have hc := busy_ne_complete hb
  refine coreStep_preserves (P := RowsNext) ?read ?exec ?micro ?raised (.of_running (fun _ => hs) hc) h
  case read =>
    intro c _
    have hf := fetch_frame c s
    exact .of_running (fun _ => hs.same hf.rows) (hf.phase_eq ▸ hc)
  case exec =>
    intro i u hu hx hi
    have hph := (InstrSource.frame hi).phase_eq
    exact .of_running (fun hne => hx.rowsOk (hu.rows (hph ▸ busy_ne_error hb)) hi hne) (hx.not_complete (hph ▸ hc))
  case micro =>
    intro m hn hm
    have hr := (nextOp_micro hn).2.1
    have hrows := fun hne => hm.rowsOk hs hr hne
    refine ⟨hrows, fun ht => ?_⟩
    obtain ⟨hp, e⟩ := hm.complete_produced hc ht
    exact (hrows (by rw [ht]; nofun)).imageDone (e.trans hr) hp
  case raised =>
    rintro e u - rfl -
    exact ⟨fun hne => absurd rfl hne, nofun⟩

theorem coreStep_rowInv {s t : State} (hw : Memory.wf s.pix) (hs : RowInv s) (h : coreStep s = .next t) : RowInv t := by
  by_cases hb : s.phase.busy = true
  · obtain ⟨hrows, hdone⟩ := coreStep_rowsNext (hs.rowsOk hw hb) hb h
    exact .of_rowsOk (fun ht => hrows (busy_ne_error ht)) hdone
  · rw [coreStep_not_busy s (Bool.eq_false_of_not_eq_true hb)] at h
    cases h
    exact hs

/-- A configuration that passes the check has rows of at least one byte (45_controller.md R321). -/
theorem configOk_rowLen_pos {s : State} (h : configOk s = true) : 1 ≤ s.cfgWidth.toNat * s.cfgBpp.toNat := by
  simp only [configOk, Bool.and_eq_true, decide_eq_true_eq] at h
  obtain ⟨⟨⟨⟨hw, -⟩, hb⟩, -⟩, -⟩ := h
  exact Nat.mul_pos (Nat.pos_of_ne_zero fun e => hw (BitVec.eq_of_toNat_eq e)) hb

theorem startDecode_rowsOk {s : State} (h : configOk s = true) : RowsOk (startDecode s) where
  pixWf := List.Pairwise.nil
  rowLen_pos := configOk_rowLen_pos h
  buffers := ⟨List.length_replicate, List.length_replicate⟩
  position := by simp [assembled]
  rowPos_le := Nat.zero_le _
  filterDue := nofun
  rowDue := ⟨nofun, nofun⟩
  pixRows a := by simp

theorem RowInv.same {s t : State} (hs : RowInv s) (h : SameRows s t) (hw : Memory.wf s.pix) (hp : t.phase = s.phase) : RowInv t :=
  .of_rowsOk (fun hb => (hs.rowsOk hw (hp ▸ hb)).same h) fun hc => ImageDone.same (hs.imageDone (hp.symm.trans hc)) h

theorem RowInv.hostShape {s t : State} {o : Host.Outcome State Fault Refusal} (hw : Memory.wf s.pix) (hs : RowInv s)
    (h : HostShape s o) (ho : o = .next t) : RowInv t := by
  cases h <;> cases ho
  case reset | startFailed => exact .of_rowsOk nofun nofun
  case started hb hc => exact .of_rowsOk (fun _ => startDecode_rowsOk hc) nofun
  all_goals exact hs.same (by constructor <;> rfl) hw rfl

/-- Settles O58: each step of the row assembler keeps the count of bytes, FinishRow writes exactly the next row, and the completion
check finds the last row written. -/
theorem rowsFollowProduced : Obligations.RowsFollowProduced := by
  intro s t hm hs h
  have hs' := fun rest => hs.same (t := { s with host := rest }) (by constructor <;> rfl) hm.pixWf rfl
  rcases step_shape s with ⟨rest, e⟩ | ⟨m, rest, e⟩
  · exact coreStep_rowInv (s := { s with host := rest }) hm.pixWf (hs' rest) (e ▸ h)
  · exact RowInv.hostShape (s := { s with host := rest }) hm.pixWf (hs' rest) (hostMove_shape m _) (e ▸ h)

end Sys2Proof.Machine
end
section
/-! SUPPORT. Every step of a state that keeps the invariants has a next state: the statement CoreNeverStops. -/

namespace Sys2Proof

/-! ## Every symbol of an alphabet has an instruction -/

theorem clInstr_isSome {sym : Nat} (h : sym < nCL) (x : Nat) : ∃ i, clInstr sym x = some i := by
  simp only [nCL] at h
  unfold clInstr
  split
  · exact ⟨_, rfl⟩
  · obtain rfl | rfl | rfl : sym = 16 ∨ sym = 17 ∨ sym = 18 := by omega
    all_goals exact ⟨_, rfl⟩

theorem llInstr_isSome {sym : Nat} (h : sym < nLL) (x : Nat) : ∃ i, llInstr sym x = some i := by
  simp only [nLL] at h
  by_cases hlit : sym < 256
  · exact ⟨_, if_pos hlit⟩
  · interval_cases sym <;> exact ⟨_, rfl⟩

theorem distInstr_isSome {sym : Nat} (h : sym < nD) (x : Nat) : ∃ i, distInstr sym x = some i := by
  simp only [nD] at h
  interval_cases sym <;> exact ⟨_, rfl⟩

namespace Machine

/-! ## Reads with IN written -/

/-- A read that only the input stops: it answers, with IN written still, or it raises EndOfInput or InvalidHuffmanCode. -/
def ReadsOn {α : Type} : Rd State α → Prop
  | .ok _ t => InWritten t
  | .err e _ => e = .endOfInput ∨ e = .noCode

theorem ReadsOn.bind {α β : Type} {r : Rd State α} {k : α → State → Rd State β} (hr : ReadsOn r)
    (hk : ∀ a t, r = .ok a t → InWritten t → ReadsOn (k a t)) : ReadsOn (r.bind k) := by
  cases r with
  | ok a t => exact hk a t rfl hr
  | err e t => exact hr

theorem readBit_readsOn {s : State} (hw : InWritten s) : ReadsOn (readBit s) := by
  rcases readBit_cases s with ⟨-, -, e⟩ | ⟨-, h1, h2, -⟩ | ⟨b, -, -, -, e⟩ | ⟨-, e⟩
  · rw [e]; exact .inl rfl
  · exact absurd (hw _ h1) (by simp [h2])
  · rw [e]; exact hw
  · rw [e]; exact hw

theorem readBits_readsOn (n : Nat) {s : State} (hw : InWritten s) : ReadsOn (readBits stateSource n s) := by
  induction n generalizing s with
  | zero => exact hw
  | succ n ih => exact (readBit_readsOn hw).bind fun b t _ ht => (ih ht).bind fun v u _ hu => hu

theorem huffLoop_readsOn (T : Table) (n l v : Nat) {s : State} (hw : InWritten s) :
    ReadsOn (huffLoop stateSource T n l v s) := by
  induction n generalizing l v s with
  | zero => exact .inr rfl
  | succ n ih =>
    refine (readBit_readsOn hw).bind fun b t _ ht => ?_
    split
    · exact ht
    · exact ih _ _ ht

theorem readClLengths_readsOn (n k : Nat) {s : State} (hw : InWritten s) : ReadsOn (readClLengths stateSource n k s) := by
  induction n generalizing k s with
  | zero => exact hw
  | succ n ih =>
    exact (readBits_readsOn 3 hw).bind fun v t _ ht =>
      (ih (k + 1) (latchField_inWritten (.clLen k v) t ht)).bind fun vs u _ hu => hu

/-- The symbols of the context's table are in its alphabet (43_symbols_lz77.md R200). -/
def SymbolsIn : Ctx → Prop
  | .cl T _ => T.symbolsBelow nCL
  | .ll T => T.symbolsBelow nLL
  | .dist T => T.symbolsBelow nD
  | .blockHeader | .btype | .stored | .dynamic | .clLengths _ | .filter => True

/-- The extra bits of a symbol of the alphabet are all that can stop its token. -/
theorem symbol_readsOn {f : Nat → Nat → Option Instr} {sym : Nat} (hf : ∀ x, ∃ i, f sym x = some i) (n : Nat) {s : State}
    (hw : InWritten s) : ReadsOn ((readBits stateSource n s).bind fun x t => symbolInstr (f sym x) t) := by
  refine (readBits_readsOn n hw).bind fun x t _ ht => ?_
  obtain ⟨i, e⟩ := hf x
  rw [e]
  exact ht

theorem huffDecode_below {T : Table} {n sym : Nat} {s t : State} (hT : T.symbolsBelow n)
    (h : huffDecode stateSource T s = .ok sym t) : sym < n := by
  obtain ⟨e, he, rfl⟩ := huffDecode_symbol h
  exact hT e he

theorem fetch_readsOn {c : Ctx} (hc : SymbolsIn c) {s : State} (hw : InWritten s) : ReadsOn (fetch c s) := by
  have rb := fun n {s : State} (hw : InWritten s) => readBits_readsOn n hw
  have huff := fun T => huffLoop_readsOn T T.maxL 1 0 hw
  cases c with
  | blockHeader => exact (rb 1 hw).bind fun _ t _ ht => (rb 2 ht).bind fun _ u _ hu => hu
  | btype => exact (rb 2 hw).bind fun _ t _ ht => ht
  | stored => exact (rb 16 (s := byteAlign s) hw).bind fun _ t _ ht => (rb 16 ht).bind fun _ u _ hu => hu
  | dynamic =>
    exact (rb 5 hw).bind fun a t _ ht => (rb 5 (latchField_inWritten (.hlit (a + 257)) t ht)).bind fun d u _ hu =>
      (rb 4 (latchField_inWritten (.hdist (d + 1)) u hu)).bind fun n v _ hv => latchField_inWritten (.hclen (n + 4)) v hv
  | clLengths n => exact (readClLengths_readsOn n 0 (latchField_inWritten .clClear s hw)).bind fun _ t _ ht => ht
  | cl T p =>
    refine (huff T).bind fun sym t e ht => ?_
    split
    · exact ht
    · exact symbol_readsOn (clInstr_isSome (huffDecode_below hc e)) _ ht
  | ll T => exact (huff T).bind fun sym t e ht => symbol_readsOn (llInstr_isSome (huffDecode_below hc e)) _ ht
  | dist T => exact (huff T).bind fun sym t e ht => symbol_readsOn (distInstr_isSome (huffDecode_below hc e)) _ ht
  | filter => exact (rb 8 hw).bind fun _ t _ ht => ht

/-! ## A step -/

/-- The step gives a next state. -/
def Goes (o : Host.Outcome State Fault Refusal) : Prop := ∃ t, o = .next t

theorem reject_goes {e : Reject} (h : e = .endOfInput ∨ e = .noCode) (s : State) : Goes (reject e s) := by
  rcases h with rfl | rfl <;> exact ⟨_, rfl⟩

/-- Every instruction but a filter type's has a next state. -/
theorem exec_goes {i : Instr} (h : ∀ f : FilterType, i ≠ f.instr) (s : State) : Goes (exec i s) := by
  have hsh := exec_shape i s
  generalize exec i s = o at hsh
  cases hsh with
  | storedHeader len nlen => rcases storedHeader_cases len nlen s with ⟨-, e⟩ | ⟨-, -, e⟩ | ⟨-, -, e⟩ <;> exact ⟨_, e⟩
  | clRep x => rcases execClRep_cases x s with e | ⟨-, -, e⟩ <;> exact ⟨_, e⟩
  | clZ3 x => rcases runLens_cases (3 + x.toNat) 0 s with ⟨-, e⟩ | ⟨-, e⟩ <;> exact ⟨_, e⟩
  | clZ11 x => rcases runLens_cases (11 + x.toNat) 0 s with ⟨-, e⟩ | ⟨-, e⟩ <;> exact ⟨_, e⟩
  | distance i d => rcases distToken_cases d s with ⟨-, e⟩ | ⟨-, e⟩ <;> exact ⟨_, e⟩
  | filter f => exact absurd rfl (h f)
  | _ => exact ⟨_, rfl⟩

/-- A filter type has a next state where a complete row is one of the image. -/
theorem filterType_goes (f : FilterType) {s : State} (h : s.row = .finishRow → s.y < s.latH.toNat) : Goes (exec f.instr s) := by
  rw [filterType_exec]
  rcases filterRow_cases f f.pred s with ⟨-, e⟩ | ⟨hr, hy, -⟩ | ⟨-, -, e⟩
  · exact ⟨_, e⟩
  · exact absurd (h hr) (Nat.not_lt.mpr hy)
  · exact ⟨_, e⟩

/-- The window cell at a distance within bounds is one of the bytes produced (20_memory.md R89). -/
theorem winRead_isSome {s : State} (hs : WindowInv s) {d : Nat} (h1 : 1 ≤ d) (hw : d ≤ wsize) (hp : d ≤ s.produced) :
    (winRead d s).isSome = true := by
  have hidx : winIndex d s = (s.produced - d) % wsize := by
    simp only [winIndex, BitVec.toNat_sub, BitVec.toNat_ofNat, hs.wpos_eq, wsize] at *
    omega
  rw [winRead, hidx]
  simp only [wsize] at *
  exact hs.written _ (by omega) (by simp only [wsize]; omega)

theorem copyByte_goes {s : State} (hs : WindowInv s) : Goes (copyByte s) := by
  rcases copyByte_cases s with ⟨left, d, b, -, -, e⟩ | ⟨left, d, hst, hn, -⟩ | e
  · exact ⟨_, e⟩
  · obtain ⟨h1, hw, hp⟩ := hs.copy_bounds _ _ hst
    exact absurd (winRead_isSome hs h1 hw hp) (by simp [hn])
  · exact ⟨_, e⟩

theorem rawByte_goes {s : State} (hw : InWritten s) : Goes (rawByte s) := by
  have hread := readBits_readsOn 8 hw
  rcases rawByte_cases s with ⟨b, t, -, e⟩ | ⟨e, t, hr, he⟩
  · exact ⟨_, e⟩
  · rw [hr] at hread
    exact he ▸ reject_goes hread t

theorem microStep_goes {s : State} (hs : WindowInv s) (hw : InWritten s) (m : Micro) : Goes (microStep m s) := by
  cases m with
  | rawByte => exact rawByte_goes hw
  | copyByte => exact copyByte_goes hs
  | _ => exact ⟨_, rfl⟩

/-- The tables of the tokens that are fetched keep to their alphabets. -/
theorem phaseOp_symbolsIn {s : State} (hs : TableInv s) {c : Ctx} (h : phaseOp s = .fetch c) : SymbolsIn c := by
  obtain ⟨hLL, hD, hCL⟩ := hs.symbols
  rcases phaseOp_fetch h with ⟨-, rfl⟩ | ⟨-, rfl⟩ | ⟨-, rfl⟩ | ⟨-, -, rfl⟩ | ⟨-, -, -, rfl⟩ | ⟨-, -, rfl⟩ | ⟨-, rfl⟩
  · trivial
  · trivial
  · trivial
  · trivial
  · exact hCL
  · exact hD
  · exact hLL

/-- An instruction that is selected without a token has a next state. -/
theorem run_goes {s : State} (hs : RowInv s) (hw : Memory.wf s.pix) {i : Instr} (h : nextOp s = .run i) : Goes (exec i s) := by
  obtain ⟨hb, ⟨b, hr, rfl⟩ | ⟨hr, rfl⟩ | ⟨-, -, -, rfl⟩⟩ := nextOp_run h
  · rcases filterInstr_shape b s with ⟨f, e⟩ | e
    · exact e ▸ filterType_goes f fun hf => absurd (hr.symm.trans hf) nofun
    · exact ⟨_, e⟩
  · exact filterType_goes s.curF (hs.rowsOk hw hb).y_lt
  · exact exec_goes (btypeInstr_ne_filterType _) s

/-- Settles O59: each fault has a check that the invariants or the written input exclude, and the CORE refuses nothing. -/
theorem coreNeverStops : Obligations.CoreNeverStops := by
  intro s hs hw
  have hsh := coreStep_shape s
  generalize coreStep s = o at hsh
  cases hsh with
  | idle => exact ⟨s, rfl⟩
  | run i h => exact run_goes hs.rows hs.mem.pixWf h
  | micro m => exact microStep_goes hs.window hw m
  | token c i t h hf => exact exec_goes (fetch_ne_filterType h hf) t
  | failed c e t h hf =>
    have hread := fetch_readsOn (phaseOp_symbolsIn hs.tables (nextOp_fetch h).2.2) hw
    rw [hf] at hread
    exact reject_goes hread t

end Machine

end Sys2Proof
end
section
/-! SUPPORT. Who writes what among the instructions, the host's register writes, STATUS and the state after reset: the statements
OnlyTheseInstructionsWrite, HostRegisterWrites, StatusFields and InvAtReset. -/

namespace Sys2Proof.Machine

/-! ## Who writes what -/

theorem ExecNext.writes_header {i : Instr} {s t : State} (h : ExecNext s i t) :
    (t.bfinal = s.bfinal ∧ t.btype = s.btype) ∨ ∃ f y, i = .blockHeader f y := by
  cases h with
  | header f y => exact .inr ⟨f, y, rfl⟩
  | lit | clRun => exact .inl (by simp)
  | _ => exact .inl ⟨rfl, rfl⟩

theorem ExecNext.writes_window {i : Instr} {s t : State} (h : ExecNext s i t) :
    (t.win = s.win ∧ t.wpos = s.wpos ∧ t.produced = s.produced) ∨ ∃ v, i = .lit v := by
  cases h with
  | lit v => exact .inr ⟨v, rfl⟩
  | clRun => exact .inl (by simp)
  | _ => exact .inl ⟨rfl, rfl, rfl⟩

theorem ExecNext.writes_rows {i : Instr} {s t : State} (h : ExecNext s i t) :
    (t.pix = s.pix ∧ t.prev = s.prev ∧ t.y = s.y) ∨ s.row = .finishRow ∧ ∃ f : FilterType, i = f.instr := by
  cases h with
  | finishRow f hr => exact .inr ⟨hr, f, rfl⟩
  | lit | clRun => exact .inl (by simp)
  | _ => exact .inl ⟨rfl, rfl, rfl⟩

theorem ExecNext.keeps_tables {i : Instr} {s t : State} (h : ExecNext s i t) :
    t.tLL = s.tLL ∧ t.tD = s.tD ∧ t.tCL = s.tCL ∧ t.llLens = s.llLens ∧ t.dLens = s.dLens := by
  cases h with
  | lit | clRun => simp
  | _ => exact ⟨rfl, rfl, rfl, rfl, rfl⟩

/-- Settles O49, clause by clause from what each instruction's next state can be. -/
theorem onlyTheseInstructionsWrite : Obligations.OnlyTheseInstructionsWrite := by
  intro i s t h
  have hx := exec_next h
  obtain ⟨-, hpos, hcur, hcnt, -⟩ := hx.reader
  obtain ⟨h1, h2, h3, h4, h5, h6, h7, h8, h9, h10, h11⟩ := hx.hostState
  refine ⟨fun hne => ?_, fun hne => ?_, fun hne => ?_, hx.keeps_tables, ⟨hpos, hcur, hcnt⟩, h1, h2, h3, h4, h5, h6, h7, h8, h9, h10,
    h11⟩
  · exact hx.writes_header.resolve_left fun ⟨e1, e2⟩ => hne.elim (· e1) (· e2)
  · exact hx.writes_window.resolve_left fun ⟨e1, e2, e3⟩ => hne.elim (· e1) (·.elim (· e2) (· e3))
  · exact hx.writes_rows.resolve_left fun ⟨e1, e2, e3⟩ => hne.elim (· e1) (·.elim (· e2) (· e3))

/-! ## The host's register writes -/

theorem writeReg_busy {s : State} (hb : s.phase.busy = true) {r : Reg} (hr : r ≠ .ctrl) (v : Reg32) : writeReg r v s = s := by
  cases r with
  | ctrl => exact absurd rfl hr
  | cfgWidth | cfgHeight | cfgBpp => exact if_pos hb
  | _ => rfl

theorem writeCtrl_reset {v : Reg32} (hv : v.getLsbD 1 = true) (s : State) : writeCtrl v s = resetCore s := if_pos hv

theorem writeCtrl_busy {v : Reg32} (hv : v.getLsbD 1 = false) {s : State} (hb : s.phase.busy = true) : writeCtrl v s = s := by
  simp only [writeCtrl, hv, hb, Bool.false_eq_true, if_false, if_true, ite_self]

theorem writeCtrl_reserved {v : Reg32} (h0 : v.getLsbD 0 = false) (h1 : v.getLsbD 1 = false) (s : State) : writeCtrl v s = s := by
  simp only [writeCtrl, h0, h1, Bool.false_eq_true, if_false]

theorem writeReg_cfg {s : State} (hb : s.phase.busy = false) (v : Reg32) :
    writeReg .cfgWidth v s = { s with cfgWidth := v } ∧ writeReg .cfgHeight v s = { s with cfgHeight := v }
      ∧ writeReg .cfgBpp v s = { s with cfgBpp := BitVec.ofNat 3 v.toNat } := by
  have hn : ¬ s.phase.busy = true := Bool.eq_false_iff.mp hb
  exact ⟨if_neg hn, if_neg hn, if_neg hn⟩

theorem step_hostMove {s : State} {m : HostMove} {rest : List HostEvent} (h : s.host = ⟨0, m⟩ :: rest) :
    step s = hostMove m { s with host := rest } := by
  simp only [step, agentStep, h]

theorem step_wait {s : State} {n : Nat} {m : HostMove} {rest : List HostEvent} (h : s.host = ⟨n + 1, m⟩ :: rest) :
    step s = coreStep { s with host := ⟨n, m⟩ :: rest } := by
  simp only [step, agentStep, h]

theorem regAt_some {p : Params} {a : Nat} {r : Reg} (h : regAt p a = some r) : a = regAddr p r := by
  have := List.find?_some h
  exact (beq_iff_eq.mp this).symm

theorem regAt_none {p : Params} {a : Nat} : regAt p a = none ↔ ∀ r, regAddr p r ≠ a := by
  have hall : ∀ r : Reg, r ∈ allRegs := fun r => by cases r <;> decide
  simp only [regAt, List.find?_eq_none, beq_iff_eq]
  exact ⟨fun h r => h r (hall r), fun h r _ => h r⟩

/-- Settles O41, from the register file's equations and the step's: whose turn it is, and which register is at an address. -/
theorem hostRegisterWrites : Obligations.HostRegisterWrites := by
  refine ⟨fun s v => ⟨fun hb r hr => writeReg_busy hb hr v, fun hb hv => writeCtrl_busy hv hb, fun hb => writeReg_cfg hb v, ?_,
    fun h0 h1 => writeCtrl_reserved h0 h1 s, fun hv => writeCtrl_reset hv s, rfl⟩, fun _ _ _ => step_hostMove,
    fun _ _ _ _ => step_wait, fun _ _ _ _ => step_hostMove, fun s a v rest h => ?_, fun p a => ?_⟩
  · rintro r (rfl | rfl | rfl | rfl | rfl | rfl) <;> rfl
  · have hstep := step_hostMove h
    exact ⟨fun r hr => by simp only [hstep, hostMove, atRegister, hr], fun hr => by simp only [hstep, hostMove, atRegister, hr]⟩
  · exact ⟨fun _ => regAt_some, regAt_none, regAt_regAddr, fun r => by cases r <;> rfl⟩

/-! ## STATUS -/

/-- Settles O43, phase by phase. -/
theorem statusFields : Obligations.StatusFields := by
  intro s
  refine ⟨?_, ?_, ?_, ?_, ?_, rfl, rfl, rfl, rfl, rfl, rfl, rfl, rfl, rfl⟩
  all_goals
    unfold statusWord
    cases s.phase <;> decide

/-! ## The state after reset -/

/-- Settles O51: nothing is running, and every count, array and memory is empty or zero. -/
theorem invAtReset : Obligations.InvAtReset where
  left :=
    { mem := ⟨List.Pairwise.nil, List.Pairwise.nil, List.Pairwise.nil⟩
      reader := ⟨Nat.zero_le _, by decide, nofun, Nat.zero_le _, Nat.zero_le _⟩
      window := (emptyWindow_ok rfl rfl rfl rfl).2
      errors := ⟨fun _ => ⟨rfl, rfl, rfl⟩, nofun⟩
      tables := reset_tableInv
      config := ⟨nofun, nofun⟩
      rows := .of_rowsOk nofun nofun }
  right := fun a ha => absurd ha (Nat.not_lt_zero a)

end Sys2Proof.Machine
end
section
/-! SUPPORT. The three byte memories and the host's state over a step, and the host's moves on the memories: the statements
MemoriesStayCanonical, CoreKeepsHostState and HostMemoryMoves. -/

namespace Sys2Proof.Machine

/-! ## The canonical form of the memories -/

theorem MemInv.same {s t : State} (hs : MemInv s) (hin : t.inMem = s.inMem) (hwin : t.win = s.win) (hpix : t.pix = s.pix) :
    MemInv t :=
  ⟨hin ▸ hs.inWf, hwin ▸ hs.winWf, hpix ▸ hs.pixWf⟩

theorem ReadFrame.memInv {s t : State} (h : ReadFrame s t) (hs : MemInv s) : MemInv t :=
  hs.same (by rw [h.eq]) (by rw [h.eq]) (by rw [h.eq])

theorem raise_memInv (e : ErrCode) {s : State} (hs : MemInv s) : MemInv (raise e s) := hs.same rfl rfl rfl

/-- Emitting a byte writes one cell of the window (20_memory.md R88). -/
theorem emit_memInv (b : Byte) (g : Stage) {s : State} (hs : MemInv s) : MemInv (emit b { s with stage := g }) where
  inWf := by simpa using hs.inWf
  winWf := by simpa using Memory.write_wf s.win _ b hs.winWf
  pixWf := by simpa using hs.pixWf

/-- Among the instructions a literal writes the window, and a filter type that finishes a row writes PIX. -/
theorem ExecNext.memInv {i : Instr} {s t : State} (h : ExecNext s i t) (hs : MemInv s) : MemInv t := by
  cases h with
  | lit v => exact emit_memInv v s.stage hs
  | finishRow f => exact ⟨hs.inWf, hs.winWf, Memory.writeList_wf _ _ _ hs.pixWf⟩
  | clRun i r v => exact hs.same (by simp) (by simp) (by simp)
  | _ => exact hs.same rfl rfl rfl

/-- Among the rules between tokens a stored byte and a copied byte write the window. -/
theorem MicroNext.memInv {m : Micro} {s t : State} (h : MicroNext s m t) (hs : MemInv s) : MemInv t := by
  cases h with
  | raw b u hf => exact emit_memInv b .rawNext (hf.memInv hs)
  | rawFailed e u hf => exact raise_memInv e (hf.memInv hs)
  | copied left d b => exact emit_memInv b _ hs
  | _ => exact hs.same rfl rfl rfl

theorem coreStep_memInv {s t : State} (hs : MemInv s) (h : coreStep s = .next t) : MemInv t :=
  coreStep_preserves (P := MemInv) (fun c _ => (fetch_frame c s).memInv hs) (fun _ _ hu hx _ => hx.memInv hu)
    (fun _ _ hm => hm.memInv hs) (fun e _ hu ht _ => ht ▸ raise_memInv e hu) hs h

/-- RESET and START empty the window and PIX, and the host writes one byte of IN at a time. -/
theorem MemInv.hostShape {s t : State} {o : Host.Outcome State Fault Refusal} (hs : MemInv s) (h : HostShape s o)
    (ho : o = .next t) : MemInv t := by
  cases h <;> cases ho
  case reset | started => exact ⟨hs.inWf, List.Pairwise.nil, List.Pairwise.nil⟩
  case input a b _ => exact ⟨Memory.write_wf s.inMem a b hs.inWf, hs.winWf, hs.pixWf⟩
  all_goals exact hs.same rfl rfl rfl

/-- Settles O52: every write of a byte keeps the addresses rising, and every other change of a memory empties it. -/
theorem memoriesStayCanonical : Obligations.MemoriesStayCanonical := fun _ _ =>
  step_preserves (P := MemInv) (fun _ _ hs => hs.same rfl rfl rfl) (fun _ _ _ => MemInv.hostShape) fun _ _ => coreStep_memInv

/-! ## What a CORE step leaves alone -/

/-- A CORE step writes the error registers only by raising an error (60_exceptions.md R411). -/
theorem coreStep_errors {s t : State} (h : coreStep s = .next t) : SameErrors s t ∨ ∃ e u, e ≠ .none ∧ t = raise e u :=
  coreStep_preserves (P := fun t => SameErrors s t ∨ ∃ e u, e ≠ .none ∧ t = raise e u)
    (fun c _ => .inl (fetch_frame c s).errors)
    (fun _ u _ hx hi => hx.errors.imp (InstrSource.frame hi).errors.trans fun ⟨e, he, ht⟩ => ⟨e, u, he, ht⟩)
    (fun _ _ hm => hm.errors) (fun e u _ ht he => .inr ⟨e, u, he, ht⟩) (.inl ⟨rfl, rfl, rfl, id⟩) h

/-- Settles O50: no instruction and no rule writes the host's state, and the error registers change by a raise, which enters
ERROR. -/
theorem coreKeepsHostState : Obligations.CoreKeepsHostState := by
  intro s t h
  obtain ⟨h1, h2, h3, h4, h5, h6, h7, h8, h9, h10, h11⟩ := coreStep_hostState h
  refine ⟨⟨h1, h2, h3, h4, h5, h6, h7, h8, h9, h10, h11⟩, fun hne => ?_⟩
  rcases coreStep_errors h with hsame | ⟨e, u, -, rfl⟩
  · exact ⟨hsame.errCode_eq, hsame.errByte_eq, hsame.errBit_eq⟩
  · exact absurd (raise_phase e u) hne

/-! ## The host's moves on the memories -/

theorem hostMove_readPix_complete {s : State} (hc : s.phase = .complete) {a : Nat} {b : Byte} (hr : s.pix.read a = some b) :
    hostMove (.readPix a) s = .next { s with rdata := b.toNat } := by
  rw [hostMove, hostReadPix, if_pos hc, hr]

theorem hostMove_readPix_not_complete {s : State} (hc : s.phase ≠ .complete) (a : Nat) :
    hostMove (.readPix a) s = .fault .pixNotReadable :=
  if_neg hc

/-- Settles O45: a write of IN or IN_LEN asks whether the CORE is busy, and a read of PIX whether it is in COMPLETE. -/
theorem hostMemoryMoves : Obligations.HostMemoryMoves := by
  intro s
  have idle (hb : s.phase.busy = false) : ¬ s.phase.busy = true := Bool.eq_false_iff.mp hb
  exact ⟨fun _ _ hb => if_neg (idle hb), fun _ hb => if_neg (idle hb), fun _ _ hb => if_pos hb, fun _ hb => if_pos hb,
    fun _ _ hc hr => hostMove_readPix_complete hc hr, fun a hc => hostMove_readPix_not_complete hc a⟩

end Sys2Proof.Machine
end
section
/-! SUPPORT. The encoding of each token and the decoder on a list of bits, as inverses of each other, with the statements
DecodeEncode and DecodeLosesNothing. -/

namespace Sys2Proof

/-! ## Fields as bits -/

/-- Only the low `n` bits of a value are in its field. -/
theorem bitsLsb_mod (n v : Nat) : bitsLsb n (v % 2 ^ n) = bitsLsb n v := by
  induction n generalizing v with
  | zero => rfl
  | succ n ih =>
    have hlow : v % 2 ^ (n + 1) % 2 = v % 2 := Nat.mod_mod_of_dvd v (dvd_pow_self 2 n.succ_ne_zero)
    have hhigh : v % 2 ^ (n + 1) / 2 = v / 2 % 2 ^ n := by rw [Nat.pow_succ', Nat.mod_mul_right_div_self]
    rw [bitsLsb, bitsLsb, hlow, hhigh, ih]

theorem bitsLsb_ofNat (n v : Nat) : bitsLsb n (BitVec.ofNat n v).toNat = bitsLsb n v := by
  rw [BitVec.toNat_ofNat, bitsLsb_mod]

theorem symbolBits_ofNat (T : Table) (sym n x : Nat) :
    symbolBits T sym n (BitVec.ofNat n x).toNat = symbolBits T sym n x := by
  rw [symbolBits, symbolBits, bitsLsb_ofNat]

@[simp] theorem readBits_bitVec {n : Nat} (v : BitVec n) (rest : List Bool) :
    readBits listSource n (bitsLsb n v.toNat ++ rest) = .ok v.toNat rest := by
  rw [readBits_bitsLsb, Nat.mod_eq_of_lt v.isLt]

/-- A field that was read is the field's bits. -/
theorem readBits_list_ok {n v : Nat} {bits rest : List Bool} (h : readBits listSource n bits = .ok v rest) :
    bits = bitsLsb n v ++ rest := by
  induction n generalizing v bits with
  | zero => cases h; rfl
  | succ n ih =>
    cases bits with
    | nil => cases h
    | cons b bits =>
      rw [readBits, listSource_bit_cons, Rd.bind_ok, Rd.bind_eq_ok] at h
      obtain ⟨w, s, hw, he⟩ := h
      cases he
      have hbit : ((b.toNat + 2 * w) % 2 == 1) = b := by cases b <;> simp
      have hdiv : (b.toNat + 2 * w) / 2 = w := by have := b.toNat_le; omega
      rw [bitsLsb, hbit, hdiv, ih hw, List.cons_append]

/-! ## Codes as bits -/

/-- The decoder reads a symbol's code back. -/
theorem huffDecode_codeBits {T : Table} (hT : PrefixFree T) {sym : Nat} {code : List Bool} (h : T.codeBits sym = some code)
    (rest : List Bool) : huffDecode listSource T (code ++ rest) = .ok sym rest := by
  rw [Table.codeBits, Option.map_eq_some_iff] at h
  obtain ⟨e, he, rfl⟩ := h
  have hmem := List.mem_of_find?_eq_some he
  have hsym : e.sym = sym := by simpa using List.find?_some he
  obtain ⟨hpos, hmax, hval⟩ := hT.fits e hmem
  obtain ⟨n, hn⟩ : ∃ n, e.len = n + 1 := ⟨e.len - 1, by omega⟩
  have := huffLoop_code hT hmem rest n T.maxL 1 (by omega) (by omega)
  rwa [← hn, Nat.div_eq_of_lt hval, hsym] at this

/-- A match of the decoding loop: the candidate `v` of `m` bits, continued by the bits read, is the code of the symbol. -/
theorem huffLoop_list_ok {T : Table} {n m v sym : Nat} {bits rest : List Bool}
    (h : huffLoop listSource T n (m + 1) v bits = .ok sym rest) :
    ∃ code l w, bits = code ++ rest ∧ T.lookup l w = some sym ∧ bitsMsb l w = bitsMsb m v ++ code := by
  induction n generalizing m v bits with
  | zero => cases h
  | succ n ih =>
    cases bits with
    | nil => cases h
    | cons b bits =>
      rw [huffLoop, listSource_bit_cons, Rd.bind_ok] at h
      have hstep : bitsMsb (m + 1) (2 * v + b.toNat) = bitsMsb m v ++ [b] := by
        have hdiv : (2 * v + b.toNat) / 2 = v := by have := b.toNat_le; omega
        have hbit : ((2 * v + b.toNat) % 2 == 1) = b := by cases b <;> simp
        rw [bitsMsb_succ', hdiv, hbit]
      split at h
      · next hl =>
        cases h
        exact ⟨[b], _, _, rfl, hl, hstep⟩
      · obtain ⟨code, l, w, rfl, hl, hw⟩ := ih h
        exact ⟨b :: code, l, w, rfl, hl, by rw [hw, hstep, List.append_assoc, List.singleton_append]⟩

/-- Symbols are numbered upwards, so an entry of a built table is the first one of its symbol. -/
theorem assignCodes_find_sym {lens : List Nat} {s : Nat} {next : List Nat} :
    ∀ e ∈ assignCodes lens s next, (assignCodes lens s next).find? (fun f => f.sym == e.sym) = some e := by
  induction lens generalizing s next with
  | nil => exact nofun
  | cons l lens ih =>
    intro e he
    rw [assignCodes] at he ⊢
    split at he
    · next hl =>
      rw [if_pos hl]
      exact ih e he
    · next hl =>
      rw [if_neg hl]
      rcases List.mem_cons.mp he with rfl | he
      · exact List.find?_cons_of_pos (by simp)
      · have := (assignCodes_sym _ _ _ e he).1
        rw [List.find?_cons_of_neg (by simp; omega)]
        exact ih e he

/-- What a built table's decoder consumes is the code of the symbol it answers. -/
theorem huffDecode_build_ok {lens : List Nat} {sym : Nat} {bits rest : List Bool}
    (h : huffDecode listSource (build lens) bits = .ok sym rest) :
    ∃ code, (build lens).codeBits sym = some code ∧ bits = code ++ rest := by
  obtain ⟨code, l, w, hbits, hl, hw⟩ := huffLoop_list_ok (m := 0) h
  obtain ⟨e, he, rfl, rfl, rfl⟩ := Table.lookup_mem hl
  refine ⟨code, ?_, hbits⟩
  rw [Table.codeBits, build, assignCodes_find_sym e he, Option.map_some, hw]
  rfl

/-! ## Tokens of a symbol with extra bits -/

/-- A symbol of `T`, its extra bits by `ext`, and the instruction of both by `f`: the tokens of the three alphabets. -/
def readSymbol {σ : Type} (src : Source σ) (T : Table) (ext : Nat → Nat) (f : Nat → Nat → Option Instr) (s : σ) :
    Rd σ Instr :=
  (huffDecode src T s).bind fun sym s => (readBits src (ext sym) s).bind fun x s => symbolInstr (f sym x) s

section
variable {σ : Type} (src : Source σ) (T : Table) (s : σ)

theorem decode_ll : decode src (.ll T) s = readSymbol src T lenExtra llInstr s := rfl
theorem decode_dist : decode src (.dist T) s = readSymbol src T distExtra distInstr s := rfl

theorem decode_cl : decode src (.cl T true) s = readSymbol src T clExtra clInstr s := by
  simp [decode, readSymbol]

variable {src T s} {sym : Nat} {t : σ}

/-- A first code-length token that is not symbol 16 is read as any later one. -/
theorem decode_clFirst (h : huffDecode src T s = .ok sym t) (hs : sym ≠ 16) :
    decode src (.cl T false) s = decode src (.cl T true) s := by
  simp [decode, h, hs]

/-- A first code-length token that is symbol 16 is answered at its code (42_blocks.md R171). -/
theorem decode_clFirst_rep (h : huffDecode src T s = .ok 16 t) : decode src (.cl T false) s = .ok (.clRep 0) t := by
  simp [decode, h]

end

section
variable {T : Table} {ext : Nat → Nat} {f : Nat → Nat → Option Instr} {sym x : Nat} {i : Instr} {bits : List Bool}

theorem symbolBits_eq_some {n : Nat} :
    symbolBits T sym n x = some bits ↔ ∃ code, T.codeBits sym = some code ∧ code ++ bitsLsb n x = bits := by
  rw [symbolBits, Option.map_eq_some_iff]

theorem readSymbol_symbolBits (hT : PrefixFree T) (hx : x < 2 ^ ext sym) (hi : f sym x = some i)
    (h : symbolBits T sym (ext sym) x = some bits) (rest : List Bool) :
    readSymbol listSource T ext f (bits ++ rest) = .ok i rest := by
  obtain ⟨code, hc, rfl⟩ := symbolBits_eq_some.mp h
  rw [readSymbol, List.append_assoc, huffDecode_codeBits hT hc, Rd.bind_ok, readBits_bitsLsb, Rd.bind_ok, Nat.mod_eq_of_lt hx,
    hi]
  rfl

theorem readSymbol_build_ok {lens : List Nat} {rest : List Bool}
    (h : readSymbol listSource (build lens) ext f bits = .ok i rest) :
    ∃ sym x p, f sym x = some i ∧ symbolBits (build lens) sym (ext sym) x = some p ∧ bits = p ++ rest := by
  simp only [readSymbol, Rd.bind_eq_ok, symbolInstr_eq_ok] at h
  obtain ⟨sym, s, hsym, x, t, hx, hi, rfl⟩ := h
  obtain ⟨code, hc, rfl⟩ := huffDecode_build_ok hsym
  refine ⟨sym, x, _, hi, symbolBits_eq_some.mpr ⟨code, hc, rfl⟩, ?_⟩
  rw [readBits_list_ok hx, List.append_assoc]

end

/-! ## The encoding of an instruction by its token's format -/

theorem lenExtra_literal {s : Nat} (h : s < 256) : lenExtra s = 0 := by
  unfold lenExtra
  split <;> omega

theorem clExtra_length {s : Nat} (h : s < 16) : clExtra s = 0 := by
  unfold clExtra
  split <;> omega

theorem encode_btype (k : Codes) (t : BitVec 2) : encode k (btypeInstr t) = some (bitsLsb 2 t.toNat) := by
  obtain rfl | rfl | rfl | rfl : t = 0 ∨ t = 1 ∨ t = 2 ∨ t = 3 := by revert t; decide
  all_goals rfl

theorem encode_filter (k : Codes) (b : Byte) : encode k (filterInstr b) = some (bitsLsb 8 b.toNat) := by
  unfold filterInstr
  have hlt : b.toNat < 256 := b.isLt
  have hlow (j : Nat) : (b.setWidth j).toNat = b.toNat % 2 ^ j := BitVec.toNat_setWidth j b
  split
  case h_7 =>
    simp only [imp_false] at *
    split_ifs <;> simp only [encode, hlow] <;> congr 2 <;> omega
  all_goals next h => rw [h]; rfl

theorem encode_cl (k : Codes) {sym x : Nat} {i : Instr} (h : clInstr sym x = some i) :
    encode k i = symbolBits k.cl sym (clExtra sym) x := by
  unfold clInstr at h
  split at h
  · next hs =>
    cases h
    simp [encode, clExtra_length hs, symbolBits, bitsLsb, Nat.mod_eq_of_lt hs]
  · split at h <;> cases h <;> exact symbolBits_ofNat _ _ _ x

theorem encode_ll (k : Codes) {sym x : Nat} {i : Instr} (h : llInstr sym x = some i) :
    encode k i = symbolBits k.ll sym (lenExtra sym) x := by
  unfold llInstr at h
  split at h
  · next hs =>
    cases h
    simp [encode, lenExtra_literal hs, symbolBits, bitsLsb, Nat.mod_eq_of_lt hs]
  · split at h <;> cases h <;> first
      | rfl
      | exact symbolBits_ofNat _ _ _ x

theorem encode_dist (k : Codes) {sym x : Nat} {i : Instr} (h : distInstr sym x = some i) :
    encode k i = symbolBits k.dist sym (distExtra sym) x := by
  unfold distInstr at h
  split at h <;> cases h <;> first
    | rfl
    | exact symbolBits_ofNat _ _ _ x

/-! ## Every instruction is of one of the formats -/

/-- The format of an instruction's token, with the context that reads it whole. A symbol comes with its extra value. -/
inductive TokenFormat (k : Codes) : Instr → Ctx → Prop
  | blockHeader (f : BitVec 1) (t : BitVec 2) : TokenFormat k (.blockHeader f t) .blockHeader
  | btype (t : BitVec 2) : TokenFormat k (btypeInstr t) .btype
  | stored (len nlen : BitVec 16) : TokenFormat k (.storedHeader len nlen) .stored
  | dynamic (h d : BitVec 5) (n : BitVec 4) : TokenFormat k (.dynamicHeader h d n) .dynamic
  | clLengths (vals : List (BitVec 3)) : TokenFormat k (.clCodeLengths vals) (.clLengths vals.length)
  | cl {i : Instr} {sym x : Nat} (he : encode k i = symbolBits k.cl sym (clExtra sym) x) (hx : x < 2 ^ clExtra sym)
      (hi : clInstr sym x = some i) : TokenFormat k i (.cl k.cl true)
  | ll {i : Instr} {sym x : Nat} (he : encode k i = symbolBits k.ll sym (lenExtra sym) x) (hx : x < 2 ^ lenExtra sym)
      (hi : llInstr sym x = some i) : TokenFormat k i (.ll k.ll)
  | dist {i : Instr} {sym x : Nat} (he : encode k i = symbolBits k.dist sym (distExtra sym) x) (hx : x < 2 ^ distExtra sym)
      (hi : distInstr sym x = some i) : TokenFormat k i (.dist k.dist)
  | filter (b : Byte) : TokenFormat k (filterInstr b) .filter

theorem clInstr_length {s : Nat} (h : s < 16) (x : Nat) : clInstr s x = some (.clLit (BitVec.ofNat 4 s)) := if_pos h

theorem llInstr_literal {s : Nat} (h : s < 256) (x : Nat) : llInstr s x = some (.lit (BitVec.ofNat 8 s)) := if_pos h

theorem tokenFormat_cl {k : Codes} {i : Instr} (h : i.ctx k = .cl k.cl true) : TokenFormat k i (.cl k.cl true) := by
  cases i <;> try cases h
  case clLit n =>
    have hn : n.toNat < 16 := n.isLt
    exact .cl (x := 0) (by rw [clExtra_length hn]; rfl) (Nat.two_pow_pos _) (by simp [clInstr_length hn])
  all_goals exact .cl rfl (BitVec.isLt _) (by simp [clInstr])

theorem tokenFormat_ll {k : Codes} {i : Instr} (h : i.ctx k = .ll k.ll) : TokenFormat k i (.ll k.ll) := by
  cases i <;> try cases h
  case lit v =>
    have hv : v.toNat < 256 := v.isLt
    exact .ll (x := 0) (by rw [lenExtra_literal hv]; rfl) (Nat.two_pow_pos _) (by simp [llInstr_literal hv])
  all_goals first
    | exact .ll rfl (Nat.two_pow_pos _) rfl
    | exact .ll rfl (BitVec.isLt _) (by simp [llInstr])

theorem tokenFormat_dist {k : Codes} {i : Instr} (h : i.ctx k = .dist k.dist) : TokenFormat k i (.dist k.dist) := by
  cases i <;> try cases h
  all_goals first
    | exact .dist rfl (Nat.two_pow_pos _) rfl
    | exact .dist rfl (BitVec.isLt _) (by simp [distInstr])

theorem tokenFormat_filter {k : Codes} {i : Instr} (h : i.ctx k = .filter) : TokenFormat k i .filter := by
  obtain ⟨b, rfl⟩ : ∃ b, filterInstr b = i := by
    cases i <;> try cases h
    case filterNone => exact ⟨0, rfl⟩
    case filterSub => exact ⟨1, rfl⟩
    case filterUp => exact ⟨2, rfl⟩
    case filterAverage => exact ⟨3, rfl⟩
    case filterPaeth => exact ⟨4, rfl⟩
    case filterInvalid05 => exact ⟨5, rfl⟩
    case filterInvalid06 x => exact ⟨6 + x.setWidth 8, by revert x; decide⟩
    case filterInvalid08 x => exact ⟨8 + x.setWidth 8, by revert x; decide⟩
    case filterInvalid10 x => exact ⟨16 + x.setWidth 8, by revert x; decide⟩
    case filterInvalid20 x => exact ⟨32 + x.setWidth 8, by revert x; decide⟩
    case filterInvalid40 x => exact ⟨64 + x.setWidth 8, by revert x; decide⟩
    case filterInvalid80 x => exact ⟨128 + x.setWidth 8, by revert x; decide⟩
  exact .filter b

/-- Every instruction has the format of its own context. -/
theorem tokenFormat (k : Codes) (i : Instr) : TokenFormat k i (i.ctx k) := by
  cases i <;> first
    | exact .blockHeader _ _
    | exact .btype 0
    | exact .btype 1
    | exact .btype 2
    | exact .btype 3
    | exact .stored _ _
    | exact .dynamic _ _ _
    | exact .clLengths _
    | exact tokenFormat_cl rfl
    | exact tokenFormat_ll rfl
    | exact tokenFormat_dist rfl
    | exact tokenFormat_filter rfl

/-! ## Decode of encode -/

theorem readClLengths_flatMap (vals : List (BitVec 3)) (j : Nat) (rest : List Bool) :
    readClLengths listSource vals.length j ((vals.flatMap fun v => bitsLsb 3 v.toNat) ++ rest) = .ok vals rest := by
  induction vals generalizing j with
  | nil => rfl
  | cons v vals ih =>
    simp only [List.length_cons, readClLengths, List.flatMap_cons, List.append_assoc, readBits_bitVec, Rd.bind_ok,
      listSource_latch, ih, BitVec.ofNat_toNat, BitVec.setWidth_eq]

/-- An instruction is read back in its own context. -/
theorem decode_encode {k : Codes} (hk : k.PrefixFree) {i : Instr} {bits : List Bool} (he : encode k i = some bits)
    (rest : List Bool) : decode listSource (i.ctx k) (bits ++ rest) = .ok i rest := by
  have hf := tokenFormat k i
  generalize i.ctx k = c at hf
  cases hf with
  | blockHeader f t => cases he; simp [decode]
  | btype t =>
    cases (encode_btype k t).symm.trans he
    simp [decode]
  | stored len nlen => cases he; simp [decode]
  | dynamic h d n => cases he; simp [decode]
  | clLengths vals => cases he; simp [decode, readClLengths_flatMap]
  | cl hs hx hi => rw [decode_cl]; exact readSymbol_symbolBits hk.cl hx hi (hs ▸ he) rest
  | ll hs hx hi => rw [decode_ll]; exact readSymbol_symbolBits hk.ll hx hi (hs ▸ he) rest
  | dist hs hx hi => rw [decode_dist]; exact readSymbol_symbolBits hk.dist hx hi (hs ▸ he) rest
  | filter b =>
    cases (encode_filter k b).symm.trans he
    simp [decode]

/-- A code-length token but CL_REP begins with the code of a symbol that is not 16. -/
theorem encode_clFirst {k : Codes} {i : Instr} {bits : List Bool} (he : encode k i = some bits)
    (hc : i.ctx k = .cl k.cl true) (hr : ∀ x, i ≠ .clRep x) :
    ∃ sym code tail, k.cl.codeBits sym = some code ∧ sym ≠ 16 ∧ bits = code ++ tail := by
  obtain ⟨sym, x, hs, hi⟩ : ∃ sym x, encode k i = symbolBits k.cl sym (clExtra sym) x ∧ clInstr sym x = some i := by
    cases tokenFormat_cl hc with
    | cl hs hx hi => exact ⟨_, _, hs, hi⟩
  obtain ⟨code, hcode, rfl⟩ := symbolBits_eq_some.mp (hs ▸ he)
  exact ⟨sym, code, _, hcode, fun e => hr _ (Option.some.inj (e ▸ hi)).symm, rfl⟩

/-- Settles O3: by the format of the token, its fields and codes are read back one by one; a first code-length token is read as a
later one unless its symbol is 16. -/
theorem decodeEncode : Obligations.DecodeEncode := by
  intro k hk
  refine ⟨fun i c bits _ he hc rest => ?_, fun code hcode rest => ?_⟩
  · rcases hc with rfl | ⟨hc, hr, rfl⟩
    · exact decode_encode hk he rest
    · obtain ⟨sym, code, tail, hcode, hsym, rfl⟩ := encode_clFirst he hc hr
      have hd := huffDecode_codeBits hk.cl hcode (tail ++ rest)
      rw [List.append_assoc, decode_clFirst hd hsym, ← List.append_assoc, ← hc]
      exact decode_encode hk he rest
  · exact decode_clFirst_rep (huffDecode_codeBits hk.cl hcode rest)

/-! ## Encode of decode -/

theorem readClLengths_list_ok {n j : Nat} {bits rest : List Bool} {vals : List (BitVec 3)}
    (h : readClLengths listSource n j bits = .ok vals rest) : bits = (vals.flatMap fun v => bitsLsb 3 v.toNat) ++ rest := by
  induction n generalizing j bits vals with
  | zero => cases h; rfl
  | succ n ih =>
    simp only [readClLengths, Rd.bind_eq_ok, listSource_latch, Rd.ok.injEq] at h
    obtain ⟨v, s, hv, vs, t, hvs, rfl, rfl⟩ := h
    rw [readBits_list_ok hv, ih hvs, List.flatMap_cons, bitsLsb_ofNat, List.append_assoc]

/-- The bits from `bits` to `rest` are the encoding of `i`. -/
def EncodedBy (k : Codes) (i : Instr) (bits rest : List Bool) : Prop := ∃ p, encode k i = some p ∧ bits = p ++ rest

section
variable {k : Codes} {bits rest : List Bool} {i : Instr}

theorem EncodedBy.blockHeader (h : decode listSource .blockHeader bits = .ok i rest) : EncodedBy k i bits rest := by
  simp only [decode, Rd.bind_eq_ok, Rd.ok.injEq] at h
  obtain ⟨f, s, hf, t, u, ht, rfl, rfl⟩ := h
  exact ⟨_, rfl, by rw [readBits_list_ok hf, readBits_list_ok ht]; simp only [bitsLsb_ofNat, List.append_assoc]⟩

theorem EncodedBy.btype (h : decode listSource .btype bits = .ok i rest) : EncodedBy k i bits rest := by
  simp only [decode, Rd.bind_eq_ok, Rd.ok.injEq] at h
  obtain ⟨t, s, ht, rfl, rfl⟩ := h
  exact ⟨_, encode_btype k _, by rw [readBits_list_ok ht, bitsLsb_ofNat]⟩

theorem EncodedBy.stored (h : decode listSource .stored bits = .ok i rest) : EncodedBy k i bits rest := by
  simp only [decode, Rd.bind_eq_ok, Rd.ok.injEq, listSource_align] at h
  obtain ⟨l, s, hl, n, u, hn, rfl, rfl⟩ := h
  exact ⟨_, rfl, by rw [readBits_list_ok hl, readBits_list_ok hn]; simp only [bitsLsb_ofNat, List.append_assoc]⟩

theorem EncodedBy.dynamic (h : decode listSource .dynamic bits = .ok i rest) : EncodedBy k i bits rest := by
  simp only [decode, Rd.bind_eq_ok, Rd.ok.injEq, listSource_latch] at h
  obtain ⟨hl, s, hhl, hd, t, hhd, n, u, hn, rfl, rfl⟩ := h
  refine ⟨_, rfl, ?_⟩
  rw [readBits_list_ok hhl, readBits_list_ok hhd, readBits_list_ok hn]
  simp only [bitsLsb_ofNat, List.append_assoc]

theorem EncodedBy.clLengths {n : Nat} (h : decode listSource (.clLengths n) bits = .ok i rest) :
    EncodedBy k i bits rest := by
  simp only [decode, Rd.bind_eq_ok, Rd.ok.injEq, listSource_latch] at h
  obtain ⟨vals, s, hv, rfl, rfl⟩ := h
  exact ⟨_, rfl, readClLengths_list_ok hv⟩

theorem EncodedBy.filter (h : decode listSource .filter bits = .ok i rest) : EncodedBy k i bits rest := by
  simp only [decode, Rd.bind_eq_ok, Rd.ok.injEq] at h
  obtain ⟨b, s, hb, rfl, rfl⟩ := h
  exact ⟨_, encode_filter k _, by rw [readBits_list_ok hb, bitsLsb_ofNat]⟩

theorem EncodedBy.symbol {lens : List Nat} {ext : Nat → Nat} {f : Nat → Nat → Option Instr}
    (hf : ∀ {sym x i}, f sym x = some i → encode k i = symbolBits (build lens) sym (ext sym) x)
    (h : readSymbol listSource (build lens) ext f bits = .ok i rest) : EncodedBy k i bits rest := by
  obtain ⟨sym, x, p, hi, hp, hbits⟩ := readSymbol_build_ok h
  exact ⟨p, (hf hi).trans hp, hbits⟩

end

/-- The tables of any three code-length arrays. -/
abbrev builtCodes (ll d cl : List Nat) : Codes := { ll := build ll, dist := build d, cl := build cl }

theorem EncodedBy.clToken {ll d cl : List Nat} {bits rest : List Bool} {i : Instr}
    (h : decode listSource (.cl (build cl) true) bits = .ok i rest) : EncodedBy (builtCodes ll d cl) i bits rest :=
  .symbol (encode_cl (builtCodes ll d cl)) (decode_cl listSource (build cl) bits ▸ h)

/-- Only symbol 16 is a CL_REP. -/
theorem clInstr_clRep {sym x : Nat} {y : BitVec 2} (h : clInstr sym x = some (.clRep y)) : sym = 16 := by
  unfold clInstr at h
  split at h
  · cases h
  · split at h
    · rfl
    all_goals cases h

/-- A later code-length token whose code is not that of symbol 16 is not a CL_REP. -/
theorem decode_cl_ne_clRep {σ : Type} {src : Source σ} {T : Table} {s t u : σ} {sym : Nat} {i : Instr}
    (hd : huffDecode src T s = .ok sym t) (hs : sym ≠ 16) (h : decode src (.cl T true) s = .ok i u) (x : BitVec 2) :
    i ≠ .clRep x := by
  rw [decode_cl, readSymbol, hd, Rd.bind_ok, Rd.bind_eq_ok] at h
  obtain ⟨y, v, -, hi⟩ := h
  rintro rfl
  exact hs (clInstr_clRep (symbolInstr_eq_ok.mp hi).1)

/-- Settles O4: every field and code that was read is written out again, and an instruction's encoding is made of these. -/
theorem decodeLosesNothing : Obligations.DecodeLosesNothing := by
  refine ⟨fun ll d cl c n bits rest i hc h => ?_, fun ll d cl bits rest i h => ?_⟩
  · rcases hc with rfl | rfl | rfl | rfl | rfl | rfl | rfl | rfl | rfl
    · exact EncodedBy.blockHeader h
    · exact EncodedBy.btype h
    · exact EncodedBy.stored h
    · exact EncodedBy.dynamic h
    · exact EncodedBy.clLengths h
    · exact EncodedBy.clToken h
    · exact EncodedBy.symbol (encode_ll (builtCodes ll d cl)) h
    · exact EncodedBy.symbol (encode_dist (builtCodes ll d cl)) h
    · exact EncodedBy.filter h
  · obtain ⟨sym, s, hd, -⟩ := Rd.bind_eq_ok.mp h
    by_cases hs : sym = 16
    · subst hs
      cases (decode_clFirst_rep hd).symm.trans h
      exact .inl ⟨rfl, huffDecode_build_ok hd⟩
    · rw [decode_clFirst hd hs] at h
      exact .inr ⟨decode_cl_ne_clRep hd hs h, EncodedBy.clToken h⟩

end Sys2Proof
end
section
/-! SUPPORT. The machine's reader on a whole token, with the statement StepRunsEncodedBits. -/

namespace Sys2Proof.Machine

/-! ## Fetching a token is decoding the pending bits -/

theorem symbolInstr_matches (i : Option Instr) {s : State} (hw : InWritten s) :
    Matches (symbolInstr i s) (symbolInstr i (pendingBits s)) := by
  cases i <;> exact ⟨s, rfl, rfl, hw⟩

theorem huffDecode_matches (T : Table) {s : State} (hw : InWritten s) :
    Matches (huffDecode stateSource T s) (huffDecode listSource T (pendingBits s)) :=
  huffLoop_matches T _ _ _ s hw

/-- Latching a field takes no bit. -/
theorem Matches.latched {α : Type} {r : State → Rd State α} {r' : List Bool → Rd (List Bool) α}
    (h : ∀ t, InWritten t → Matches (r t) (r' (pendingBits t))) (l : Latch) {s : State} (hw : InWritten s) :
    Matches (r (stateSource.latch l s)) (r' (listSource.latch l (pendingBits s))) := by
  have := h _ (latchField_inWritten l s hw)
  rwa [latchField_pending] at this

theorem readSymbol_matches (T : Table) (ext : Nat → Nat) (f : Nat → Nat → Option Instr) {s : State} (hw : InWritten s) :
    Matches (readSymbol stateSource T ext f s) (readSymbol listSource T ext f (pendingBits s)) :=
  (huffDecode_matches T hw).bind fun sym _ ht => (readBits_matches (ext sym) _ ht).bind fun _ _ hu =>
    symbolInstr_matches _ hu

/-- The machine reads a token as the list decoder reads it from the bits not yet consumed. -/
theorem fetch_matches (c : Ctx) {s : State} (hw : InWritten s) :
    Matches (fetch c s) (decode listSource c (pendingBits (tokenStart c s))) := by
  cases c with
  | blockHeader =>
    exact (readBits_matches 1 s hw).bind fun _ _ ht => (readBits_matches 2 _ ht).bind fun _ u hu => .ok _ u hu
  | btype => exact (readBits_matches 2 s hw).bind fun _ t ht => .ok _ t ht
  | stored =>
    have ha : InWritten (byteAlign s) := hw
    exact (readBits_matches 16 _ ha).bind fun _ _ ht => (readBits_matches 16 _ ht).bind fun _ u hu => .ok _ u hu
  | dynamic =>
    refine (readBits_matches 5 s hw).bind fun h t ht => ?_
    refine Matches.bind (.latched (readBits_matches 5) (.hlit (h + 257)) ht) fun d u hu => ?_
    refine Matches.bind (.latched (readBits_matches 4) (.hdist (d + 1)) hu) fun n v hv => ?_
    exact .latched (Matches.ok _) (.hclen (n + 4)) hv
  | clLengths n =>
    exact Matches.bind (.latched (readClLengths_matches n 0) .clClear hw) fun _ t ht => .ok _ t ht
  | cl T hasPrev =>
    refine (huffDecode_matches T hw).bind fun sym t ht => ?_
    split
    · exact .ok _ t ht
    · exact (readBits_matches (clExtra sym) t ht).bind fun _ _ hu => symbolInstr_matches _ hu
  | ll T => exact readSymbol_matches T lenExtra llInstr hw
  | dist T => exact readSymbol_matches T distExtra distInstr hw
  | filter => exact (readBits_matches 8 s hw).bind fun _ t ht => .ok _ t ht

theorem fetch_ok {c : Ctx} {s : State} {i : Instr} {rest : List Bool} (hw : InWritten s)
    (h : decode listSource c (pendingBits (tokenStart c s)) = .ok i rest) :
    ∃ t, fetch c s = .ok i t ∧ pendingBits t = rest := by
  have hm := fetch_matches c hw
  rw [h] at hm
  obtain ⟨t, hf, hp, -⟩ := hm
  exact ⟨t, hf, hp⟩

/-! ## The step that fetches a token -/

/-- With no host move due, a token that is fetched is executed in the state after its bits. -/
theorem step_fetch {s t : State} {c : Ctx} {i : Instr} (hh : s.host = []) (hn : nextOp s = .fetch c)
    (hf : fetch c s = .ok i t) : step s = exec i t := by
  rw [step, agentStep, hh]
  simp only [coreStep, hn, hf]

theorem fetch_ok_header {c : Ctx} {s t : State} {i : Instr} (hf : fetch c s = .ok i t)
    (hi : ∀ h d n, i ≠ .dynamicHeader h d n) : t.hlit = s.hlit ∧ t.hdist = s.hdist ∧ t.hclen = s.hclen := by
  have := fetch_header_frame c s
  rw [hf] at this
  refine this ?_
  rintro rfl
  cases decode_answers _ _ _ _ _ hf
  exact hi _ _ _ rfl

theorem fetch_ok_clLens {c : Ctx} {s t : State} {i : Instr} (hf : fetch c s = .ok i t)
    (hi : ∀ vals, i ≠ .clCodeLengths vals) : t.clLens = s.clLens := by
  have := fetch_clLens_frame c s
  rw [hf] at this
  refine this ?_
  rintro n rfl
  cases decode_answers _ _ _ _ _ hf
  exact hi _ rfl

/-- The first code-length token is read before any length is there. -/
theorem nextOp_clFirst {s : State} {T : Table} (h : nextOp s = .fetch (.cl T false)) : s.nlens = 0 := by
  have := phaseOp_fetch (nextOp_fetch h).2.2
  simp_all

/-- A CL_REP with no previous length raises before anything else (42_blocks.md R171). -/
theorem exec_clRep_first {s : State} (h : s.nlens = 0) (x : BitVec 2) :
    exec (.clRep x) s = .next (raise .invalidHuffmanCode s) := if_pos h

/-- Settles O14: the pending bits decode to the instruction (DecodeEncode), and the machine reads what the list decoder reads. -/
theorem stepRunsEncodedBits : Obligations.StepRunsEncodedBits := by
  intro s k hk hh hw
  obtain ⟨hdecode, hfirst⟩ := decodeEncode k hk
  refine ⟨fun i c bits rest hwf he hc hn hp => ?_, fun code rest hcode hn hp => ?_⟩
  · obtain ⟨t, hf, hrest⟩ := fetch_ok hw (hp ▸ hdecode i c bits hwf he hc rest)
    refine ⟨t, step_fetch hh hn hf, hrest, ?_, fetch_ok_header hf, fetch_ok_clLens hf⟩
    rw [(fetch_ok_frame hf).eq]
  · obtain ⟨t, hf, hrest⟩ := fetch_ok (c := .cl k.cl false) hw (hp ▸ hfirst code hcode rest)
    obtain ⟨p, b, n, ht⟩ := fetch_frame_plain (.cl k.cl false) s nofun
    rw [hf, Rd.state_ok] at ht
    have h0 : t.nlens = 0 := by rw [ht]; exact nextOp_clFirst hn
    exact ⟨t, (step_fetch hh hn hf).trans (exec_clRep_first h0 0), hrest, by rw [ht]⟩

end Sys2Proof.Machine
end
section
/-! SUPPORT. The codes of a built table, symbol by symbol, with the statement FixedCodes. -/

namespace Sys2Proof

/-- The loop of 41_huffman.md R143 gives a used symbol the next code of its length: one more for each earlier symbol of that
length. -/
theorem assignCodes_find {lens : List Nat} {j l : Nat} (hj : lens[j]? = some l) (hl : 0 < l) {next : List Nat}
    (hn : l < next.length) (s : Nat) :
    (assignCodes lens s next).find? (fun e => e.sym == s + j)
      = some { len := l, val := next.getD l 0 + (lens.take j).countP (· == l), sym := s + j } := by
  induction lens generalizing j s next with
  | nil => cases hj
  | cons a lens ih =>
    rw [assignCodes]
    cases j with
    | zero =>
      obtain rfl : a = l := by simpa using hj
      rw [if_neg (by omega), List.find?_cons_of_pos (by simp)]
      simp
    | succ j =>
      have hj : lens[j]? = some l := by simpa using hj
      rw [show s + (j + 1) = s + 1 + j by omega, List.take_succ_cons, List.countP_cons]
      split
      · next ha =>
        rw [ih hj hn, if_neg (by simp; omega), Nat.add_zero (List.countP _ _)]
      · next ha =>
        rw [List.find?_cons_of_neg (by simp; omega), ih hj (by rwa [List.length_set])]
        by_cases hal : a = l
        · subst hal
          simp only [List.getD_eq_getElem?_getD, List.getElem?_set_self hn, Option.getD_some, beq_self_eq_true, if_true]
          congr 2
          omega
        · simp [List.getD_eq_getElem?_getD, List.getElem?_set_ne hal, hal]

theorem le_maxLen {lens : List Nat} {l : Nat} (h : l ∈ lens) : l ≤ maxLen lens := by
  induction lens with
  | nil => cases h
  | cons a lens ih =>
    rw [maxLen, List.foldr_cons]
    rcases List.mem_cons.mp h with rfl | h
    · exact Nat.le_max_left _ _
    · exact (ih h).trans (Nat.le_max_right _ _)

/-- The code of a used symbol: FIRST of its length, plus the number of earlier symbols of that length (R143). -/
theorem build_codeBits {lens : List Nat} {s l : Nat} (hs : lens[s]? = some l) (hl : 0 < l) :
    (build lens).codeBits s = some (bitsMsb l (firstCode lens l + (lens.take s).countP (· == l))) := by
  have hmax : l < maxLen lens + 1 := Nat.lt_succ_of_le (le_maxLen (List.mem_of_getElem? hs))
  have hfind := assignCodes_find hs hl (next := firstCodes lens) (by simpa [firstCodes] using hmax) 0
  have hfirst : (firstCodes lens).getD l 0 = firstCode lens l := by
    simp [firstCodes, List.getD_eq_getElem?_getD, hmax]
  rw [Nat.zero_add, hfirst] at hfind
  rw [Table.codeBits, build, hfind, Option.map_some]

/-- The codes of a run of `n` equal lengths, from symbol `m` on: consecutive values. -/
theorem build_codeBits_run {lens pre post : List Nat} (m n l first : Nat)
    (h : lens = pre ++ (List.replicate n l ++ post)) (hm : pre.length = m) (hl : 0 < l)
    (hf : firstCode lens l + pre.countP (· == l) = first) {s : Nat} (hms : m ≤ s) (hs : s < m + n) :
    (build lens).codeBits s = some (bitsMsb l (first + (s - m))) := by
  obtain ⟨j, rfl⟩ := Nat.exists_eq_add_of_le hms
  have hj : j < n := by omega
  have hlen : lens[m + j]? = some l := by
    rw [h, ← hm, List.getElem?_append_right (by omega), Nat.add_sub_cancel_left,
      List.getElem?_append_left (by simpa using hj), List.getElem?_replicate_of_lt hj]
  have hrank : (lens.take (m + j)).countP (· == l) = pre.countP (· == l) + j := by
    rw [h, ← hm, List.take_length_add_append, List.countP_append,
      List.take_append_of_le_length (by simpa using hj.le), List.take_replicate, List.countP_replicate,
      if_pos (beq_self_eq_true l), min_eq_left hj.le]
  rw [build_codeBits hlen hl, hrank, ← Nat.add_assoc, hf, Nat.add_sub_cancel_left]

/-- The fixed lengths as four runs (10_state.md R45). -/
theorem fixedLLLens_runs : fixedLLLens =
    .replicate 144 8 ++ (.replicate 112 9 ++ (.replicate 24 7 ++ .replicate 8 8)) := by
  simp only [fixedLLLens, List.append_assoc]

/-- Settles O1: each line of the table of R109 is a run of equal lengths, which begins at FIRST of the length plus the symbols of
that length before the run. -/
theorem fixedCodes : Obligations.FixedCodes := by
  refine ⟨fun s hs => ?_, fun s h hs => ?_, fun s h hs => ?_, fun s h hs => ?_, fun s hs => ?_⟩
  · exact build_codeBits_run (pre := []) 0 144 8 0x30 fixedLLLens_runs rfl (by decide) (by decide +kernel) s.zero_le (by omega)
  · exact build_codeBits_run 144 112 9 0x190 fixedLLLens_runs List.length_replicate (by decide) (by decide +kernel) h (by omega)
  · rw [← Nat.zero_add (s - 256)]
    exact build_codeBits_run (pre := .replicate 144 8 ++ .replicate 112 9) 256 24 7 0
      (fixedLLLens_runs.trans (List.append_assoc ..).symm) (by simp only [List.length_append, List.length_replicate])
      (by decide) (by decide +kernel) h (by omega)
  · exact build_codeBits_run (pre := .replicate 144 8 ++ (.replicate 112 9 ++ .replicate 24 7)) (post := []) 280 8 8 0xC0
      (by simp only [fixedLLLens_runs, List.append_assoc, List.append_nil])
      (by simp only [List.length_append, List.length_replicate]) (by decide) (by decide +kernel) h (by omega)
  · have := build_codeBits_run (pre := []) (post := []) 0 32 5 0 (List.append_nil _).symm rfl (by decide) (by decide +kernel)
      s.zero_le (s := s) (by omega)
    rw [Nat.zero_add] at this
    exact this

end Sys2Proof
end
section
/-! SUPPORT. Length and distance tokens, with the statements LengthTokens and DistanceTokens. -/

namespace Sys2Proof.Machine

/-- Settles O27: a length symbol is a length token of its base plus its extra value. -/
theorem lengthTokens : Obligations.LengthTokens := by
  intro s
  and_intros
  all_goals intros; rfl

/-- A distance token checks its distance against PRODUCED (43_symbols_lz77.md R268). -/
theorem distanceEffect_of_distToken {i : Instr} {d : Nat} (h : ∀ s, exec i s = distToken d s) : DistanceEffect i d := by
  refine fun s => ⟨fun hd => ?_, fun hd l hl => ?_⟩
  · rw [h, distToken, if_pos hd]
  · rw [h, distToken, if_neg (by omega), pendingLen, hl]

/-- Settles O28: a distance symbol is a distance token of its base plus its extra value. -/
theorem distanceTokens : Obligations.DistanceTokens := by
  unfold Obligations.DistanceTokens
  and_intros
  all_goals intros; exact distanceEffect_of_distToken fun _ => rfl

end Sys2Proof.Machine
end
section
/-! SUPPORT. The bit reader's operations and its refinement of the list decoder, with the statements ReaderRefinesStream,
ReadBitsLsbFirst and ByteAlignDiscards. -/

namespace Sys2Proof

/-! ## A field read from a list of bits -/

/-- Bit `k` of a field is its `k`-th bit in read order (20_memory.md R75). -/
theorem bitsLsb_getElem? {n k : Nat} (hk : k < n) (v : Nat) : (bitsLsb n v)[k]? = some (v.testBit k) := by
  induction n generalizing k v with
  | zero => exact absurd hk k.not_lt_zero
  | succ n ih =>
    cases k with
    | zero => rw [bitsLsb, List.getElem?_cons_zero, Nat.testBit_zero]; rfl
    | succ k => rw [bitsLsb, List.getElem?_cons_succ, ih (Nat.lt_of_succ_lt_succ hk), Nat.testBit_succ]

/-- With enough bits there, a field takes its own and leaves the rest. -/
theorem readBits_list_of_le {n : Nat} {bits : List Bool} (h : n ≤ bits.length) :
    ∃ v, readBits listSource n bits = .ok v (bits.drop n) := by
  induction n generalizing bits with
  | zero => exact ⟨0, rfl⟩
  | succ n ih =>
    cases bits with
    | nil => exact absurd h n.not_succ_le_zero
    | cons b bits =>
      obtain ⟨v, hv⟩ := ih (Nat.le_of_succ_le_succ h)
      exact ⟨b.toNat + 2 * v, by rw [readBits, listSource_bit_cons, Rd.bind_ok, hv]; rfl⟩

/-- With too few bits there, a field takes them all and is rejected (40_bitreader.md R131). -/
theorem readBits_list_of_lt {n : Nat} {bits : List Bool} (h : bits.length < n) :
    readBits listSource n bits = .err .endOfInput [] := by
  induction n generalizing bits with
  | zero => exact absurd h bits.length.not_lt_zero
  | succ n ih =>
    cases bits with
    | nil => rfl
    | cons b bits => rw [readBits, listSource_bit_cons, Rd.bind_ok, ih (Nat.lt_of_succ_lt_succ h), Rd.bind_err]

namespace Machine

/-! ## The machine's own reader -/

/-- Settles O10: by the kind of token, each bit the machine reads is the next of the pending ones (`fetch_matches`). -/
theorem readerRefinesStream : Obligations.ReaderRefinesStream := by
  intro s c hw
  have hm := fetch_matches c hw
  cases hd : decode listSource c (pendingBits (tokenStart c s)) with
  | ok i rest => rwa [hd] at hm
  | err e rest => rwa [hd] at hm

/-- `t` differs from `s` in the bit reader's registers at most (10_state.md R40). -/
def SameButReader (s t : State) : Prop := { t with bytePos := s.bytePos, curByte := s.curByte, bitCnt := s.bitCnt } = s

theorem readBit_sameButReader {s t : State} (h : SameButReader s t) : SameButReader s (readBit t).state := by
  rcases readBit_cases t with ⟨-, -, e⟩ | ⟨-, -, -, e⟩ | ⟨b, -, -, -, e⟩ | ⟨-, e⟩ <;> rw [e] <;> exact h

/-- A field is read without a latch, so the header registers stay too. -/
theorem readBits_sameButReader (n : Nat) (s : State) : SameButReader s (readBits stateSource n s).state :=
  readBits_keeps (L := fun _ => False)
    { bit := fun _ => readBit_sameButReader, align := fun _ h => h, latch := fun _ _ hl => hl.elim } n s rfl

/-- Settles O8: a field is read from the pending bits as from a list, and there the bits read are the field's own. -/
theorem readBitsLsbFirst : Obligations.ReadBitsLsbFirst := by
  intro s n hw
  have hm := readBits_matches n s hw
  refine ⟨fun hn => ?_, fun hn => ?_⟩
  · obtain ⟨v, hv⟩ := readBits_list_of_le hn
    have hbits := readBits_list_ok hv
    rw [hv] at hm
    obtain ⟨t, ht, hrest, -⟩ := hm
    have hframe := readBits_sameButReader n s
    rw [ht] at hframe
    refine ⟨v, t, ht, readBits_lt _ _ _ _ _ ht, fun k hk => ?_, hrest, hframe⟩
    rw [hbits, List.getElem?_append_left (by rwa [bitsLsb_length]), bitsLsb_getElem? hk]
  · rw [readBits_list_of_lt hn] at hm
    obtain ⟨t, ht, hrest, -⟩ := hm
    exact ⟨t, ht, hrest⟩

/-- Aligning drops what is left of the current byte. -/
theorem byteAlign_pending (s : State) : pendingBits (byteAlign s) = (pendingBits s).drop s.bitCnt := by
  rw [pendingBits, pendingBits, List.drop_left' (bitsLsb_length _ _)]
  rfl

/-- On a byte boundary the current byte holds no bits and is 0 (10_state.md R40). -/
theorem ReaderInv.curByte_zero {s : State} (hs : ReaderInv s) (h0 : s.bitCnt = 0) : s.curByte = 0 := by
  have := hs.curByte_lt
  rw [h0] at this
  exact BitVec.eq_of_toNat_eq (Nat.lt_one_iff.mp this)

/-- Settles O9: the bits left of the current byte are the first `BITCNT` pending ones, and on a byte boundary there are none. -/
theorem byteAlignDiscards : Obligations.ByteAlignDiscards := by
  refine fun s => ⟨rfl, fun hs => ⟨byteAlign_pending s, fun h0 => ?_⟩⟩
  rw [byteAlign, ← hs.curByte_zero h0, ← h0]

end Machine

end Sys2Proof
end
section
/-! SUPPORT. Canonical codes, the Kraft sum and the decoder on any table, with the statements KraftPrefixFree, CanonicalCodes,
HuffDecodeConsumes and FixedWordsDecode. -/

namespace Sys2Proof

/-! ## The entries of a built table -/

/-- An entry of a table stands for a used symbol, at the symbol's own length. -/
theorem assignCodes_len {lens : List Nat} {s : Nat} {next : List Nat} :
    ∀ e ∈ assignCodes lens s next, ∃ j, e.sym = s + j ∧ lens[j]? = some e.len ∧ 0 < e.len := by
  induction lens generalizing s next with
  | nil => exact nofun
  | cons l lens ih =>
    intro e he
    have later {next : List Nat} (he : e ∈ assignCodes lens (s + 1) next) :
        ∃ j, e.sym = s + j ∧ (l :: lens)[j]? = some e.len ∧ 0 < e.len := by
      obtain ⟨j, hsym, hlen, hpos⟩ := ih e he
      exact ⟨j + 1, by omega, hlen, hpos⟩
    rw [assignCodes] at he
    split at he
    · exact later he
    · next hl =>
      rcases List.mem_cons.mp he with rfl | he
      · exact ⟨0, rfl, rfl, Nat.pos_of_ne_zero hl⟩
      · exact later he

section
variable {lens : List Nat} {s l : Nat}

/-- A used symbol's entry: FIRST of its length, plus the number of earlier symbols of that length (R143). -/
theorem build_find_sym (hs : lens[s]? = some l) (hl : 0 < l) :
    (build lens).code.find? (fun e => e.sym == s)
      = some { len := l, val := firstCode lens l + (lens.take s).countP (· == l), sym := s } := by
  have hmax : l < maxLen lens + 1 := Nat.lt_succ_of_le (le_maxLen (List.mem_of_getElem? hs))
  have hfirst : (firstCodes lens).getD l 0 = firstCode lens l := by
    simp [firstCodes, List.getD_eq_getElem?_getD, hmax]
  have hfind := assignCodes_find hs hl (next := firstCodes lens) (by simpa [firstCodes] using hmax) 0
  rwa [Nat.zero_add, hfirst] at hfind

/-- An entry of a built table, by its symbol alone. -/
theorem build_entry {e : CodeEntry} (he : e ∈ (build lens).code) :
    lens[e.sym]? = some e.len ∧ 0 < e.len
      ∧ e.val = firstCode lens e.len + (lens.take e.sym).countP (· == e.len) := by
  obtain ⟨j, hsym, hlen, hpos⟩ := assignCodes_len e he
  rw [Nat.zero_add] at hsym
  subst hsym
  have hfind : (build lens).code.find? (fun f => f.sym == e.sym) = some e := assignCodes_find_sym e he
  have hval := congrArg CodeEntry.val (Option.some.inj (hfind.symm.trans (build_find_sym hlen hpos)))
  exact ⟨hlen, hpos, hval⟩

/-! ## The rank of a symbol among those of its length -/

theorem countP_take_succ (hs : lens[s]? = some l) :
    (lens.take (s + 1)).countP (· == l) = (lens.take s).countP (· == l) + 1 := by
  rw [List.take_add_one, hs, List.countP_append]
  simp

/-- A later symbol of a length has a greater rank. -/
theorem countP_take_lt (hs : lens[s]? = some l) {t : Nat} (ht : s < t) :
    (lens.take s).countP (· == l) < (lens.take t).countP (· == l) :=
  calc (lens.take s).countP (· == l)
      < (lens.take (s + 1)).countP (· == l) := by rw [countP_take_succ hs]; exact Nat.lt_succ_self _
    _ ≤ (lens.take t).countP (· == l) := (List.take_sublist_take_left ht).countP_le

theorem countP_take_lt_codeCount (hs : lens[s]? = some l) : (lens.take s).countP (· == l) < codeCount lens l :=
  calc (lens.take s).countP (· == l)
      < (lens.take (s + 1)).countP (· == l) := countP_take_lt hs s.lt_succ_self
    _ ≤ codeCount lens l := (List.take_sublist _ _).countP_le

/-- Entries of one length and one value have symbols of one rank, so they are the same entry. -/
theorem build_entry_inj {e f : CodeEntry} (he : e ∈ (build lens).code) (hf : f ∈ (build lens).code)
    (hlen : e.len = f.len) (hval : e.val = f.val) : e = f := by
  obtain ⟨hes, -, hev⟩ := build_entry he
  obtain ⟨hfs, -, hfv⟩ := build_entry hf
  have hsym : e.sym = f.sym := by
    rw [hlen] at hes hev
    rcases Nat.lt_trichotomy e.sym f.sym with h | h | h
    · have := countP_take_lt hes h
      omega
    · exact h
    · have := countP_take_lt hfs h
      omega
  cases e
  cases f
  exact CodeEntry.mk.injEq .. ▸ ⟨hlen, hval, hsym⟩

/-- The pair of an entry of a built table is looked up as that entry's symbol. -/
theorem build_lookup {e : CodeEntry} (he : e ∈ (build lens).code) : (build lens).lookup e.len e.val = some e.sym := by
  cases hf : (build lens).code.find? (fun f => f.len == e.len && f.val == e.val) with
  | none =>
    have := List.find?_eq_none.mp hf e he
    simp at this
  | some f =>
    have hpair := List.find?_some hf
    simp only [Bool.and_eq_true, beq_iff_eq] at hpair
    rw [Table.lookup, hf, build_entry_inj (List.mem_of_find?_eq_some hf) he hpair.1 hpair.2, Option.map_some]

end

/-- Settles O5: an entry is fixed by its symbol (`build_entry`), and its pair fixes the symbol by its rank. -/
theorem canonicalCodes : Obligations.CanonicalCodes := by
  refine fun lens => ⟨fun s l hs hl => ?_, fun e he => ?_, fun e he f hf => build_entry_inj he hf⟩
  · exact build_lookup (List.mem_of_find?_eq_some (build_find_sym hs hl))
  · obtain ⟨hlen, hpos, -⟩ := build_entry he
    exact ⟨e.len, hlen, hpos, rfl⟩

/-! ## The Kraft sum bounds the codes -/

/-- The part of the Kraft sum that lengths 1 to `l` make up, in units of `2^-L`. -/
def kraftUpTo (lens : List Nat) (L l : Nat) : Nat := (lens.map fun a => if a = 0 ∨ l < a then 0 else 2 ^ (L - a)).sum

theorem kraftUpTo_zero (lens : List Nat) (L : Nat) : kraftUpTo lens L 0 = 0 :=
  List.sum_eq_zero fun x hx => by
    obtain ⟨a, -, rfl⟩ := List.mem_map.mp hx
    exact if_pos (Nat.eq_zero_or_pos a)

/-- The symbols of the next length add one unit of that length each. -/
theorem kraftUpTo_succ (lens : List Nat) (L l : Nat) :
    kraftUpTo lens L (l + 1) = kraftUpTo lens L l + codeCount lens (l + 1) * 2 ^ (L - (l + 1)) := by
  induction lens with
  | nil => simp [kraftUpTo, codeCount]
  | cons a lens ih =>
    simp only [kraftUpTo, codeCount, List.map_cons, List.sum_cons, List.countP_cons] at ih ⊢
    rw [ih, Nat.add_mul]
    rcases Nat.lt_trichotomy a (l + 1) with h | rfl | h
    · have hnot : ¬ l + 1 < a ∧ ¬ l < a := by omega
      simp only [hnot, beq_iff_eq, h.ne, if_false]
      omega
    · simp only [Nat.succ_ne_zero, lt_irrefl, l.lt_succ_self, beq_self_eq_true, or_self, or_true, if_true, if_false]
      omega
    · have hnext : a = 0 ∨ l < a := by omega
      simp [h, hnext, h.ne']

theorem kraftUpTo_le_kraftSum (lens : List Nat) (l : Nat) : kraftUpTo lens (maxLen lens) l ≤ kraftSum lens := by
  refine List.sum_le_sum fun a _ => ?_
  by_cases h : a = 0
  · simp [h]
  · split <;> simp

/-- FIRST of a length counts the codes of the shorter lengths, in units of that length (R142). -/
theorem firstCode_succ_mul {lens : List Nat} {L l : Nat} (hl : l + 1 ≤ L) :
    firstCode lens (l + 1) * 2 ^ (L - (l + 1)) = kraftUpTo lens L l := by
  induction l with
  | zero => rw [kraftUpTo_zero, firstCode, Nat.zero_mul]
  | succ l ih =>
    have hpow : 2 * 2 ^ (L - (l + 2)) = 2 ^ (L - (l + 1)) := by
      rw [← Nat.pow_succ']
      congr 1
      omega
    calc firstCode lens (l + 2) * 2 ^ (L - (l + 2))
        = (firstCode lens (l + 1) + codeCount lens (l + 1)) * 2 ^ (L - (l + 1)) := by
          rw [firstCode, Nat.mul_assoc, hpow]
      _ = kraftUpTo lens L (l + 1) := by
          rw [kraftUpTo_succ, Nat.add_mul, ih (by omega)]

/-- Under R148's condition the codes of a length end at `2^l` at the latest. -/
theorem firstCode_add_codeCount_le {lens : List Nat} (hk : KraftOk lens) {l : Nat} (hl : 0 < l) (hmax : l ≤ maxLen lens) :
    firstCode lens l + codeCount lens l ≤ 2 ^ l := by
  obtain ⟨l, rfl⟩ := Nat.exists_eq_succ_of_ne_zero hl.ne'
  refine Nat.le_of_mul_le_mul_right (c := 2 ^ (maxLen lens - (l + 1))) ?_ (by positivity)
  calc (firstCode lens (l + 1) + codeCount lens (l + 1)) * 2 ^ (maxLen lens - (l + 1))
      = kraftUpTo lens (maxLen lens) (l + 1) := by rw [Nat.add_mul, firstCode_succ_mul hmax, kraftUpTo_succ]
    _ ≤ kraftSum lens := kraftUpTo_le_kraftSum lens _
    _ ≤ 2 ^ maxLen lens := hk
    _ = 2 ^ (l + 1) * 2 ^ (maxLen lens - (l + 1)) := by rw [← Nat.pow_add, Nat.add_sub_cancel' hmax]

/-- Under R148's condition the code of a used symbol fits its length. -/
theorem code_lt {lens : List Nat} (hk : KraftOk lens) {s l : Nat} (hs : lens[s]? = some l) (hl : 0 < l) :
    firstCode lens l + (lens.take s).countP (· == l) < 2 ^ l := by
  have hrank := countP_take_lt_codeCount hs
  have hbound := firstCode_add_codeCount_le hk hl (le_maxLen (List.mem_of_getElem? hs))
  omega

/-! ## No code begins another -/

/-- The codes of a longer length begin after every continuation of the shorter ones (R142). -/
theorem firstCode_add_codeCount_mul_le (lens : List Nat) (l k : Nat) :
    (firstCode lens (l + 1) + codeCount lens (l + 1)) * 2 ^ (k + 1) ≤ firstCode lens (l + 1 + (k + 1)) := by
  induction k with
  | zero => exact le_rfl
  | succ k ih =>
    rw [Nat.pow_succ, ← Nat.mul_assoc]
    exact Nat.mul_le_mul_right 2 (ih.trans (Nat.le_add_right _ _))

/-- Two codes of one length that begin the same bits are the same. -/
theorem bitsMsb_eq_of_prefix {n v w : Nat} (hv : v < 2 ^ n) (hw : w < 2 ^ n) {bits : List Bool}
    (h : bitsMsb n v <+: bits) (h' : bitsMsb n w <+: bits) : v = w := by
  have hlen : (bitsMsb n v).length = (bitsMsb n w).length := by rw [bitsMsb_length, bitsMsb_length]
  exact bitsMsb_inj hv hw ((List.prefix_of_prefix_length_le h h' hlen.le).eq_of_length hlen)

/-- The leading part of a longer code is past every code of the shorter length. -/
theorem build_val_lt_lead {lens : List Nat} {e f : CodeEntry} (he : e ∈ (build lens).code) (hf : f ∈ (build lens).code) {k : Nat}
    (hlen : f.len = e.len + (k + 1)) : e.val < f.val / 2 ^ (k + 1) := by
  obtain ⟨hes, hpos, hev⟩ := build_entry he
  obtain ⟨-, -, hfv⟩ := build_entry hf
  obtain ⟨l, hl⟩ := Nat.exists_eq_succ_of_ne_zero hpos.ne'
  calc e.val
      < firstCode lens e.len + codeCount lens e.len := by
        rw [hev]; exact Nat.add_lt_add_left (countP_take_lt_codeCount hes) _
    _ ≤ f.val / 2 ^ (k + 1) := by
        rw [Nat.le_div_iff_mul_le (by positivity), hfv, hlen, hl]
        exact (firstCode_add_codeCount_mul_le lens l k).trans (Nat.le_add_right _ _)

theorem build_fits {lens : List Nat} (hk : KraftOk lens) {e : CodeEntry} (he : e ∈ (build lens).code) :
    1 ≤ e.len ∧ e.len ≤ maxLen lens ∧ e.val < 2 ^ e.len := by
  obtain ⟨hlen, hpos, hval⟩ := build_entry he
  exact ⟨hpos, le_maxLen (List.mem_of_getElem? hlen), hval ▸ code_lt hk hlen hpos⟩

/-- R148: where a code begins another, its value is the other's leading part, so the lengths are the same and the entries too. -/
theorem build_prefixFree {lens : List Nat} (hk : KraftOk lens) : PrefixFree (build lens) where
  fits _ he := build_fits hk he
  noPrefix e he f hf hpre := by
    obtain ⟨-, -, hefits⟩ := build_fits hk he
    obtain ⟨-, -, hffits⟩ := build_fits hk hf
    have hle : e.len ≤ f.len := by simpa [bitsMsb_length] using hpre.length_le
    obtain ⟨k, hlen⟩ := Nat.exists_eq_add_of_le hle
    rw [hlen] at hpre hffits
    have hlead : e.val = f.val / 2 ^ k := by
      refine bitsMsb_eq_of_prefix hefits ?_ hpre (bitsMsb_prefix e.len k f.val)
      rwa [Nat.div_lt_iff_lt_mul (by positivity), ← Nat.pow_add]
    cases k with
    | zero => exact build_entry_inj he hf hlen.symm (by simpa using hlead)
    | succ k => exact absurd hlead (build_val_lt_lead he hf hlen).ne

/-- Settles O6: FIRST grows as the Kraft sum does, so the codes fit their lengths (`code_lt`) and none begins another
(`build_prefixFree`); the decoder reads back such codes and consumes nothing else. -/
theorem kraftPrefixFree : Obligations.KraftPrefixFree := by
  refine fun lens hk => ⟨build_prefixFree hk, fun s l hs hl => ⟨_, code_lt hk hs hl, build_codeBits hs hl⟩,
    fun s bits rest => ⟨huffDecode_build_ok, ?_⟩⟩
  rintro ⟨code, hcode, rfl⟩
  exact huffDecode_codeBits (build_prefixFree hk) hcode rest

/-! ## The decoder on any table -/

/-- One more bit read is the code's next (20_memory.md R76). -/
theorem bitsMsb_append_bit (m v : Nat) (b : Bool) : bitsMsb (m + 1) (2 * v + b.toNat) = bitsMsb m v ++ [b] := by
  have hdiv : (2 * v + b.toNat) / 2 = v := by have := b.toNat_le; omega
  have hbit : ((2 * v + b.toNat) % 2 == 1) = b := by cases b <;> simp
  rw [bitsMsb_succ', hdiv, hbit]

theorem candidate_lt {m v : Nat} (hv : v < 2 ^ m) (b : Bool) : 2 * v + b.toNat < 2 ^ (m + 1) := by
  have := b.toNat_le
  rw [Nat.pow_succ]
  omega

/-- The pair `(l, w)` is the shortest match of `T` in `bits` among the lengths above `m`, and `rest` follows it. -/
structure ShortestMatch (T : Table) (m : Nat) (bits rest : List Bool) (sym l w : Nat) : Prop where
  above : m < l
  lookup : T.lookup l w = some sym
  spells : bits = bitsMsb l w ++ rest
  shortest : ∀ j u, m < j → j < l → bitsMsb j u <+: bits → u < 2 ^ j → T.lookup j u = none

/-- A symbol the loop returns is the shortest match in the candidate's bits and those still to read (R145). -/
theorem huffLoop_shortestMatch {T : Table} {n m v sym : Nat} {bits rest : List Bool} (hv : v < 2 ^ m)
    (h : huffLoop listSource T n (m + 1) v bits = .ok sym rest) :
    ∃ l w, l ≤ m + n ∧ ShortestMatch T m (bitsMsb m v ++ bits) rest sym l w := by
  induction n generalizing m v bits with
  | zero => cases h
  | succ n ih =>
    cases bits with
    | nil => cases h
    | cons b bits =>
      rw [huffLoop, listSource_bit_cons, Rd.bind_ok] at h
      have hbits : bitsMsb m v ++ b :: bits = bitsMsb (m + 1) (2 * v + b.toNat) ++ bits := by
        rw [bitsMsb_append_bit, List.append_assoc, List.singleton_append]
      have hw := candidate_lt hv b
      rw [hbits]
      split at h
      · next hl =>
        cases h
        exact ⟨m + 1, _, by omega, m.lt_succ_self, hl, rfl, fun j _ hj hj' => by omega⟩
      · next hl =>
        obtain ⟨l, w, hle, hm⟩ := ih hw h
        refine ⟨l, w, by omega, Nat.lt_of_succ_lt hm.above, hm.lookup, hm.spells, fun j u hj hjl hpre hu => ?_⟩
        rcases Nat.eq_or_lt_of_le (Nat.succ_le_of_lt hj) with rfl | hj
        · rwa [bitsMsb_eq_of_prefix hu hw hpre (List.prefix_append _ _)]
        · exact hm.shortest j u hj hjl hpre hu

/-- The loop without a match reads one bit for each length (R146). -/
theorem huffLoop_noCode {T : Table} {n l v : Nat} {bits rest : List Bool}
    (h : huffLoop listSource T n l v bits = .err .noCode rest) : ∃ p, p.length = n ∧ bits = p ++ rest := by
  induction n generalizing l v bits with
  | zero => cases h; exact ⟨[], rfl, rfl⟩
  | succ n ih =>
    cases bits with
    | nil => cases h
    | cons b bits =>
      rw [huffLoop, listSource_bit_cons, Rd.bind_ok] at h
      split at h
      · cases h
      · obtain ⟨p, rfl, rfl⟩ := ih h
        exact ⟨b :: p, rfl, rfl⟩

/-- The loop runs out of input only with fewer bits than lengths left, and reads them all (R147). -/
theorem huffLoop_endOfInput {T : Table} {n l v : Nat} {bits rest : List Bool}
    (h : huffLoop listSource T n l v bits = .err .endOfInput rest) : bits.length < n ∧ rest = [] := by
  induction n generalizing l v bits with
  | zero => cases h
  | succ n ih =>
    cases bits with
    | nil => cases h; exact ⟨n.succ_pos, rfl⟩
    | cons b bits =>
      rw [huffLoop, listSource_bit_cons, Rd.bind_ok] at h
      split at h
      · cases h
      · obtain ⟨hlen, rfl⟩ := ih h
        exact ⟨Nat.succ_lt_succ hlen, rfl⟩

/-- Settles O7: each outcome of the loop, by induction over the lengths left. -/
theorem huffDecodeConsumes : Obligations.HuffDecodeConsumes := by
  refine fun T bits rest => ⟨fun s h => ?_, huffLoop_noCode, huffLoop_endOfInput⟩
  obtain ⟨l, w, hle, hm⟩ := huffLoop_shortestMatch (m := 0) Nat.one_pos h
  exact ⟨l, w, hm.above, by omega, hm.lookup, hm.spells, hm.shortest⟩

/-! ## Words of the fixed codes -/

/-- The tables of a FIXED block; it has no code-length codes. -/
def fixedTables : Codes := { ll := fixedLL, dist := fixedD, cl := Machine.emptyTable }

theorem kraftOk_fixedLLLens : KraftOk fixedLLLens := by unfold KraftOk; decide +kernel

theorem kraftOk_fixedD : KraftOk (List.replicate 32 5) := by unfold KraftOk; decide +kernel

theorem fixedTables_prefixFree : fixedTables.PrefixFree where
  ll := build_prefixFree kraftOk_fixedLLLens
  dist := build_prefixFree kraftOk_fixedD
  cl := ⟨nofun, nofun⟩

/-- An encoding in the fixed tables decodes to its instruction, with no bit left. -/
theorem decode_encode_fixed (i : Instr) {bits : List Bool} (he : encode fixedTables i = some bits) :
    decode listSource (i.ctx fixedTables) bits = .ok i [] := by
  simpa using decode_encode fixedTables_prefixFree he []

/-- Settles O2: each word is its instruction's encoding, by the fixed codes of R109 and R45 (`fixedCodes`), and an encoding decodes
to its instruction (`decode_encode`). -/
theorem fixedWordsDecode : Obligations.FixedWordsDecode := by
  obtain ⟨h8, -, h7, -, h5⟩ := fixedCodes
  exact ⟨decode_encode_fixed (.lit 0x01) (symbolBits_eq_some.mpr ⟨_, h8 1 (by decide), rfl⟩),
    decode_encode_fixed (.blockHeader 1 1) rfl,
    decode_encode_fixed .eob (symbolBits_eq_some.mpr ⟨_, h7 256 (by decide) (by decide), rfl⟩),
    decode_encode_fixed .len258 (symbolBits_eq_some.mpr ⟨_, h7 258 (by decide) (by decide), rfl⟩),
    decode_encode_fixed (.dist4 1) (symbolBits_eq_some.mpr ⟨_, h5 4 (by decide), rfl⟩)⟩

end Sys2Proof
end
section
/-! SUPPORT. Blocks and their headers: what comes next in a block's phases, and what its headers, tokens and table rules write,
with the statements BlockHeaderDispatch, BlockTypes, StoredHeaderChecks, StoredBytesEmitted, DynamicHeaderCounts,
ClLengthsScattered, ClTokensAppend and TablesSelected. -/

namespace Sys2Proof.Machine

/-! ## The step of what is next -/

/-- With no row due, a running decode goes on with its phase's rule. -/
theorem nextOp_clear {s : State} (hb : s.phase.busy = true) (hr : s.row = .clear) : nextOp s = phaseOp s := by
  rw [nextOp, if_pos hb, hr]

theorem step_run {s : State} {i : Instr} (hh : s.host = []) (hn : nextOp s = .run i) : step s = exec i s := by
  simp only [step, agentStep, hh, coreStep, hn]

theorem step_micro {s : State} {m : Micro} (hh : s.host = []) (hn : nextOp s = .micro m) : step s = microStep m s := by
  simp only [step, agentStep, hh, coreStep, hn]

theorem step_fetch_err {s t : State} {c : Ctx} {e : Reject} (hh : s.host = []) (hn : nextOp s = .fetch c)
    (hf : fetch c s = .err e t) : step s = reject e t := by
  simp only [step, agentStep, hh, coreStep, hn, hf]

/-! ## The block header -/

/-- A block type's instruction by the value of BTYPE (42_blocks.md R160). -/
theorem exec_btypeInstr (t : BitVec 2) (s : State) :
    exec (btypeInstr t) s =
      if t = 0 then .next { s with phase := .stored, stage := .start }
      else if t = 1 then .next { s with phase := .fixed, stage := .start }
      else if t = 2 then .next { s with phase := .dynamic, stage := .start }
      else .next (raise .invalidBlockType s) := by
  obtain rfl | rfl | rfl | rfl : t = 0 ∨ t = 1 ∨ t = 2 ∨ t = 3 := by revert t; decide
  all_goals rfl

/-- After a latched header comes the instruction of its block type. -/
theorem step_dispatch {s : State} {t : BitVec 2} (hh : s.host = []) (hp : s.phase = .blockHeader) (hst : s.stage = .dispatch)
    (hr : s.row = .clear) (ht : s.btype = t) : step s = exec (btypeInstr t) s :=
  step_run hh (by rw [nextOp_clear (by rw [hp]; rfl) hr, phaseOp, hp, hst, ht])

theorem decode_blockHeader (f : BitVec 1) (t : BitVec 2) (rest : List Bool) :
    decode listSource .blockHeader (bitsLsb 1 f.toNat ++ bitsLsb 2 t.toNat ++ rest) = .ok (.blockHeader f t) rest := by
  simp [decode]

/-- A block header takes three bits. -/
theorem decode_blockHeader_short {bits : List Bool} (h : bits.length < 3) :
    decode listSource .blockHeader bits = .err .endOfInput [] := by
  rw [decode]
  by_cases h1 : bits.length < 1
  · rw [readBits_list_of_lt h1, Rd.bind_err]
  · obtain ⟨v, hv⟩ := readBits_list_of_le (Nat.le_of_not_lt h1)
    rw [hv, Rd.bind_ok, readBits_list_of_lt (by rw [List.length_drop]; omega), Rd.bind_err]

theorem fetch_err {c : Ctx} {s : State} {e : Reject} {rest : List Bool} (hw : InWritten s)
    (h : decode listSource c (pendingBits (tokenStart c s)) = .err e rest) :
    ∃ t, fetch c s = .err e t ∧ pendingBits t = rest := by
  have hm := fetch_matches c hw
  rw [h] at hm
  obtain ⟨t, hf, hp, -⟩ := hm
  exact ⟨t, hf, hp⟩

/-- Settles O16: the three bits decode to the header, whose step makes the dispatch of its BTYPE the next one. -/
theorem blockHeaderDispatch : Obligations.BlockHeaderDispatch := by
  refine ⟨fun _ _ _ => rfl, fun s hh hw hp hst hr => ?_⟩
  have hb : s.phase.busy = true := by rw [hp]; rfl
  have hn : nextOp s = .fetch .blockHeader := by rw [nextOp_clear hb hr, phaseOp, hp, hst]
  obtain ⟨p, c, n, hframe⟩ := fetch_frame_plain .blockHeader s nofun
  refine ⟨fun f t rest hbits => ?_, fun hlen => ?_⟩
  · obtain ⟨u, hf, hrest⟩ := fetch_ok (c := .blockHeader) hw (hbits ▸ decode_blockHeader f t rest)
    rw [hf, Rd.state_ok] at hframe
    subst hframe
    refine ⟨_, step_fetch hh hn hf, rfl, rfl, hrest, rfl, ?_⟩
    rw [← exec_btypeInstr]
    exact step_dispatch hh hp rfl hr rfl
  · obtain ⟨u, hf, -⟩ := fetch_err (c := .blockHeader) hw (decode_blockHeader_short hlen)
    rw [hf, Rd.state_err] at hframe
    subst hframe
    exact ⟨_, step_fetch_err hh hn hf, rfl, rfl, rfl, rfl⟩

/-- Settles O17: each block type's instruction is an update of PHASE, or a raise. -/
theorem blockTypes : Obligations.BlockTypes := fun _ => ⟨rfl, rfl, rfl, rfl⟩

/-! ## Stored blocks -/

/-- The complement of LEN as a number (30_encoding.md R108). -/
theorem eq_complement16_iff {len nlen : BitVec 16} : nlen = complement16 len ↔ nlen.toNat = 0xFFFF - len.toNat := by
  have hlen := len.isLt
  rw [complement16, ← BitVec.toNat_inj, BitVec.toNat_sub_of_le (BitVec.le_def.mpr (Nat.le_of_lt_succ hlen))]
  rfl

/-- Settles O18: the check compares NLEN with the complement of LEN. -/
theorem storedHeaderChecks : Obligations.StoredHeaderChecks := by
  refine fun len nlen s => ⟨fun h hl => ?_, fun hn hl => ?_, fun h => if_neg (mt eq_complement16_iff.mp h)⟩
  · exact (if_pos (eq_complement16_iff.mpr h)).trans (if_neg hl)
  · exact (if_pos (eq_complement16_iff.mpr (by rw [hn, hl]; rfl))).trans (if_pos hl)

/-- Eight pending bits are read as one byte, by the bit reader's registers only. -/
theorem readBits_byte {s : State} (hw : InWritten s) {b : Byte} {rest : List Bool}
    (h : pendingBits s = bitsLsb 8 b.toNat ++ rest) :
    ∃ t, readBits stateSource 8 s = .ok b.toNat t ∧ pendingBits t = rest ∧ SameButReader s t := by
  have hm := readBits_matches 8 s hw
  rw [h, readBits_bitVec] at hm
  obtain ⟨t, ht, hrest, -⟩ := hm
  have hframe := readBits_sameButReader 8 s
  rw [ht] at hframe
  exact ⟨t, ht, hrest, hframe⟩

/-- Settles O19: the stage of a stored block says whether a byte is to be read or to be counted. -/
theorem storedBytesEmitted : Obligations.StoredBytesEmitted := by
  intro s hh hp hr
  have hb : s.phase.busy = true := by rw [hp]; rfl
  have hn : nextOp s = phaseOp s := nextOp_clear hb hr
  refine ⟨fun hst hw b rest hbits => ?_, fun hst hrem => ?_, fun hst hrem => ?_⟩
  · obtain ⟨t, ht, hrest, hframe⟩ := readBits_byte hw hbits
    refine ⟨t, hrest, ?_, hframe⟩
    rw [step_micro (m := .rawByte) hh (by rw [hn, phaseOp, hp, hst]), microStep, rawByte, ht]
    simp only [BitVec.ofNat_toNat, BitVec.setWidth_eq]
  · rw [step_micro (m := .rawNext) hh (by rw [hn, phaseOp, hp, hst]), microStep, rawNext, if_neg (by omega)]
  · rw [step_micro (m := .rawNext) hh (by rw [hn, phaseOp, hp, hst]), microStep, rawNext, if_pos (by omega), hrem, endOfBlock]

/-! ## The headers of a dynamic block -/

/-- Settles O20: the biases are added to the fields as numbers. -/
theorem dynamicHeaderCounts : Obligations.DynamicHeaderCounts := fun _ _ _ _ => rfl

/-- `PERM` names positions of CL_LENS, each once (30_encoding.md R104). -/
theorem clPerm_lt : ∀ k < nCL, clPerm.getD k 0 < nCL := by decide

theorem clPerm_inj : ∀ j < nCL, ∀ k < nCL, clPerm.getD j 0 = clPerm.getD k 0 → j = k := by decide

theorem setClLen_same {lens : List Nat} (hl : lens.length = nCL) {k : Nat} (hk : k < nCL) (v : Nat) :
    (setClLen lens k v)[clPerm.getD k 0]? = some v :=
  List.getElem?_set_self (hl ▸ clPerm_lt k hk)

theorem setClLen_other {lens : List Nat} {j k : Nat} (hj : j < nCL) (hk : k < nCL) (hne : j ≠ k) (v : Nat) :
    (setClLen lens k v)[clPerm.getD j 0]? = lens[clPerm.getD j 0]? :=
  List.getElem?_set_ne fun e => hne (clPerm_inj j hj k hk e.symm)

/-- Values from index `k` on leave the positions of the other indices alone. -/
theorem scatterFrom_outside {lens : List Nat} {vals : List (BitVec 3)} {k j : Nat} (hk : k + vals.length ≤ nCL) (hj : j < nCL)
    (h : j < k ∨ k + vals.length ≤ j) : (scatterFrom lens k vals)[clPerm.getD j 0]? = lens[clPerm.getD j 0]? := by
  induction vals generalizing lens k with
  | nil => rfl
  | cons v vals ih =>
    rw [List.length_cons] at hk h
    rw [scatterFrom, ih (by omega) (by omega), setClLen_other hj (by omega) (by omega)]

/-- The `i`-th value from index `k` on goes to the position of index `k + i`. -/
theorem scatterFrom_at {lens : List Nat} (hl : lens.length = nCL) {vals : List (BitVec 3)} {k i : Nat} {v : BitVec 3}
    (hk : k + vals.length ≤ nCL) (h : vals[i]? = some v) :
    (scatterFrom lens k vals)[clPerm.getD (k + i) 0]? = some v.toNat := by
  induction vals generalizing lens k i with
  | nil => cases h
  | cons w vals ih =>
    rw [List.length_cons] at hk
    rw [scatterFrom]
    cases i with
    | zero =>
      obtain rfl : w = v := by simpa using h
      rw [scatterFrom_outside (by omega) (by omega) (by omega)]
      exact setClLen_same hl (by omega) _
    | succ i =>
      rw [Nat.add_comm i 1, ← Nat.add_assoc]
      exact ih (List.length_set.trans hl) (by omega) (by simpa using h)

/-- Settles O21: each value is written at its own position, over zeros. -/
theorem clLengthsScattered : Obligations.ClLengthsScattered := by
  intro vals s hwf
  obtain ⟨-, hle⟩ : 4 ≤ vals.length ∧ 0 + vals.length ≤ nCL := by simpa [Instr.wellFormed, nCL] using hwf
  refine ⟨_, rfl, (scatterFrom_ok (.zeros nCL 7) 0 vals).1, fun k v hv => ?_, fun k hk hlt => ?_, rfl, rfl⟩
  · have := scatterFrom_at (List.length_replicate (a := 0)) hle hv
    rwa [Nat.zero_add] at this
  · refine (scatterFrom_outside hle hlt (.inr (by omega))).trans ?_
    exact List.getElem?_replicate_of_lt (clPerm_lt k hlt)

/-! ## Code-length tokens -/

/-- A run of lengths fills the next entries of LENSEQ, as far as there are any. -/
theorem pushLens_lenSeq_getElem? (n v : Nat) (s : State) (j : Nat) :
    (pushLens n v s).lenSeq[j]?
      = if s.nlens ≤ j ∧ j < s.nlens + n ∧ j < s.lenSeq.length then some v else s.lenSeq[j]? := by
  induction n generalizing s with
  | zero => rw [if_neg (by omega)]; rfl
  | succ n ih =>
    rw [pushLens, ih, pushLen_lenSeq, pushLen_nlens, List.length_set]
    by_cases hj : s.nlens = j
    · subst hj
      rw [if_neg (by omega), List.getElem?_set_self']
      split
      · next h => simp [List.getElem?_eq_getElem h.2.2]
      · next h => simp [List.getElem?_eq_none (by omega : s.lenSeq.length ≤ s.nlens)]
    · rw [List.getElem?_set_ne hj]
      exact if_congr (by omega) rfl rfl

/-- An instruction that is a run of lengths has a run's effect (42_blocks.md R171 to R173). -/
theorem runEffect_of_runLens {i : Instr} {r v : Nat} {s : State} (h : exec i s = runLens r v s) : RunEffect i r v s := by
  refine ⟨fun hgt => h.trans (if_pos hgt), fun hle => ⟨_, h.trans (if_neg (by omega)), ?_⟩⟩
  exact ⟨pushLens_nlens r v s, pushLens_lenSeq_getElem? r v s, by rw [pushLens_eq]⟩

/-- Settles O22: a repeat token is a run of lengths, but for a CL_REP with no previous length. -/
theorem clTokensAppend : Obligations.ClTokensAppend := fun _ =>
  ⟨fun _ => rfl, exec_clRep_first, fun h0 _ => runEffect_of_runLens (if_neg h0), fun _ => runEffect_of_runLens rfl,
    fun _ => runEffect_of_runLens rfl⟩

/-! ## The tables -/

/-- A part of `n` lengths, filled up with zeros (42_blocks.md R174). -/
theorem take_zeros_getElem? {l : List Nat} {n m i : Nat} (hn : n ≤ l.length) (hi : i < n + m) :
    (l.take n ++ List.replicate m 0)[i]? = if i < n then l[i]? else some 0 := by
  have hlen : (l.take n).length = n := List.length_take_of_le hn
  split
  · next h => rw [List.getElem?_append_left (hlen.symm ▸ h), List.getElem?_take_of_lt h]
  · next h => rw [List.getElem?_append_right (by omega), hlen, List.getElem?_replicate_of_lt (by omega)]

theorem splitLL_getElem? {s : State} (hs : TableInv s) {i : Nat} (hi : i < nLL) :
    (splitLL s)[i]? = if i < s.hlit then s.lenSeq[i]? else some 0 := by
  have hlen := hs.lenSeq_ok.1
  have hlit := hs.header_le.1
  simp only [nLL] at hi hlit
  exact take_zeros_getElem? (by omega) (by simp only [nLL]; omega)

theorem splitD_getElem? {s : State} (hs : TableInv s) {j : Nat} (hj : j < nD) :
    (splitD s)[j]? = if j < s.hdist then s.lenSeq[s.hlit + j]? else some 0 := by
  have hlen := hs.lenSeq_ok.1
  obtain ⟨hlit, hdist, -⟩ := hs.header_le
  simp only [nLL, nD] at hj hlit hdist
  rw [← List.getElem?_drop]
  exact take_zeros_getElem? (by rw [List.length_drop]; omega) (by simp only [nD]; omega)

/-- Settles O23: each of the three rules is the one that is next, and the split arrays are LENSEQ's two parts. -/
theorem tablesSelected : Obligations.TablesSelected := by
  refine ⟨fun s hh hp hr => ?_, fun s hh hp hst hr => ?_, fun s hs hh hp hst hr hlen => ?_⟩
  · exact step_micro (m := .selectFixed) hh (by rw [nextOp_clear (by rw [hp]; rfl) hr, phaseOp, hp])
  · exact step_micro (m := .buildCl) hh (by rw [nextOp_clear (by rw [hp]; rfl) hr, phaseOp, hp, hst])
  · have hn : nextOp s = .micro .buildTables := by
      rw [nextOp_clear (by rw [hp]; rfl) hr, phaseOp, hp, hst]
      exact if_neg (by omega)
    obtain ⟨hlit, hdist, -⟩ := hs.header_le
    exact ⟨_, step_micro hh hn, fun _ => splitLL_getElem? hs, fun _ => splitD_getElem? hs,
      (splitLL_ok hs.lenSeq_ok hlit).1, (splitD_ok hs.lenSeq_ok hlit hdist).1, rfl, rfl, rfl, rfl, rfl⟩

end Sys2Proof.Machine
end
section
/-! SUPPORT. Symbols and the window: what an emitted byte and a list of them leave in the window and what a copy repeats, with the
statements EobEndsBlock, LiteralEmitted, InvalidSymbolsRaise, CopyRepeats, CopyStepEmits and WindowHoldsLastBytes. -/

namespace Sys2Proof.Machine

/-! ## Window addresses

WPOS counts modulo 32768, so cells at offsets below 32768 from it are told apart by their offsets. -/

theorem wpos_add_succ (w : BitVec 15) (k : Nat) : w + 1 + BitVec.ofNat 15 k = w + BitVec.ofNat 15 (k + 1) := by
  rw [Nat.add_comm k 1, BitVec.ofNat_add, ← BitVec.add_assoc]
  rfl

theorem wpos_add_ne {w : BitVec 15} {k : Nat} (h1 : 1 ≤ k) (hk : k < wsize) : w + BitVec.ofNat 15 k ≠ w := by
  simp only [wsize] at hk
  bv_omega

/-- Going `d` back and then `k` of the way forward ends at WPOS exactly after the whole way. -/
theorem wpos_sub_add_eq_iff {w : BitVec 15} {d k : Nat} (h1 : 1 ≤ k) (hk : k ≤ d) (hd : d ≤ wsize) :
    w - BitVec.ofNat 15 d + BitVec.ofNat 15 k = w ↔ k = d := by
  simp only [wsize] at hd
  bv_omega

/-- `WinRead`'s index as a number (20_memory.md R89). -/
theorem winIndex_eq (d : Nat) (s : State) : winIndex d s = (s.wpos.toNat + 32768 - d % 32768) % 32768 := by
  rw [winIndex, BitVec.toNat_sub, BitVec.toNat_ofNat]
  omega

/-! ## One emitted byte -/

theorem emit_win_wf (b : Byte) {s : State} (hs : Memory.wf s.win) : Memory.wf (emit b s).win := by
  rw [emit_win]
  exact Memory.write_wf s.win _ b hs

/-- Emitting writes the cell at WPOS and no other (20_memory.md R88). -/
theorem emit_win_read (b : Byte) {s : State} (hs : Memory.wf s.win) (x : BitVec 15) :
    (emit b s).win.read x.toNat = if x = s.wpos then some b else s.win.read x.toNat := by
  simp only [emit_win, Memory.read_write s.win _ b hs, BitVec.toNat_inj]

/-- Beside the window and its counters, emitting writes the row assembler's CUR, ROWPOS and due row only. -/
theorem emit_frame (b : Byte) (s : State) :
    { emit b s with win := s.win, wpos := s.wpos, produced := s.produced, cur := s.cur, rowPos := s.rowPos, row := s.row } = s := by
  obtain ⟨-, h⟩ | ⟨-, -, h⟩ | ⟨-, -, h⟩ := rowAccept_cases b (pushWindow b s) <;> rw [emit, h] <;> rfl

/-- The byte just emitted is the one at distance 1. -/
theorem winRead_emit_one (b : Byte) {s : State} (hs : Memory.wf s.win) : winRead 1 (emit b s) = some b := by
  have hidx : s.wpos + 1 - BitVec.ofNat 15 1 = s.wpos := BitVec.add_sub_cancel _ _
  rw [winRead, winIndex, emit_win_read b hs, emit_wpos, if_pos hidx]

/-- Each emitted byte moves the bytes before it one further back, until the window's size is reached. -/
theorem winRead_emit_succ (b : Byte) {s : State} (hs : Memory.wf s.win) {d : Nat} (h1 : 1 ≤ d) (hd : d < wsize) :
    winRead (d + 1) (emit b s) = winRead d s := by
  have hidx : s.wpos + 1 - BitVec.ofNat 15 (d + 1) = s.wpos - BitVec.ofNat 15 d := by bv_omega
  have hne : s.wpos - BitVec.ofNat 15 d ≠ s.wpos := by
    simp only [wsize] at hd
    bv_omega
  rw [winRead, winIndex, emit_win_read b hs, emit_wpos, hidx, if_neg hne, winRead, winIndex]

/-! ## A list of emitted bytes -/

theorem emitAll_concat (bytes : List Byte) (b : Byte) (s : State) : emitAll (bytes ++ [b]) s = emit b (emitAll bytes s) :=
  List.foldl_concat ..

theorem emitAll_win_wf (bytes : List Byte) {s : State} (hs : Memory.wf s.win) : Memory.wf (emitAll bytes s).win := by
  induction bytes generalizing s with
  | nil => exact hs
  | cons b bytes ih => exact ih (emit_win_wf b hs)

/-- Settles O32, by induction over the bytes from the last one back: it stands at distance 1, and puts every byte before it one
further back. -/
theorem windowHoldsLastBytes : Obligations.WindowHoldsLastBytes := by
  intro bytes s d hs h1 hlen hd
  induction bytes using List.reverseRecOn generalizing d with
  | nil => exact absurd hlen (Nat.not_le.mpr h1)
  | append_singleton bytes b ih =>
    have hwf := emitAll_win_wf bytes hs
    rw [List.length_append, List.length_singleton] at hlen
    rw [emitAll_concat, List.length_append, List.length_singleton]
    obtain _ | _ | k := d
    · exact absurd h1 (Nat.not_succ_le_zero 0)
    · rw [winRead_emit_one b hwf, Nat.add_sub_cancel, List.getElem?_concat_length]
    · rw [winRead_emit_succ b hwf (Nat.le_add_left ..) hd, ih (k + 1) (Nat.le_add_left ..) (by omega) (by omega),
        Nat.add_sub_add_right, List.getElem?_append_left (by omega)]

/-! ## Literals, ends of blocks and invalid symbols -/

/-- Settles O25: LIT emits its byte. -/
theorem literalEmitted : Obligations.LiteralEmitted := by
  intro v s hs
  refine ⟨emit v s, rfl, ?_, fun a ha => ?_, ?_, emit_produced v s, emit_frame v s⟩
  · rw [emit_win, Memory.read_write_same s.win _ v hs]
  · rw [emit_win, Memory.read_write_other s.win _ v hs a ha]
  · rw [emit_wpos, BitVec.toNat_add]
    rfl

/-- Settles O24: EOB is EndOfBlock. -/
theorem eobEndsBlock : Obligations.EobEndsBlock := fun _ => rfl

/-- Settles O29: the invalid symbols have no row in the tables of extra bits, and their instructions raise. -/
theorem invalidSymbolsRaise : Obligations.InvalidSymbolsRaise :=
  ⟨⟨rfl, rfl, rfl, rfl⟩, fun _ => ⟨rfl, rfl, rfl, rfl⟩⟩

/-! ## Copies -/

/-- The stage of a copy with `n` bytes left to go: after its last byte the next token is read. -/
def copyStage (n d : Nat) : Stage := if n = 0 then .start else .copy n d

/-- One iteration of a copy emits the byte at distance `d` (43_symbols_lz77.md R269). -/
theorem copyByte_emits {s : State} {n d : Nat} {b : Byte} (hst : s.stage = .copy (n + 1) d) (hb : winRead d s = some b) :
    copyByte s = .next (emit b { s with stage := copyStage n d }) := by
  simp only [copyByte, hst, hb, copyStage]

/-- Settles O31: with no row due, a pending copy is what is next, and WinRead's index is the cell of the statement. -/
theorem copyStepEmits : Obligations.CopyStepEmits := by
  intro s n d b hh hp hr hst hb
  have hn : nextOp s = .micro .copyByte := by rw [nextOp_clear (by rw [hp]; rfl) hr, phaseOp, hp, hst]
  rw [← winIndex_eq] at hb
  exact (step_micro hh hn).trans (copyByte_emits hst hb)

/-- What `n` iterations of a copy at distance `d` make of `s`: the cells from WPOS on repeat the `d` bytes before it. -/
structure Copied (n d : Nat) (s t : State) : Prop where
  stage_eq : t.stage = .start
  produced_eq : t.produced = s.produced + n
  wpos_eq : t.wpos = s.wpos + BitVec.ofNat 15 n
  repeated : ∀ k, k < n → t.win.read (s.wpos + BitVec.ofNat 15 k).toNat
    = s.win.read (s.wpos - BitVec.ofNat 15 d + BitVec.ofNat 15 (k % d)).toNat
  outside : ∀ a, (∀ k, k < n → a ≠ (s.wpos + BitVec.ofNat 15 k).toNat) → t.win.read a = s.win.read a

theorem Copied.zero {d : Nat} {s : State} (hst : s.stage = .start) : Copied 0 d s s where
  stage_eq := hst
  produced_eq := rfl
  wpos_eq := (BitVec.add_zero s.wpos).symm
  repeated _ hk := absurd hk (Nat.not_lt_zero _)
  outside _ _ := rfl

/-- After one byte of the copy the last `d` bytes are the same ones, turned by one place: the byte just copied stands in for the
one that is now `d + 1` back. So each offset `k` of the rest reads what offset `k + 1` read before. -/
theorem read_after_copied {b : Byte} {s : State} {d : Nat} {g : Stage} (hs : Memory.wf s.win) (hb : winRead d s = some b)
    (h1 : 1 ≤ d) (hd : d ≤ wsize) (k : Nat) :
    (emit b { s with stage := g }).win.read (s.wpos + 1 - BitVec.ofNat 15 d + BitVec.ofNat 15 (k % d)).toNat
      = s.win.read (s.wpos - BitVec.ofNat 15 d + BitVec.ofNat 15 ((k + 1) % d)).toNat := by
  have hidx : s.wpos + 1 - BitVec.ofNat 15 d + BitVec.ofNat 15 (k % d)
      = s.wpos - BitVec.ofNat 15 d + BitVec.ofNat 15 (k % d + 1) := by bv_omega
  have hlt : k % d < d := Nat.mod_lt k h1
  have hmod : (k + 1) % d = (k % d + 1) % d := (Nat.mod_add_mod k d 1).symm
  rw [hidx, hmod, emit_win_read b (s := { s with stage := g }) hs]
  by_cases hwrap : k % d + 1 = d
  · rw [if_pos ((wpos_sub_add_eq_iff (Nat.le_add_left ..) hlt hd).mpr hwrap), hwrap, Nat.mod_self, BitVec.add_zero]
    exact hb.symm
  · rw [if_neg (mt (wpos_sub_add_eq_iff (Nat.le_add_left ..) hlt hd).mp hwrap), Nat.mod_eq_of_lt (Nat.lt_of_le_of_ne hlt hwrap)]

/-- A copied byte before `n` more: the rest never comes back to its cell, since the whole is no longer than the window. -/
theorem Copied.succ {n d : Nat} {b : Byte} {s t : State} {g : Stage} (hs : Memory.wf s.win) (hb : winRead d s = some b)
    (h1 : 1 ≤ d) (hd : d ≤ wsize) (hn : n < wsize) (h : Copied n d (emit b { s with stage := g }) t) : Copied (n + 1) d s t := by
  obtain ⟨hstage, hproduced, hwpos, hrepeated, houtside⟩ := h
  simp only [emit_produced, emit_wpos, wpos_add_succ] at hproduced hwpos hrepeated houtside
  refine ⟨hstage, by omega, hwpos, fun k hk => ?_, fun a ha => ?_⟩
  · cases k with
    | zero =>
      have hfresh : ∀ k, k < n → (s.wpos + BitVec.ofNat 15 0).toNat ≠ (s.wpos + BitVec.ofNat 15 (k + 1)).toNat :=
        fun k hk e => wpos_add_ne (Nat.le_add_left ..) (by omega) ((BitVec.eq_of_toNat_eq e).symm.trans (BitVec.add_zero _))
      rw [houtside _ hfresh, emit_win_read b (s := { s with stage := g }) hs, if_pos (BitVec.add_zero _), Nat.zero_mod,
        BitVec.add_zero]
      exact hb.symm
    | succ k => rw [hrepeated k (by omega), read_after_copied hs hb h1 hd]
  · have hcell : a ≠ s.wpos.toNat := fun e => ha 0 (Nat.succ_pos n) (e.trans (by rw [BitVec.add_zero]))
    rw [houtside a fun k hk => ha (k + 1) (by omega), emit_win, Memory.read_write_other s.win _ b hs a hcell]

/-- A copy within its bounds runs to its end: the window invariant gives every byte it reads a value, and each iteration keeps it. -/
theorem copyRun_copied {n d : Nat} {s : State} (hs : WindowOk s) (hst : s.stage = copyStage n d) (h1 : 1 ≤ d) (hd : d ≤ wsize)
    (hp : d ≤ s.produced) (hn : n ≤ wsize) : ∃ t, copyRun n s = .next t ∧ Copied n d s t := by
  induction n generalizing s with
  | zero => exact ⟨s, rfl, .zero hst⟩
  | succ n ih =>
    obtain ⟨b, hb⟩ := Option.isSome_iff_exists.mp (winRead_isSome hs.2 h1 hd hp)
    have hbounds : ∀ left e, copyStage n d = .copy left e → 1 ≤ e ∧ e ≤ wsize ∧ e ≤ s.produced := by
      intro left e hg
      rw [copyStage] at hg
      split at hg <;> cases hg
      exact ⟨h1, hd, hp⟩
    obtain ⟨t, hrun, ht⟩ := ih (emit_windowOk hs b hbounds) (emit_stage b _) (by rw [emit_produced]; exact Nat.le_succ_of_le hp)
      (Nat.le_of_succ_le hn)
    refine ⟨t, ?_, ht.succ hs.1 hb h1 hd hn⟩
    rw [copyRun, copyByte_emits hst hb]
    exact hrun

/-- Settles O30, by induction over the iterations: within its bounds a copy of up to 32768 bytes runs to its end. -/
theorem copyRepeats : Obligations.CopyRepeats := by
  intro s n d hm hs hst h1 hn
  obtain ⟨hd1, hd, hp⟩ := hs.copy_bounds n d hst
  have hstage : s.stage = copyStage n d := hst.trans (if_neg (by omega)).symm
  obtain ⟨t, hrun, ht⟩ := copyRun_copied ⟨hm.winWf, hs⟩ hstage hd1 hd hp (by simp only [wsize]; omega)
  exact ⟨t, hrun, ht.stage_eq, ht.produced_eq, ht.wpos_eq, ht.repeated, ht.outside⟩

end Sys2Proof.Machine
end
section
/-! SUPPORT. Filters: what a row gains when a byte is appended to it, on both sides of Defilter, and which neighbour PAETH takes,
with the statements FilterInverse, RowReconstructed, PredictorsExact and FilterInvalidRaises. -/

namespace Sys2Proof.Machine

/-! ## Rows grow by one byte

Defilter works in increasing index order, so a byte's neighbours are fixed by the part of the row up to it. With B at least 1 the
byte itself is no neighbour of its own. -/

/-- The predictor at index `i` of a reconstructed row (44_defilter.md R300). -/
def predAt (pred : Nat → Nat → Nat → Nat) (raw prev : List Byte) (bpp i : Nat) : Nat :=
  pred (leftByte raw bpp i) (prev.getD i 0).toNat (leftByte prev bpp i)

section
variable (pred : Nat → Nat → Nat → Nat) (row prev : List Byte) {bpp : Nat}

theorem defilterFrom_concat (bpp : Nat) (done : List Byte) (x : Byte) :
    defilterFrom pred bpp prev done (row ++ [x])
      = defilterFrom pred bpp prev done row ++ [defilterByte pred bpp prev (defilterFrom pred bpp prev done row) x] := by
  induction row generalizing done with
  | nil => rfl
  | cons y row ih => exact ih _

theorem defilter_length (bpp : Nat) : (defilter pred row prev bpp).length = row.length :=
  (defilterFrom_length pred bpp prev [] row).trans (Nat.zero_add _)

theorem defilterByte_eq (bpp : Nat) (x : Byte) :
    defilterByte pred bpp prev row x = x + BitVec.ofNat 8 (predAt pred row prev bpp row.length) := by
  rw [defilterByte, BitVec.ofNat_add, BitVec.ofNat_toNat, BitVec.setWidth_eq]
  rfl

theorem defilter_concat (bpp : Nat) (x : Byte) :
    defilter pred (row ++ [x]) prev bpp = defilter pred row prev bpp
      ++ [x + BitVec.ofNat 8 (predAt pred (defilter pred row prev bpp) prev bpp row.length)] := by
  rw [defilter, defilterFrom_concat, ← defilter, defilterByte_eq, defilter_length]

variable {row}

theorem leftByte_concat (hb : 1 ≤ bpp) (x : Byte) {i : Nat} (hi : i ≤ row.length) :
    leftByte (row ++ [x]) bpp i = leftByte row bpp i := by
  unfold leftByte
  split
  next hle => rw [List.getD_append _ _ _ _ (by omega)]
  next => rfl

theorem predAt_concat (hb : 1 ≤ bpp) (x : Byte) {i : Nat} (hi : i ≤ row.length) :
    predAt pred (row ++ [x]) prev bpp i = predAt pred row prev bpp i := by
  rw [predAt, leftByte_concat hb x hi, predAt]

variable (row)

theorem filterRaw_eq_map (bpp : Nat) :
    filterRaw pred row prev bpp
      = (List.range row.length).map fun i => row.getD i 0 - BitVec.ofNat 8 (predAt pred row prev bpp i) := rfl

theorem filterRaw_length (bpp : Nat) : (filterRaw pred row prev bpp).length = row.length := by
  rw [filterRaw_eq_map, List.length_map, List.length_range]

theorem filterRaw_getD (bpp : Nat) {i : Nat} (hi : i < row.length) :
    (filterRaw pred row prev bpp).getD i 0 = row.getD i 0 - BitVec.ofNat 8 (predAt pred row prev bpp i) := by
  rw [filterRaw_eq_map, List.getD_eq_getElem _ _ (by simpa using hi), List.getElem_map, List.getElem_range]

theorem filterRaw_concat (hb : 1 ≤ bpp) (x : Byte) :
    filterRaw pred (row ++ [x]) prev bpp
      = filterRaw pred row prev bpp ++ [x - BitVec.ofNat 8 (predAt pred row prev bpp row.length)] := by
  have hlast : (row ++ [x]).getD row.length 0 = x := by simp
  rw [filterRaw_eq_map, filterRaw_eq_map, List.length_append, List.length_singleton, List.range_succ, List.map_append,
    List.map_singleton, hlast, predAt_concat pred prev hb x le_rfl]
  congr 1
  refine List.map_congr_left fun i hi => ?_
  have hlt : i < row.length := List.mem_range.mp hi
  rw [List.getD_append _ _ _ _ hlt, predAt_concat pred prev hb x hlt.le]

/-! ## Filtering and defiltering -/

/-- Defiltering adds back what filtering took off, since both take the predictor from the reconstructed row. -/
theorem defilter_filterRaw (hb : 1 ≤ bpp) : defilter pred (filterRaw pred row prev bpp) prev bpp = row := by
  induction row using List.reverseRecOn with
  | nil => rfl
  | append_singleton row x ih =>
    rw [filterRaw_concat pred row prev hb, defilter_concat, ih, filterRaw_length, BitVec.sub_add_cancel]

theorem filterRaw_defilter (hb : 1 ≤ bpp) : filterRaw pred (defilter pred row prev bpp) prev bpp = row := by
  induction row using List.reverseRecOn with
  | nil => rfl
  | append_singleton row x ih =>
    rw [defilter_concat, filterRaw_concat _ _ _ hb, ih, defilter_length, BitVec.add_sub_cancel]

/-- Each byte of a reconstructed row is the filtered byte plus its predictor: filtering the row takes just that off again. -/
theorem defilter_getD (hb : 1 ≤ bpp) {i : Nat} (hi : i < row.length) :
    (defilter pred row prev bpp).getD i 0
      = row.getD i 0 + BitVec.ofNat 8 (predAt pred (defilter pred row prev bpp) prev bpp i) := by
  have hoff := filterRaw_getD pred (defilter pred row prev bpp) prev bpp (hi.trans_eq (defilter_length ..).symm)
  rw [filterRaw_defilter pred row prev hb] at hoff
  rw [hoff, BitVec.sub_add_cancel]

end

/-- Settles O35, for every predictor, by induction over the row from its last byte back. -/
theorem filterInverse : Obligations.FilterInverse := fun f row prev _ hb =>
  ⟨defilter_filterRaw f.pred row prev hb, filterRaw_defilter f.pred row prev hb⟩

/-- Settles O34: a sum of bytes is the sum modulo 256. -/
theorem rowReconstructed : Obligations.RowReconstructed := by
  intro f cur prev bpp hb
  refine ⟨defilter_length f.pred cur prev bpp, fun i hi => ?_⟩
  rw [defilter_getD f.pred cur prev hb hi, BitVec.toNat_add, BitVec.toNat_ofNat, Nat.add_mod_mod, predAt]

/-! ## Predictors -/

/-- PAETH's choice with the distances as absolute values (44_defilter.md R305). -/
theorem predPaeth_eq (a b c : Nat) (p : Int) (hp : p = (a : Int) + b - c) :
    predPaeth a b c
      = if |p - a| ≤ |p - b| ∧ |p - a| ≤ |p - c| then a else if |p - b| ≤ |p - c| then b else c := by
  subst hp
  simp only [predPaeth, Int.abs_eq_natAbs, Nat.cast_le]

/-- PAETH gives the neighbour that no other is nearer than. -/
theorem predPaeth_nearest (a b c x : Nat) (p : Int) (hp : p = (a : Int) + b - c) (hx : x = a ∨ x = b ∨ x = c) :
    |p - predPaeth a b c| ≤ |p - x| := by
  rw [predPaeth_eq a b c p hp]
  split_ifs with ha hbc
  · rcases hx with rfl | rfl | rfl
    exacts [le_rfl, ha.1, ha.2]
  · have hba : |p - b| ≤ |p - a| := by omega
    rcases hx with rfl | rfl | rfl
    exacts [hba, le_rfl, hbc]
  · have hca : |p - c| ≤ |p - a| := by omega
    rcases hx with rfl | rfl | rfl
    exacts [hca, (not_le.mp hbc).le, le_rfl]

/-- A predictor of bytes is a byte (44_defilter.md R307). -/
theorem pred_lt {a b c : Nat} (ha : a < 256) (hb : b < 256) (hc : c < 256) (f : FilterType) : f.pred a b c < 256 := by
  cases f with
  | none => exact Nat.zero_lt_succ 255
  | sub => exact ha
  | up => exact hb
  | average => simp only [FilterType.pred, predAverage]; omega
  | paeth =>
    simp only [FilterType.pred, predPaeth_eq a b c _ rfl]
    split_ifs <;> assumption

/-- Settles O33, from the choice PAETH makes by absolute distances. -/
theorem predictorsExact : Obligations.PredictorsExact := by
  intro a b c ha hb hc
  refine ⟨rfl, rfl, rfl, rfl, ⟨fun h => ?_, fun h hbc => ?_, fun h hcb => ?_, fun x => predPaeth_nearest a b c x _ rfl⟩,
    pred_lt ha hb hc⟩
  · rw [predPaeth_eq a b c _ rfl, if_pos h]
  · rw [predPaeth_eq a b c _ rfl, if_neg h, if_pos hbc]
  · rw [predPaeth_eq a b c _ rfl, if_neg h, if_neg (not_le.mpr hcb)]

/-! ## Filter-type bytes -/

/-- The bytes 5 to 255 raise, whichever of the seven rows they select. -/
theorem filterInstr_raises {b : Byte} (hb : 5 ≤ b.toNat) (s : State) :
    exec (filterInstr b) s = .next (raise .invalidFilterType s) := by
  unfold filterInstr
  split
  case h_6 => rfl
  case h_7 => split_ifs <;> rfl
  all_goals omega

/-- Each filter type is the row of its own byte. -/
theorem filterInstr_byte (f : FilterType) : filterInstr f.byte = f.instr := by
  cases f <;> rfl

theorem exists_byte_eq {b : Byte} (hb : b.toNat < 5) : ∃ f : FilterType, f.byte = b :=
  match h : b.toNat, hb with
  | 0, _ => ⟨.none, BitVec.eq_of_toNat_eq h.symm⟩
  | 1, _ => ⟨.sub, BitVec.eq_of_toNat_eq h.symm⟩
  | 2, _ => ⟨.up, BitVec.eq_of_toNat_eq h.symm⟩
  | 3, _ => ⟨.average, BitVec.eq_of_toNat_eq h.symm⟩
  | 4, _ => ⟨.paeth, BitVec.eq_of_toNat_eq h.symm⟩

/-- Settles O38: the seven rows have one meaning, which every byte from 5 on selects. -/
theorem filterInvalidRaises : Obligations.FilterInvalidRaises := by
  refine ⟨fun _ => ⟨rfl, fun _ => rfl, fun _ => rfl, fun _ => rfl, fun _ => rfl, fun _ => rfl, fun _ => rfl⟩,
    fun b hb s => filterInstr_raises hb s, fun b hb => ?_⟩
  obtain ⟨f, rfl⟩ := exists_byte_eq hb
  exact ⟨f, rfl, filterInstr_byte f⟩

end Sys2Proof.Machine
end
section
/-! SUPPORT. The controller: what the step of each phase does, the row work that an emitted byte makes due, and the host's START
and register reads, with the statements StepRunsInstruction, FinishChecks, FilterAccepted, FinishRowStores, EmittedByteAssembled,
StartInitialises, StartRejects and RegisterReads. -/

namespace Sys2Proof.Machine

/-! ## What is next -/

/-- With no host move to come, it is the CORE's turn. -/
theorem step_coreStep {s : State} (hh : s.host = []) : step s = coreStep s := by
  rw [step, agentStep, hh]

/-- Settles O13: the step is the case of `coreStep` for what is next, and what is next is the case of `phaseOp` for the phase and
stage. -/
theorem stepRunsInstruction : Obligations.StepRunsInstruction := by
  intro s hh
  refine ⟨fun _ => step_run hh, fun _ _ _ => step_fetch hh, fun _ _ => step_fetch_err hh, fun _ _ => step_fetch_err hh,
    fun _ => step_micro hh, fun hb hr => ?_, fun hb b hr => ?_, fun hb hr => ?_,
    fun hb => ⟨nextOp_not_busy s hb, (step_coreStep hh).trans (coreStep_not_busy s hb)⟩⟩
  · rw [nextOp_clear hb hr]
    refine ⟨?_, ?_, ?_, ?_, ?_, ?_, ?_, ?_, ?_, fun hp hst hlt => ?token, fun hp hst hle => ?tables, ?_, ?_, ?_, ?_⟩
    case token => rw [phaseOp, hp, hst]; exact if_pos hlt
    case tables => rw [phaseOp, hp, hst]; exact if_neg (Nat.not_lt.mpr hle)
    all_goals
      intros
      simp only [phaseOp, *]
  · rw [nextOp, if_pos hb, hr]
  · rw [nextOp, if_pos hb, hr]

/-- Settles O46: with no row due, FINISH runs the completion check. -/
theorem finishChecks : Obligations.FinishChecks := by
  intro s hh hp hr
  have hstep : step s = .next (finishDecode s) :=
    step_micro hh (m := .finish) (by rw [nextOp_clear (by rw [hp]; rfl) hr, phaseOp, hp])
  refine ⟨fun hlt => hstep.trans (congrArg _ (if_pos hlt)), fun hle => ⟨_, hstep, ?_⟩⟩
  rw [finishDecode, if_neg (show ¬ s.produced < expected s from Nat.not_lt.mpr hle)]

/-! ## Filter types and the rows they finish -/

/-- Settles O36: with no row complete, a filter type's instruction accepts it. -/
theorem filterAccepted : Obligations.FilterAccepted := fun _ hr =>
  ⟨if_neg hr, if_neg hr, if_neg hr, if_neg hr, if_neg hr⟩

/-- With a row of the image complete, every filter type finishes it (45_controller.md R324). -/
theorem filterType_finishes (f : FilterType) : FinishRowEffect f.instr f.pred := by
  intro s hr hy hwf hcur
  have hlen : (rebuiltRow f.pred s).length = rowLen s := (rebuiltRow_length f.pred s).trans hcur
  refine ⟨_, (filterType_exec f s).trans ((if_pos hr).trans (if_pos hy)), rfl, fun k hk => ?_, fun a ha => ?_,
    rfl, rfl, rfl, rfl, rfl⟩
  · rw [Memory.read_writeList _ _ _ hwf, if_pos (by omega), Nat.add_sub_cancel_left, List.getD_eq_getElem?_getD,
      ← rebuiltRow, List.getElem?_eq_getElem (hlen ▸ hk), Option.getD_some]
  · exact Memory.read_writeList_outside _ _ _ hwf a (by omega)

/-- Settles O37, one filter type after the other. -/
theorem finishRowStores : Obligations.FinishRowStores :=
  ⟨filterType_finishes .none, filterType_finishes .sub, filterType_finishes .up, filterType_finishes .average,
    filterType_finishes .paeth⟩

/-! ## The row work of an emitted byte -/

/-- A byte past EXPECTED is not assembled (45_controller.md R325). -/
theorem emit_past {b : Byte} {s : State} (h : expected s < s.produced + 1) : emit b s = pushWindow b s := if_pos h

/-- A byte at a filter position makes its filter-type row due (R323). -/
theorem emit_filterByte {b : Byte} {s : State} (h : s.produced + 1 ≤ expected s) (h0 : s.rowPos = 0) :
    emit b s = { pushWindow b s with row := .filterByte b } :=
  (if_neg (Nat.not_lt.mpr h)).trans (if_pos h0)

/-- A data byte goes to its place in CUR; the last of the row makes FinishRow due (R323). -/
theorem emit_data {b : Byte} {s : State} (h : s.produced + 1 ≤ expected s) (h0 : s.rowPos ≠ 0) :
    emit b s = { pushWindow b s with
      cur := s.cur.set (s.rowPos - 1) b, rowPos := s.rowPos + 1,
      row := if s.rowPos = rowLen s then .finishRow else .clear } :=
  (if_neg (Nat.not_lt.mpr h)).trans (if_neg h0)

/-- The step after a byte at a filter position is its filter-type row. -/
theorem step_filterByte {b : Byte} {s : State} (hh : s.host = []) (hb : s.phase.busy = true)
    (h : s.produced + 1 ≤ expected s) (h0 : s.rowPos = 0) :
    step (emit b s) = exec (filterInstr b) { pushWindow b s with row := .filterByte b } := by
  rw [emit_filterByte h h0]
  exact step_run hh (if_pos hb)

/-- Settles O26: the case of `RowAccept`, and the step of the row it makes due. -/
theorem emittedByteAssembled : Obligations.EmittedByteAssembled := by
  intro b s hh hb _
  refine ⟨emit_past, fun h h0 hlt => ?_, fun h h0 hge => ?_, fun h h0 hne => ?_, fun h h0 hlast => ?_⟩
  · obtain ⟨f, rfl⟩ := exists_byte_eq hlt
    refine ⟨f, rfl, ?_⟩
    rw [step_filterByte hh hb h h0, filterInstr_byte, filterType_exec]
    rfl
  · rw [step_filterByte hh hb h h0, filterInstr_raises hge]
    rfl
  · rw [emit_data h h0, if_neg hne]
  · have he := emit_data (b := b) h h0
    rw [if_pos hlast] at he
    refine ⟨he, ?_⟩
    rw [he]
    exact step_run hh (if_pos hb)

/-! ## START and register reads -/

/-- A START while not busy, without RESET, is the check of the configuration (45_controller.md R320). -/
theorem writeCtrl_start {v : Reg32} {s : State} (hb : s.phase.busy = false) (h0 : v.getLsbD 0 = true)
    (h1 : v.getLsbD 1 = false) : writeCtrl v s = start s := by
  simp only [writeCtrl, h0, h1, hb, Bool.false_eq_true, if_false, if_true]

/-- Settles O39: the tables at START are those of arrays of zeros, which are empty. -/
theorem startInitialises : Obligations.StartInitialises := by
  intro s v hb h0 h1 hc
  rw [writeCtrl_start hb h0 h1, start, if_pos hc, build_zeros, build_zeros, build_zeros]
  rfl

theorem pixFits_eq_false {cap : Option Nat} {n : Nat} : pixFits cap n = false ↔ ∃ c, cap = some c ∧ c < n := by
  cases cap <;> simp [pixFits]

/-- The configurations that fail the check, one disjunct for each of its conditions (45_controller.md R321). -/
theorem configOk_eq_false {s : State} :
    configOk s = false ↔ s.cfgWidth.toNat = 0 ∨ s.cfgHeight.toNat = 0 ∨ s.cfgBpp.toNat = 0 ∨ 4 < s.cfgBpp.toNat
      ∨ ∃ cap, s.prm.pixCap = some cap ∧ cap < s.cfgWidth.toNat * s.cfgHeight.toNat * s.cfgBpp.toNat := by
  have hzero (r : Reg32) : r = 0 ↔ r.toNat = 0 := BitVec.toNat_inj.symm
  simp only [configOk, Bool.and_eq_false_iff, decide_eq_false_iff_not, not_not, pixFits_eq_false, hzero, Nat.not_le,
    Nat.lt_one_iff, or_assoc]

/-- Settles O40: the check's conditions, and the error state that a failed one leaves. -/
theorem startRejects : Obligations.StartRejects := by
  intro s v hb h0 h1
  refine ⟨configOk_eq_false, fun hc => ?_⟩
  rw [writeCtrl_start hb h0 h1, start, if_neg (Bool.eq_false_iff.mp hc)]
  rfl

/-- A register read by the host changes nothing but the host's own record (45_controller.md R331). -/
theorem step_readReg {s : State} {r : Reg} {rest : List HostEvent} (h : s.host = ⟨0, .readReg r⟩ :: rest) :
    step s = .next { s with host := rest, rdata := readReg r s } :=
  step_hostMove h

/-- Settles O44: a read by name, and a read at a bus address as the read of the register there. -/
theorem registerReads : Obligations.RegisterReads := by
  refine ⟨fun s r rest h => ?_, fun s a rest h => ⟨fun r hr => ?_, fun hr => ?_⟩, rfl, rfl, rfl, rfl, rfl, rfl, rfl, rfl,
    rfl, rfl, rfl⟩
  · rw [step_readReg h]
    cases r <;> rfl
  · rw [step_hostMove h, step_hostMove (s := { s with host := _ }) rfl]
    simp only [hostMove, atRegister, hr]
  · rw [step_hostMove h]
    simp only [hostMove, atRegister, hr]

end Sys2Proof.Machine
end
section
/-! SUPPORT. Which phases a CORE step can enter, with the statement PhasesFollowTable. -/

namespace Sys2Proof.Machine

/-! ## The table of phases -/

/-- The phases that can follow each busy phase (45_controller.md R329), the phase itself where its rule takes several steps. -/
def phasesAfter : Phase → List Phase
  | .blockHeader => [.blockHeader, .stored, .fixed, .dynamic, .error]
  | .stored => [.stored, .blockHeader, .finish, .error]
  | .fixed => [.symbols]
  | .dynamic => [.dynamic, .symbols, .error]
  | .symbols => [.symbols, .blockHeader, .finish, .error]
  | .finish => [.complete, .error]
  | .idle | .complete | .error => []

/-! ## Steps of a row -/

theorem coreStep_run {s : State} {i : Instr} (h : nextOp s = .run i) : coreStep s = exec i s := by
  rw [coreStep, h]

/-- A row that is due is worked off in one step, which keeps the place in the phase's rule or raises (R323, R324). -/
theorem coreStep_rowDue {s t : State} (hb : s.phase.busy = true) (hr : s.row ≠ .clear) (h : coreStep s = .next t) :
    (t.phase = s.phase ∧ t.stage = s.stage ∧ t.row = .clear) ∨ t.phase = .error := by
  have filterType (f : FilterType) (he : exec f.instr s = .next t) :
      t.phase = s.phase ∧ t.stage = s.stage ∧ t.row = .clear := by
    rw [filterType_exec] at he
    rcases filterRow_cases f f.pred s with ⟨-, e⟩ | ⟨-, -, e⟩ | ⟨-, -, e⟩ <;> cases e.symm.trans he
    · exact ⟨rfl, rfl, rfl⟩
    · exact ⟨rfl, rfl, rfl⟩
  rcases nextOp_busy s hb with ⟨b, -, hn⟩ | ⟨-, hn⟩ | ⟨hc, -⟩
  · rw [coreStep_run hn] at h
    rcases filterInstr_shape b s with ⟨f, hf⟩ | he
    · exact .inl (filterType f (hf ▸ h))
    · cases he.symm.trans h
      exact .inr rfl
  · exact .inl (filterType _ (coreStep_run hn ▸ h))
  · exact absurd hc hr

/-! ## Steps of a phase's rule -/

/-- With no row due, only the block type of a latched header is selected without reading a token. -/
theorem nextOp_run_clear {s : State} {i : Instr} (hn : nextOp s = .run i) (hr : s.row = .clear) :
    s.phase = .blockHeader ∧ s.stage = .dispatch ∧ i = btypeInstr s.btype := by
  obtain ⟨-, ⟨b, hrow, -⟩ | ⟨hrow, -⟩ | ⟨-, hplace⟩⟩ := nextOp_run hn
  · exact absurd (hrow.symm.trans hr) nofun
  · exact absurd (hrow.symm.trans hr) nofun
  · exact hplace

theorem endOfBlock_phase_or (s : State) : (endOfBlock s).phase = .finish ∨ (endOfBlock s).phase = .blockHeader := by
  rw [endOfBlock_phase]
  exact ite_eq_or_eq ..

/-- An instruction keeps PHASE or raises, unless it is a block type or ends a block (42_blocks.md R161 to R163, R175). -/
theorem ExecNext.phase_cases {i : Instr} {s t : State} (h : ExecNext s i t) :
    t.phase = s.phase ∨ t.phase = .error
    ∨ (∀ k, i.ctx k = .btype)
    ∨ ((i = .eob ∨ ∃ len nlen, i = .storedHeader len nlen) ∧ (t.phase = .finish ∨ t.phase = .blockHeader)) := by
  cases h with
  | blockType i p hp =>
    rcases hp with ⟨rfl, -⟩ | ⟨rfl, -⟩ | ⟨rfl, -⟩ <;> exact .inr (.inr (.inl fun _ => rfl))
  | storedEmpty len nlen => exact .inr (.inr (.inr ⟨.inr ⟨len, nlen, rfl⟩, endOfBlock_phase_or _⟩))
  | eob => exact .inr (.inr (.inr ⟨.inl rfl, endOfBlock_phase_or _⟩))
  | error => exact .inr (.inl rfl)
  | lit | clRun => exact .inl (by simp)
  | _ => exact .inl rfl

/-- No token is a block type: its row is selected by the header that was latched (42_blocks.md R160). -/
theorem fetch_ne_blockType {s u : State} {c : Ctx} {i : Instr} (hn : nextOp s = .fetch c) (hf : fetch c s = .ok i u) :
    ¬ ∀ k, i.ctx k = .btype := by
  intro hi
  obtain ⟨k, e | ⟨e, -⟩⟩ := answers_ctx (decode_answers _ _ _ _ _ hf)
  · have := phaseOp_fetch (nextOp_fetch hn).2.2
    simp [e, hi] at this
  · exact absurd ((hi k).symm.trans e) nofun

theorem InstrSource.eob {s u : State} (h : InstrSource s .eob u) : s.phase = .symbols := by
  obtain ⟨c, k, -, hp, -, rfl | ⟨e, -⟩⟩ := h.token fun _ => ⟨nofun, nofun⟩
  · have := phaseOp_fetch hp
    simp only [Instr.ctx] at this
    simp_all
  · cases e

theorem InstrSource.storedHeader {s u : State} {len nlen : BitVec 16} (h : InstrSource s (.storedHeader len nlen) u) :
    s.phase = .stored := by
  obtain ⟨c, k, -, hp, -, rfl | ⟨e, -⟩⟩ := h.token fun _ => ⟨nofun, nofun⟩
  · simpa [Instr.ctx] using phaseOp_fetch hp
  · cases e

/-- A phase that reads tokens may stay as it is, and may fail. -/
theorem phaseOp_fetch_after {s : State} {c : Ctx} (h : phaseOp s = .fetch c) :
    s.phase ∈ phasesAfter s.phase ∧ .error ∈ phasesAfter s.phase := by
  rcases phaseOp_fetch h with ⟨hp, -⟩ | ⟨hp, -⟩ | ⟨hp, -⟩ | ⟨hp, -⟩ | ⟨hp, -⟩ | ⟨hp, -⟩ | ⟨hp, -⟩
  all_goals
    rw [hp]
    decide

/-- What a token does to PHASE: only EOB and a stored header end a block, each in its own phase. -/
theorem token_phase {s u t : State} {c : Ctx} {i : Instr} (hn : nextOp s = .fetch c) (hf : fetch c s = .ok i u)
    (hx : ExecNext u i t) : t.phase ∈ phasesAfter s.phase := by
  have hi : InstrSource s i u := .inr ⟨c, hn, hf⟩
  obtain ⟨hstay, herr⟩ := phaseOp_fetch_after (nextOp_fetch hn).2.2
  rcases hx.phase_cases with e | e | hbt | ⟨rfl | ⟨len, nlen, rfl⟩, hend⟩
  · rw [e, hi.frame.phase_eq]
    exact hstay
  · exact e ▸ herr
  · exact absurd hbt (fetch_ne_blockType hn hf)
  · rw [hi.eob]
    rcases hend with e | e <;> rw [e] <;> decide
  · rw [hi.storedHeader]
    rcases hend with e | e <;> rw [e] <;> decide

/-- What a rule between tokens does to PHASE. -/
theorem micro_phase {s t : State} {m : Micro} (h : phaseOp s = .micro m) (hm : MicroNext s m t) :
    t.phase ∈ phasesAfter s.phase := by
  rcases phaseOp_micro h with ⟨hp, -, rfl⟩ | ⟨hp, -, rfl⟩ | ⟨hp, rfl⟩ | ⟨hp, -, rfl⟩ | ⟨hp, -, -, rfl⟩ | ⟨hp, -, rfl⟩ | ⟨hp, rfl⟩
  all_goals
    rw [hp]
    cases hm
  case raw b u hf hv => simp [hf.phase_eq, hp, phasesAfter]
  case rawLast => rcases endOfBlock_phase_or _ with e | e <;> rw [e] <;> decide
  all_goals simp [hp, phasesAfter, selectFixed, buildTables]

/-- A busy CORE has something to do (45_controller.md R329). -/
theorem nextOp_ne_idle {s : State} (hb : s.phase.busy = true) : nextOp s ≠ .idle := by
  rcases nextOp_busy s hb with ⟨b, -, e⟩ | ⟨-, e⟩ | ⟨-, e⟩ <;> rw [e]
  · nofun
  · nofun
  · unfold phaseOp
    cases hp : s.phase with
    | idle | complete | error => rw [hp] at hb; cases hb
    | fixed | finish => nofun
    | blockHeader | stored | symbols => cases s.stage <;> nofun
    | dynamic =>
      cases s.stage with
      | clTokens => dsimp only; split <;> nofun
      | _ => nofun

/-- With no row due, a step of a running decode goes to a phase of the table. -/
theorem coreStep_phase {s t : State} (hb : s.phase.busy = true) (hr : s.row = .clear) (h : coreStep s = .next t) :
    t.phase ∈ phasesAfter s.phase := by
  have hsh := coreStep_shape s
  rw [h] at hsh
  generalize ho : Host.Outcome.next t = o at hsh
  cases hsh with
  | idle hn => exact absurd hn (nextOp_ne_idle hb)
  | run i hn =>
    obtain ⟨hp, -, rfl⟩ := nextOp_run_clear hn hr
    rw [hp]
    rcases btypeInstr_shape s.btype s with ⟨p, hbody, e⟩ | e <;> cases ho.trans e
    · rcases hbody with rfl | rfl | rfl <;> simp [phasesAfter]
    · simp [phasesAfter]
  | micro m hn => exact micro_phase (nextOp_micro hn).2.2 (micro_next ho.symm)
  | token c i u hn hf => exact token_phase hn hf (exec_next ho.symm)
  | failed c e u hn hf =>
    have herr := (phaseOp_fetch_after (nextOp_fetch hn).2.2).2
    cases e <;> cases ho <;> exact herr

/-- Settles O48, row by row of the table. -/
theorem phasesFollowTable : Obligations.PhasesFollowTable := by
  intro s t h
  have idle (hb : s.phase.busy = false) : t = s := by
    rw [coreStep_not_busy s hb] at h
    cases h
    rfl
  refine ⟨idle, fun hr => ?_, fun hr => ?_⟩
  · by_cases hb : s.phase.busy = true
    · exact (coreStep_rowDue hb hr h).imp_left (·.1)
    · exact .inl (congrArg State.phase (idle (Bool.eq_false_of_not_eq_true hb)))
  · have table : s.phase.busy = true → t.phase ∈ phasesAfter s.phase := fun hb => coreStep_phase hb hr h
    refine ⟨?_, ?_, ?_, ?_, ?_, ?_⟩
    all_goals
      intro hp
      simpa [hp, phasesAfter, Phase.busy] using table

end Sys2Proof.Machine
end
section
/-! SUPPORT. Every step of a running decode brings it nearer its end: it reads a bit, or is one of the few steps that can come
before the next bit. With the statement EveryDecodeEnds. -/

namespace Sys2Proof.Machine

/-! ## Bits a token takes -/

/-- A read that answers leaves at least `n` bits fewer than are pending in `s`. -/
def Takes {α : Type} (n : Nat) (s : State) (r : Rd State α) : Prop :=
  ∀ a t, r = .ok a t → (pendingBits t).length + n ≤ (pendingBits s).length

namespace Takes

variable {α β : Type}

theorem ok (a : α) (s : State) : Takes 0 s (.ok a s) := by
  intro b t h
  cases h
  exact Nat.le_refl _

theorem err (n : Nat) (e : Reject) (s t : State) : Takes n s (.err e t : Rd State α) := by
  intro b u h
  cases h

/-- What follows the first read takes no bit back. -/
theorem bind {n : Nat} {s : State} {r : Rd State α} {k : α → State → Rd State β} (hr : Takes n s r)
    (hk : ∀ a t, Takes 0 t (k a t)) : Takes n s (r.bind k) := by
  intro b u h
  obtain ⟨a, t, hrt, hkt⟩ := Rd.bind_eq_ok.mp h
  have hfirst := hr a t hrt
  have hrest := hk a t b u hkt
  omega

theorem zero {s : State} {r : Rd State α} (h : Takes 1 s r) : Takes 0 s r :=
  fun a t ht => Nat.le_of_succ_le (h a t ht)

/-- A read that begins after a step of the reader which gives no bit back. -/
theorem after {n : Nat} {s t : State} {r : Rd State α} (h : Takes n t r)
    (hle : (pendingBits t).length ≤ (pendingBits s).length) : Takes n s r :=
  fun a u hu => (h a u hu).trans hle

end Takes

theorem readBit_takes (s : State) : Takes 1 s (readBit s) := by
  intro b t h
  rw [pendingBits_length, pendingBits_length]
  rcases readBit_cases s with ⟨-, -, e⟩ | ⟨-, -, -, e⟩ | ⟨c, h0, h1, -, e⟩ | ⟨h0, e⟩ <;> cases e.symm.trans h
  all_goals
    dsimp only
    omega

/-- A field of some bits takes one at least, and a field of none takes nothing back. -/
theorem readBits_takes (n : Nat) (s : State) :
    Takes 1 s (readBits stateSource (n + 1) s) ∧ Takes 0 s (readBits stateSource n s) := by
  induction n generalizing s with
  | zero => exact ⟨(readBit_takes s).bind fun _ t => (Takes.ok 0 t).bind fun _ u => .ok _ u, .ok 0 s⟩
  | succ n ih => exact ⟨(readBit_takes s).bind fun _ t => (ih t).1.zero.bind fun _ u => .ok _ u, (ih s).1.zero⟩

/-- A code has at least one bit (41_huffman.md R145). -/
theorem huffLoop_takes (T : Table) (n l v : Nat) (s : State) : Takes 1 s (huffLoop stateSource T n l v s) := by
  induction n generalizing l v s with
  | zero => exact .err 1 .noCode s s
  | succ n ih =>
    refine (readBit_takes s).bind fun b t => ?_
    split
    · exact .ok _ t
    · exact (ih _ _ t).zero

theorem readExtra_takes (n : Nat) (f : Nat → Option Instr) (s : State) :
    Takes 0 s ((readBits stateSource n s).bind fun x t => symbolInstr (f x) t) := by
  refine (readBits_takes n s).2.bind fun x t => ?_
  cases f x with
  | none => exact .err 0 .badSymbol t t
  | some i => exact .ok i t

theorem latchField_takes {α : Type} {n : Nat} {s : State} {l : Latch} {r : Rd State α} (h : Takes n (latchField l s) r) :
    Takes n s r := h.after (by rw [latchField_pending])

theorem readClLengths_takes (n k : Nat) (s : State) : Takes 0 s (readClLengths stateSource n k s) := by
  induction n generalizing k s with
  | zero => exact .ok [] s
  | succ n ih => exact (readBits_takes 3 s).2.bind fun _ t => latchField_takes (l := .clLen k _) <|
      (ih (k + 1) _).bind fun _ u => .ok _ u

/-- The code-length code lengths may be none, as far as the reader knows; every other token has a bit. -/
def minBits : Ctx → Nat
  | .clLengths _ => 0
  | .blockHeader | .btype | .stored | .dynamic | .cl _ _ | .ll _ | .dist _ | .filter => 1

theorem fetch_takes (c : Ctx) (s : State) : Takes (minBits c) s (fetch c s) := by
  have first (n : Nat) (s : State) : Takes 1 s (readBits stateSource (n + 1) s) := (readBits_takes n s).1
  have rest (n : Nat) (s : State) : Takes 0 s (readBits stateSource n s) := (readBits_takes n s).2
  cases c with
  | blockHeader => exact (first 0 s).bind fun _ t => (rest 2 t).bind fun _ u => .ok _ u
  | btype => exact (first 1 s).bind fun _ t => .ok _ t
  | stored =>
    refine Takes.after ((first 15 (byteAlign s)).bind fun _ t => (rest 16 t).bind fun _ u => .ok _ u) ?_
    rw [byteAlign_pending, List.length_drop]
    exact Nat.sub_le ..
  | dynamic =>
    exact (first 4 s).bind fun _ t => latchField_takes <| (rest 5 _).bind fun _ u => latchField_takes <|
      (rest 4 _).bind fun _ v => latchField_takes <| .ok _ _
  | clLengths n => exact latchField_takes <| (readClLengths_takes n 0 _).bind fun _ t => .ok _ t
  | cl T p =>
    refine (huffLoop_takes T _ _ _ s).bind fun sym t => ?_
    split
    · exact .ok _ t
    · exact readExtra_takes _ _ t
  | ll T => exact (huffLoop_takes T _ _ _ s).bind fun _ t => readExtra_takes _ _ t
  | dist T => exact (huffLoop_takes T _ _ _ s).bind fun _ t => readExtra_takes _ _ t
  | filter => exact (first 7 s).bind fun _ t => .ok _ t

theorem SameReader.pending_length {s t : State} (h : SameReader s t) : (pendingBits t).length = (pendingBits s).length := by
  rw [pendingBits_length, pendingBits_length, h.bitCnt_eq, h.inLen_eq, h.bytePos_eq]

/-! ## Progress -/

/-- The steps a phase's rule can still make without reading a bit (45_controller.md R329), with the bytes left of a copy. -/
def stepsWithoutBits (p : Phase) (g : Stage) : Nat :=
  match p, g with
  | .blockHeader, .dispatch => 2
  | .stored, .rawNext => 1
  | .fixed, _ => 1
  | .dynamic, .clLengths => 3
  | .dynamic, .clBuild => 2
  | .dynamic, .clTokens => 1
  | .symbols, .copy n _ => n + 1
  | _, _ => 0

theorem stepsWithoutBits_endOfBlock (s : State) : stepsWithoutBits (endOfBlock s).phase (endOfBlock s).stage = 0 := by
  rcases endOfBlock_phase_or s with e | e <;> rw [e] <;> rfl

/-- The step that a due row takes. -/
def RowDue.steps : RowDue → Nat
  | .clear => 0
  | .filterByte _ | .finishRow => 1

theorem RowDue.steps_le (r : RowDue) : r.steps ≤ 1 := by cases r <;> simp [RowDue.steps]

theorem RowDue.steps_pos {r : RowDue} (h : r ≠ .clear) : 0 < r.steps := by
  cases r with
  | clear => exact absurd rfl h
  | _ => exact Nat.one_pos

/-- A bound on the steps before the next bit is read: each step of a rule may make one row due. -/
def rank (s : State) : Nat := 2 * stepsWithoutBits s.phase s.stage + s.row.steps

/-- `t` has fewer bits left to read than `s`, or as many and fewer steps before the next one. -/
def Nearer (t s : State) : Prop :=
  Prod.Lex (· < ·) (· < ·) ((pendingBits t).length, rank t) ((pendingBits s).length, rank s)

theorem nearer_of_bits {s t : State} (h : (pendingBits t).length < (pendingBits s).length) : Nearer t s := .left _ _ h

theorem nearer_of_rank {s t : State} (h : (pendingBits t).length ≤ (pendingBits s).length) (hr : rank t < rank s) :
    Nearer t s := by
  rcases Nat.lt_or_eq_of_le h with h | h
  · exact nearer_of_bits h
  · rw [Nearer, h]
    exact .right _ hr

/-- A row that becomes due weighs less than the step of the rule that makes it due. -/
theorem nearer_of_steps {s t : State} (h : (pendingBits t).length ≤ (pendingBits s).length)
    (hlt : stepsWithoutBits t.phase t.stage < stepsWithoutBits s.phase s.stage) : Nearer t s := by
  have hrow := t.row.steps_le
  exact nearer_of_rank h (by rw [rank, rank]; omega)

/-- An instruction that is selected without a token works off a row, or begins the body of a block. -/
theorem run_nearer {s t : State} {i : Instr} (hn : nextOp s = .run i) (h : exec i s = .next t) (hne : t.phase ≠ .error) :
    Nearer t s := by
  have hbits := (exec_next h).reader.pending_length.le
  by_cases hr : s.row = .clear
  · obtain ⟨hp, hst, rfl⟩ := nextOp_run_clear hn hr
    refine nearer_of_steps hbits ?_
    rcases btypeInstr_shape s.btype s with ⟨p, hbody, e⟩ | e <;> cases e.symm.trans h
    · rcases hbody with rfl | rfl | rfl <;> simp [stepsWithoutBits, hp, hst]
    · exact absurd rfl hne
  · obtain ⟨hp, hst, hrow⟩ := (coreStep_rowDue (nextOp_run hn).1 hr ((coreStep_run hn).trans h)).resolve_right hne
    refine nearer_of_rank hbits ?_
    rw [rank, rank, hp, hst, hrow]
    exact Nat.add_lt_add_left (RowDue.steps_pos hr) _

/-- A token takes a bit, but for the code-length code lengths, which are a step of their header's rule. -/
theorem token_nearer {s u t : State} {c : Ctx} {i : Instr} (hn : nextOp s = .fetch c) (hf : fetch c s = .ok i u)
    (h : exec i u = .next t) : Nearer t s := by
  have htaken := fetch_takes c s i u hf
  rw [← (exec_next h).reader.pending_length] at htaken
  cases decode_answers _ _ _ _ _ hf
  case clLengths vs =>
    refine nearer_of_steps htaken ?_
    obtain ⟨hp, hst⟩ : s.phase = .dynamic ∧ s.stage = .clLengths := by
      have := phaseOp_fetch (nextOp_fetch hn).2.2
      simp_all
    cases h
    simp [stepsWithoutBits, (fetch_ok_frame hf).phase_eq, hp, hst]
  all_goals exact nearer_of_bits htaken

/-- A rule between tokens reads a byte, or is one of the steps between two reads, or ends the decode. -/
theorem micro_nearer {s t : State} {m : Micro} (hn : nextOp s = .micro m) (h : MicroNext s m t) (hb : t.phase.busy = true) :
    Nearer t s := by
  have same : (pendingBits s).length ≤ (pendingBits s).length := Nat.le_refl _
  rcases phaseOp_micro (nextOp_micro hn).2.2 with
    ⟨hp, hst, rfl⟩ | ⟨hp, hst, rfl⟩ | ⟨hp, rfl⟩ | ⟨hp, hst, rfl⟩ | ⟨hp, hst, -, rfl⟩ | ⟨hp, ⟨n, d, hst⟩, rfl⟩ | ⟨hp, rfl⟩
  · cases h with
    | raw b u hf hv =>
      obtain ⟨v, hv⟩ := hv
      refine nearer_of_bits ?_
      rw [(emit_reader b .rawNext u).pending_length]
      exact (readBits_takes 7 s).1 v u hv
    | rawFailed => cases hb
  · cases h with
    | rawLast =>
      refine nearer_of_steps same ?_
      rw [stepsWithoutBits_endOfBlock, hp, hst]
      exact Nat.one_pos
    | rawMore => exact nearer_of_steps same (by simp [stepsWithoutBits, hp, hst])
  · cases h
    exact nearer_of_steps same (by simp [stepsWithoutBits, selectFixed, hp])
  · cases h
    exact nearer_of_steps same (by simp [stepsWithoutBits, hp, hst])
  · cases h
    exact nearer_of_steps same (by simp [stepsWithoutBits, hp, hst])
  · cases h with
    | copied left d' b hst' =>
      refine nearer_of_steps (emit_reader b _ s).pending_length.le ?_
      rw [emit_phase, emit_stage, hp, hst']
      dsimp only
      split <;> simp [stepsWithoutBits]
    | copyDone => exact nearer_of_steps same (by simp [stepsWithoutBits, hp, hst])
  · cases h <;> cases hb

/-- A step of a running decode ends it or brings it nearer its end. -/
theorem coreStep_nearer {s t : State} (hb : s.phase.busy = true) (h : coreStep s = .next t) (ht : t.phase.busy = true) :
    Nearer t s := by
  have hsh := coreStep_shape s
  rw [h] at hsh
  generalize ho : Host.Outcome.next t = o at hsh
  cases hsh with
  | idle hn => exact absurd hn (nextOp_ne_idle hb)
  | run i hn => exact run_nearer hn ho.symm (busy_ne_error ht)
  | micro m hn => exact micro_nearer hn (micro_next ho.symm) ht
  | token c i u hn hf => exact token_nearer hn hf ho.symm
  | failed c e u hn hf => cases e <;> cases ho <;> cases ht

/-! ## The end of a decode -/

/-- A step keeps all the invariants. -/
theorem Inv.step {s t : State} (hs : Inv s) (h : step s = .next t) : Inv t where
  mem := memoriesStayCanonical s t hs.mem h
  reader := readerStaysInRange s t hs.reader h
  window := windowFollowsProduced s t hs.mem hs.window h
  errors := errorRegistersQuiet s t hs.errors h
  tables := tablesMatchArrays s t hs.tables h
  config := configurationLatched s t hs.config h
  rows := rowsFollowProduced s t hs.mem hs.rows h

theorem SameHostState.inWritten {s t : State} (h : SameHostState s t) (hw : InWritten s) : InWritten t := by
  rw [InWritten, h.inLen_eq, h.inMem_eq]
  exact hw

theorem idle_notMem_phasesAfter (p : Phase) : .idle ∉ phasesAfter p := by cases p <;> decide

/-- A step of a running decode that leaves the busy phases does not enter IDLE (45_controller.md R329). -/
theorem coreStep_ended {s t : State} (hb : s.phase.busy = true) (h : coreStep s = .next t) (ht : t.phase.busy = false) :
    t.phase = .complete ∨ t.phase = .error := by
  have hne : t.phase ≠ .idle := by
    intro hidle
    by_cases hr : s.row = .clear
    · exact idle_notMem_phasesAfter _ (hidle ▸ coreStep_phase hb hr h)
    · rcases coreStep_rowDue hb hr h with ⟨e, -⟩ | e
      · rw [← e, hidle] at hb
        cases hb
      · rw [hidle] at e
        cases e
  cases hp : t.phase with
  | idle => exact absurd hp hne
  | complete => exact .inl rfl
  | error => exact .inr rfl
  | _ => rw [hp] at ht; cases ht

theorem core_run_succ {M : Host.Core} {s t : M.State} (h : M.step s = .next t) (n : Nat) : M.run (n + 1) s = M.run n t := by
  rw [Host.Core.run, h]

/-- Running on from a decode in progress reaches its end: each step brings it nearer. -/
theorem run_ends (s : State) (hs : Inv s) (hw : InWritten s) (hh : s.host = []) (hb : s.phase.busy = true) :
    ∃ (n : Nat) (t : State), core.run n s = .next t ∧ (t.phase = .complete ∨ t.phase = .error) := by
  obtain ⟨t, h⟩ := coreNeverStops s hs hw
  have hstep : step s = .next t := (step_coreStep hh).trans h
  have hhost := coreStep_hostState h
  by_cases ht : t.phase.busy = true
  · obtain ⟨n, u, hrun, hend⟩ := run_ends t (hs.step hstep) (hhost.inWritten hw) (hhost.host_eq.trans hh) ht
    exact ⟨n + 1, u, (core_run_succ (M := core) hstep n).trans hrun, hend⟩
  · exact ⟨1, t, core_run_succ (M := core) hstep 0, coreStep_ended hb h (Bool.eq_false_of_not_eq_true ht)⟩
termination_by ((pendingBits s).length, rank s)
decreasing_by exact coreStep_nearer hb h ht

/-- Settles O60: each step leaves fewer bits to read, or as many and fewer steps before the next bit. -/
theorem everyDecodeEnds : Obligations.EveryDecodeEnds := run_ends

end Sys2Proof.Machine
end
section
/-! SUPPORT. Errors: a read that runs out of input has taken every bit, and only the host leaves ERROR, with the statements
RaiseRecords, EndOfInputRecorded and ErrorIsTerminal. -/

namespace Sys2Proof

/-! ## Running out of input -/

/-- Where the read runs out of input, no bit is left. -/
def RunsDry {α : Type} (r : Rd (List Bool) α) : Prop := ∀ rest, r = .err .endOfInput rest → rest = []

namespace RunsDry

variable {α β : Type}

theorem ok (a : α) (bits : List Bool) : RunsDry (.ok a bits) := nofun

theorem bind {r : Rd (List Bool) α} {k : α → List Bool → Rd (List Bool) β} (hr : RunsDry r)
    (hk : ∀ a bits, RunsDry (k a bits)) : RunsDry (r.bind k) := by
  intro rest h
  rcases Rd.bind_eq_err.mp h with hfirst | ⟨a, bits, -, hthen⟩
  · exact hr rest hfirst
  · exact hk a bits rest hthen

end RunsDry

theorem readBits_runsDry (n : Nat) (bits : List Bool) : RunsDry (readBits listSource n bits) := by
  intro rest h
  rcases Nat.lt_or_ge bits.length n with hlt | hle
  · cases (readBits_list_of_lt hlt).symm.trans h
    rfl
  · obtain ⟨v, hv⟩ := readBits_list_of_le hle
    cases hv.symm.trans h

theorem huffDecode_runsDry (T : Table) (bits : List Bool) : RunsDry (huffDecode listSource T bits) :=
  fun _ h => (huffLoop_endOfInput h).2

theorem symbolInstr_runsDry (i : Option Instr) (bits : List Bool) : RunsDry (symbolInstr i bits) := by
  cases i <;> nofun

theorem readClLengths_runsDry (n k : Nat) (bits : List Bool) : RunsDry (readClLengths listSource n k bits) := by
  induction n generalizing k bits with
  | zero => exact .ok [] bits
  | succ n ih => exact (readBits_runsDry 3 bits).bind fun _ b => (ih (k + 1) b).bind fun _ c => .ok _ c

theorem readExtra_runsDry (n : Nat) (f : Nat → Option Instr) (bits : List Bool) :
    RunsDry ((readBits listSource n bits).bind fun x bits => symbolInstr (f x) bits) :=
  (readBits_runsDry n bits).bind fun _ b => symbolInstr_runsDry _ b

/-- A token that is cut short has taken every bit that was there. -/
theorem decode_runsDry (c : Ctx) (bits : List Bool) : RunsDry (decode listSource c bits) := by
  cases c with
  | blockHeader =>
    exact (readBits_runsDry 1 bits).bind fun _ b => (readBits_runsDry 2 b).bind fun _ c => .ok _ c
  | btype => exact (readBits_runsDry 2 bits).bind fun _ b => .ok _ b
  | stored => exact (readBits_runsDry 16 bits).bind fun _ b => (readBits_runsDry 16 b).bind fun _ c => .ok _ c
  | dynamic =>
    exact (readBits_runsDry 5 bits).bind fun _ b => (readBits_runsDry 5 b).bind fun _ c =>
      (readBits_runsDry 4 c).bind fun _ d => .ok _ d
  | clLengths n => exact (readClLengths_runsDry n 0 bits).bind fun _ b => .ok _ b
  | cl T hasPrev =>
    refine (huffDecode_runsDry T bits).bind fun sym b => ?_
    split
    · exact .ok _ b
    · exact readExtra_runsDry _ _ b
  | ll T => exact (huffDecode_runsDry T bits).bind fun _ b => readExtra_runsDry _ _ b
  | dist T => exact (huffDecode_runsDry T bits).bind fun _ b => readExtra_runsDry _ _ b
  | filter => exact (readBits_runsDry 8 bits).bind fun _ b => .ok _ b

namespace Machine

/-- A reader in range with no bit left stands at the end of the input (10_state.md R40). -/
theorem ReaderAdvance.at_end {s t : State} (h : ReaderAdvance s t) (hp : pendingBits t = []) :
    t.bytePos = s.inLen ∧ t.bitCnt = 0 := by
  have hlen := pendingBits_length t
  have hle := h.bytePos_le
  rw [hp, List.length_nil, h.inLen_eq] at hlen
  omega

/-- `EndOfInput` with no bit left is recorded at the end of the input (60_exceptions.md R401, R411). -/
theorem ReaderAdvance.endOfInput_recorded {s t : State} (h : ReaderAdvance s t) (hp : pendingBits t = [])
    (hstep : step s = .next (raise .endOfInput t)) :
    ∃ u, step s = .next u ∧ u.phase = .error ∧ u.errCode = .endOfInput ∧ u.errByte = s.inLen ∧ u.errBit = 0
      ∧ u.bytePos = s.inLen ∧ u.bitCnt = 0 := by
  obtain ⟨hpos, hcnt⟩ := h.at_end hp
  exact ⟨_, hstep, rfl, rfl, hpos, hcnt, hpos, hcnt⟩

theorem rawByte_err {s t : State} {e : Reject} (h : readBits stateSource 8 s = .err e t) : rawByte s = reject e t := by
  rw [rawByte, h]

/-- Settles O12: what the token or the byte runs out of is every pending bit, and the reader has stayed in range. -/
theorem endOfInputRecorded : Obligations.EndOfInputRecorded := by
  refine fun s hs hw hh => ⟨fun c rest hn hd => ?_, fun hn hlt => ?_⟩
  · obtain ⟨t, hf, hp⟩ := fetch_err hw hd
    have hread : ReaderAdvance s (fetch c s).state :=
      decode_keeps c (readerAdvance_keeps _ s) s (.refl hs (nextOp_fetch hn).1)
    rw [hf] at hread
    exact hread.endOfInput_recorded (hp.trans (decode_runsDry c _ rest hd)) (step_fetch_err hh hn hf)
  · obtain ⟨t, hf, hp⟩ := (readBitsLsbFirst s 8 hw).2 hlt
    have hread : ReaderAdvance s (readBits stateSource 8 s).state :=
      readBits_keeps (readerAdvance_keeps (fun _ => True) s) 8 s (.refl hs (nextOp_micro hn).1)
    rw [hf] at hread
    exact hread.endOfInput_recorded hp ((step_micro hh hn).trans (rawByte_err hf))

/-- Settles O15: the written-out update is the definition of `raise`, at the cursor. -/
theorem raiseRecords : Obligations.RaiseRecords := fun _ _ => rfl

/-! ## Leaving ERROR -/

/-- The host's move writes `v` to the register `r`, by name or at its bus address. -/
def HostMove.Writes (p : Params) (m : HostMove) (r : Reg) (v : Reg32) : Prop :=
  m = .writeReg r v ∨ ∃ a, m = .busWrite a v ∧ regAt p a = some r

/-- Only START and RESET of a CTRL write can change PHASE (10_state.md R34). -/
theorem writeCtrl_phase (v : Reg32) (s : State) :
    (writeCtrl v s).phase = s.phase ∨ v.getLsbD 0 = true ∨ v.getLsbD 1 = true := by
  cases h0 : v.getLsbD 0 with
  | true => exact .inr (.inl rfl)
  | false =>
    cases h1 : v.getLsbD 1 with
    | true => exact .inr (.inr rfl)
    | false => exact .inl (by rw [writeCtrl_reserved h0 h1])

/-- No other register's write changes PHASE. -/
theorem writeReg_phase {r : Reg} (hr : r ≠ .ctrl) (v : Reg32) (s : State) : (writeReg r v s).phase = s.phase := by
  cases hb : s.phase.busy with
  | true => rw [writeReg_busy hb hr]
  | false =>
    obtain ⟨hwidth, hheight, hbpp⟩ := writeReg_cfg hb v
    cases r with
    | cfgWidth => rw [hwidth]
    | cfgHeight => rw [hheight]
    | cfgBpp => rw [hbpp]
    | ctrl => exact absurd rfl hr
    | _ => rfl

theorem writeReg_phase_or (r : Reg) (v : Reg32) (s : State) :
    (writeReg r v s).phase = s.phase ∨ r = .ctrl ∧ (v.getLsbD 0 = true ∨ v.getLsbD 1 = true) := by
  by_cases hr : r = .ctrl
  · subst hr
    exact (writeCtrl_phase v s).imp_right fun h => ⟨rfl, h⟩
  · exact .inl (writeReg_phase hr v s)

theorem atRegister_next {a : Nat} {access : Reg → State → State} {s t : State} (h : atRegister a access s = .next t) :
    ∃ r, regAt s.prm a = some r ∧ t = access r s := by
  unfold atRegister at h
  split at h <;> cases h
  exact ⟨_, ‹_›, rfl⟩

/-- A host move changes PHASE only by a CTRL write with START or RESET. -/
theorem hostMove_phase {m : HostMove} {s t : State} (h : hostMove m s = .next t) :
    t.phase = s.phase ∨ ∃ v, m.Writes s.prm .ctrl v ∧ (v.getLsbD 0 = true ∨ v.getLsbD 1 = true) := by
  cases m with
  | writeReg r v =>
    cases h
    refine (writeReg_phase_or r v s).imp_right ?_
    rintro ⟨rfl, hbits⟩
    exact ⟨v, .inl rfl, hbits⟩
  | readReg r => cases h; exact .inl rfl
  | busWrite a v =>
    obtain ⟨r, hr, rfl⟩ := atRegister_next h
    refine (writeReg_phase_or r v s).imp_right ?_
    rintro ⟨rfl, hbits⟩
    exact ⟨v, .inr ⟨a, rfl, hr⟩, hbits⟩
  | busRead a =>
    obtain ⟨r, -, rfl⟩ := atRegister_next h
    exact .inl rfl
  | writeIn a b =>
    simp only [hostMove] at h
    split at h <;> cases h
    exact .inl rfl
  | setInLen n =>
    simp only [hostMove] at h
    split at h <;> cases h
    exact .inl rfl
  | readPix a =>
    simp only [hostMove, hostReadPix] at h
    split at h
    · split at h <;> cases h
      exact .inl rfl
    · cases h

/-- ERROR executes nothing (45_controller.md R329). -/
theorem coreStep_error {s t : State} (h : coreStep s = .next t) (he : s.phase = .error) : t = s := by
  rw [coreStep_not_busy s (by rw [he]; rfl)] at h
  cases h
  rfl

/-- Settles O47: in ERROR the CORE stands still, so only a move of the host that is due can change PHASE. -/
theorem errorIsTerminal : Obligations.ErrorIsTerminal := by
  intro s t he h
  cases hh : s.host with
  | nil =>
    have hsame : t = s := coreStep_error ((step_coreStep hh).symm.trans h) he
    exact ⟨fun _ => hsame, .inl (hsame ▸ he)⟩
  | cons event rest =>
    refine ⟨nofun, ?_⟩
    obtain ⟨n, m⟩ := event
    cases n with
    | zero =>
      rcases hostMove_phase ((step_hostMove hh).symm.trans h) with hp | ⟨v, hw, hbits⟩
      · exact .inl (hp.trans he)
      · exact .inr ⟨m, v, rest, rfl, hw, hbits⟩
    | succ n =>
      have hsame := coreStep_error ((step_wait hh).symm.trans h) he
      exact .inl (hsame ▸ he)

end Machine

end Sys2Proof
end
section
/-! SUPPORT. RESET (70_reset_and_hazards.md R450): the statement ResetClears. -/

namespace Sys2Proof.Machine

/-- Settles O42: RESET wins whatever the phase and the START bit are, and the tables after it are those of arrays of zeros, which
are empty. -/
theorem resetClears : Obligations.ResetClears := by
  intro s v hreset
  rw [writeCtrl_reset hreset, build_zeros, build_zeros, build_zeros]
  rfl

end Sys2Proof.Machine
end
